-- ==== Sys2Proof/Word.lean ====
section
/-!
DEFINITION. The widths the spec counts in: the byte (R9), the 7-bit device address (R60), the 16-bit device
register (R40, R41) and the 32-bit command word (R102).
-/

namespace Sys2Proof

/-- A byte of a bus transaction or of the serial stream (R9, R60). -/
abbrev Byte := BitVec 8

/-- A 7-bit device address on the bus (R60). -/
abbrev Addr := BitVec 7

/-- A 16-bit device register (R40, R41). -/
abbrev Half := BitVec 16

/-- A 32-bit command or response word (R102, R121). -/
abbrev Word := BitVec 32

end Sys2Proof
end

