-- ==== Sys2Proof/Syntax.lean ====
section
/-!
DEFINITION. The data an operation carries (Field, ChannelConfig, Payload) and the eleven operations of the block
(R101), one constructor per row of spec/opcode_table.json.
-/

namespace Sys2Proof

/-- A field of a telemetry record: a rational, or the sentinel "out of range" (R34). -/
inductive Field where
  | num (q : Rat)
  | outOfRange
  deriving DecidableEq, Repr, Inhabited

/-- The operand of a channel read (R33): the members of layout C (R105). -/
structure ChannelConfig where
  addr : Addr
  ch   : BitVec 4
  gain : BitVec 3
  rate : BitVec 3
  comparatorDisabled : Bool
  deriving DecidableEq, Repr, Inhabited

/-- A key of the diagnostic line: its ASCII bytes (R234). -/
abbrev Key := List Byte

/-- The typed payload that travels with a command word (R127). -/
inductive Payload where
  | none
  | bytes  (bs : List Byte)
  | fields (fs : List Field)
  | pairs  (ps : List (Key × Field))
  deriving DecidableEq, Repr, Inhabited

/-- The eleven operations (R101). A payload operation carries its payload; LEN of WRREG is the payload's length (R103). -/
inductive Instr where
  /-- WRREG: register write (R141). -/
  | wrreg (a : Addr) (r : Byte) (bs : List Byte)
  /-- RDREG: register read of LEN bytes (R142). -/
  | rdreg (a : Addr) (r : Byte) (len : BitVec 8)
  /-- SETTLE: the explicit delay (R143). -/
  | settle (dur : BitVec 24)
  /-- RDCH: read one channel (R171). -/
  | rdch (a : Addr) (ch : BitVec 4) (g : BitVec 3) (dr : BitVec 3) (cd : Bool)
  /-- SETCODE: clamped DAC write of a signed code (R204). -/
  | setcode (code : Half)
  /-- SETEN: write the gate (R205). -/
  | seten (e : Bool)
  /-- CTRL: one control step (R206). -/
  | ctrl
  /-- FMTREC: format a record (R232). -/
  | fmtrec (fs : List Field)
  /-- TXREC: format and transmit a record (R233). -/
  | txrec (fs : List Field)
  /-- DIAGLN: the diagnostic line (R234). -/
  | diagln (ps : List (Key × Field))
  /-- CYCLE: one polling iteration (R261). -/
  | cycle
  deriving DecidableEq, Repr, Inhabited

end Sys2Proof
end

