-- ==== Sys2Proof/WellFormed.lean ====
section
/-!
DEFINITION. What a command word and its payload can express: the checks a decoded operation meets (R103, R122, R234).
Checks that need the configuration (record length, gain and rate sets) belong to the meanings.
-/

namespace Sys2Proof

/-- A diagnostic key is ASCII without `:` `,` or newline (R234). -/
def Key.ok (k : Key) : Bool :=
  k.all fun b => decide (b.toNat < 0x80) && b != 0x3A && b != 0x2C && b != 0x0A

/-- A diagnostic payload has at least one pair (R119) and legal keys (R234). -/
def pairsOk (ps : List (Key × Field)) : Bool :=
  !ps.isEmpty && ps.all fun p => Key.ok p.1

/-- WRREG's LEN is one byte (R103), RDREG's is at least 1 (R103, R122), DIAGLN's payload is in its grammar (R119, R234). -/
def Instr.wf : Instr → Bool
  | .wrreg _ _ bs => decide (bs.length ≤ 255)
  | .rdreg _ _ len => len != 0
  | .settle _ => true
  | .rdch _ _ _ _ _ => true
  | .setcode _ => true
  | .seten _ => true
  | .ctrl => true
  | .fmtrec _ => true
  | .txrec _ => true
  | .diagln ps => pairsOk ps
  | .cycle => true

end Sys2Proof
end

