-- ==== Sys2Proof/Decode.lean ====
section
/-!
DEFINITION. The decoder of a command (CW, PAYLOAD) (R102 to R108, R122, R127), total and rejecting by name, and the
encoder written from the same layouts; decodeTableWord reads a word of spec/opcode_table.json.
-/

namespace Sys2Proof

/-- Why a command is refused by the decoder (R122). -/
inductive Reject where
  /-- OP 0x0 or 0xC to 0xF names no operation. -/
  | noOperation
  /-- A bit that the layout marks 0 is not 0. -/
  | reservedBits
  /-- The payload has the wrong type or length. -/
  | wrongPayload
  /-- RDREG with LEN = 0. -/
  | zeroLength
  deriving DecidableEq, Repr, Inhabited

/-- `CW[31:28]` (R102). -/
def opField (cw : Word) : BitVec 4 := cw.extractLsb' 28 4

/-- Layout B: `CW[27:21]` (R103); layout C has its address at the same place (R105). -/
def addrField (cw : Word) : Addr := cw.extractLsb' 21 7

/-- Layout B: `CW[20:13]` (R103). -/
def regField (cw : Word) : Byte := cw.extractLsb' 13 8

/-- Layout B: `CW[12:5]` (R103). -/
def lenField (cw : Word) : BitVec 8 := cw.extractLsb' 5 8

/-- Layout B with a payload (R103, R127): WRREG. -/
def decodeWrreg (cw : Word) (p : Payload) : Except Reject Instr :=
  if cw.extractLsb' 0 5 = 0 then
    match p with
    | .bytes bs =>
      if bs.length = (lenField cw).toNat then .ok (.wrreg (addrField cw) (regField cw) bs) else .error .wrongPayload
    | .none => if lenField cw = 0 then .ok (.wrreg (addrField cw) (regField cw) []) else .error .wrongPayload
    | .fields _ => .error .wrongPayload
    | .pairs _ => .error .wrongPayload
  else .error .reservedBits

/-- A layout without a payload (R127): the word is read by `k`, any payload is refused (R122). -/
def withoutPayload (p : Payload) (k : Except Reject Instr) : Except Reject Instr :=
  match p with
  | .none => k
  | .bytes _ => .error .wrongPayload
  | .fields _ => .error .wrongPayload
  | .pairs _ => .error .wrongPayload

/-- Layout B without a payload (R103): RDREG. -/
def decodeRdreg (cw : Word) (p : Payload) : Except Reject Instr :=
  if cw.extractLsb' 0 5 = 0 then
    withoutPayload p
      (if lenField cw = 0 then .error .zeroLength else .ok (.rdreg (addrField cw) (regField cw) (lenField cw)))
  else .error .reservedBits

/-- Layout T (R104): SETTLE. -/
def decodeSettle (cw : Word) (p : Payload) : Except Reject Instr :=
  if cw.extractLsb' 24 4 = 0 then withoutPayload p (.ok (.settle (cw.extractLsb' 0 24))) else .error .reservedBits

/-- Layout C (R105): RDCH. -/
def decodeRdch (cw : Word) (p : Payload) : Except Reject Instr :=
  if cw.extractLsb' 0 10 = 0 then
    withoutPayload p
      (.ok (.rdch (addrField cw) (cw.extractLsb' 17 4) (cw.extractLsb' 14 3) (cw.extractLsb' 11 3) (cw.getLsbD 10)))
  else .error .reservedBits

/-- Layout D (R106): SETCODE. -/
def decodeSetcode (cw : Word) (p : Payload) : Except Reject Instr :=
  if cw.extractLsb' 16 12 = 0 then withoutPayload p (.ok (.setcode (cw.extractLsb' 0 16))) else .error .reservedBits

/-- Layout E (R107): SETEN. -/
def decodeSeten (cw : Word) (p : Payload) : Except Reject Instr :=
  if cw.extractLsb' 1 27 = 0 then withoutPayload p (.ok (.seten (cw.getLsbD 0))) else .error .reservedBits

/-- Layout N (R108): the word is its OP and nothing else. -/
def layoutN (cw : Word) (k : Except Reject Instr) : Except Reject Instr :=
  if cw.extractLsb' 0 28 = 0 then k else .error .reservedBits

/-- The field payload of FMTREC and TXREC (R127). -/
def withFields (p : Payload) (mk : List Field → Instr) : Except Reject Instr :=
  match p with
  | .fields fs => .ok (mk fs)
  | .none => .error .wrongPayload
  | .bytes _ => .error .wrongPayload
  | .pairs _ => .error .wrongPayload

/-- The pair payload of DIAGLN (R127, R119, R234). -/
def withPairs (p : Payload) : Except Reject Instr :=
  match p with
  | .pairs ps => if pairsOk ps then .ok (.diagln ps) else .error .wrongPayload
  | .none => .error .wrongPayload
  | .bytes _ => .error .wrongPayload
  | .fields _ => .error .wrongPayload

/-- The decoder (R101, R102): total; what it does not read is refused by name (R122). -/
def decode (cw : Word) (p : Payload) : Except Reject Instr :=
  match (opField cw).toNat with
  | 1 => decodeWrreg cw p
  | 2 => decodeRdreg cw p
  | 3 => decodeSettle cw p
  | 4 => decodeRdch cw p
  | 5 => decodeSetcode cw p
  | 6 => decodeSeten cw p
  | 7 => layoutN cw (withoutPayload p (.ok .ctrl))
  | 8 => layoutN cw (withFields p .fmtrec)
  | 9 => layoutN cw (withFields p .txrec)
  | 10 => layoutN cw (withPairs p)
  | 11 => layoutN cw (withoutPayload p (.ok .cycle))
  | _ => .error .noOperation

/-- A field of a command word with its least significant bit at `lo` (R9, R102). -/
def put {n : Nat} (x : BitVec n) (lo : Nat) : Word := x.setWidth 32 <<< lo

/-- The command word of an operation, field by field at the places of its layout (R103 to R108). -/
def encodeWord : Instr → Word
  | .wrreg a r bs => put 1#4 28 ||| put a 21 ||| put r 13 ||| put (BitVec.ofNat 8 bs.length) 5
  | .rdreg a r len => put 2#4 28 ||| put a 21 ||| put r 13 ||| put len 5
  | .settle dur => put 3#4 28 ||| put dur 0
  | .rdch a ch g dr cd =>
    put 4#4 28 ||| put a 21 ||| put ch 17 ||| put g 14 ||| put dr 11 ||| put (BitVec.ofBool cd) 10
  | .setcode code => put 5#4 28 ||| put code 0
  | .seten e => put 6#4 28 ||| put (BitVec.ofBool e) 0
  | .ctrl => put 7#4 28
  | .fmtrec _ => put 8#4 28
  | .txrec _ => put 9#4 28
  | .diagln _ => put 10#4 28
  | .cycle => put 11#4 28

/-- The payload of an operation (R127). -/
def encodePayload : Instr → Payload
  | .wrreg _ _ bs => .bytes bs
  | .rdreg _ _ _ => .none
  | .settle _ => .none
  | .rdch _ _ _ _ _ => .none
  | .setcode _ => .none
  | .seten _ => .none
  | .ctrl => .none
  | .fmtrec fs => .fields fs
  | .txrec fs => .fields fs
  | .diagln ps => .pairs ps
  | .cycle => .none

/-- The command of an operation: its word and its payload (R102). -/
def encode (i : Instr) : Word × Payload := (encodeWord i, encodePayload i)

/-- The `mask` of an operation's row of spec/opcode_table.json. -/
def tableMask : Instr → Word
  | .wrreg _ _ _ => 0xF000001F
  | .rdreg _ _ _ => 0xF000001F
  | .settle _ => 0xFF000000
  | .rdch _ _ _ _ _ => 0xF00003FF
  | .setcode _ => 0xFFFF0000
  | .seten _ => 0xFFFFFFFE
  | .ctrl => 0xFFFFFFFF
  | .fmtrec _ => 0xFFFFFFFF
  | .txrec _ => 0xFFFFFFFF
  | .diagln _ => 0xFFFFFFFF
  | .cycle => 0xFFFFFFFF

/-- The `match` of an operation's row of spec/opcode_table.json. -/
def tableMatch : Instr → Word
  | .wrreg _ _ _ => 0x10000000
  | .rdreg _ _ _ => 0x20000000
  | .settle _ => 0x30000000
  | .rdch _ _ _ _ _ => 0x40000000
  | .setcode _ => 0x50000000
  | .seten _ => 0x60000000
  | .ctrl => 0x70000000
  | .fmtrec _ => 0x80000000
  | .txrec _ => 0x90000000
  | .diagln _ => 0xA0000000
  | .cycle => 0xB0000000

/-- The payload of zeros a bare table word is given: LEN zero bytes, `nFields` zero fields, or one pair of the given key and
a zero value, as the operation asks (log 17). -/
def zeroPayload (nFields : Nat) (key : Key) (cw : Word) : Payload :=
  match (opField cw).toNat with
  | 1 => .bytes (List.replicate (lenField cw).toNat 0)
  | 8 => .fields (List.replicate nFields (.num 0))
  | 9 => .fields (List.replicate nFields (.num 0))
  | 10 => .pairs [(key, .num 0)]
  | _ => .none

/-- The low `nbits` bits of `w` as a command word, zeros above. -/
def tableWord (nbits w : Nat) : Word := BitVec.ofNat 32 (w % 2 ^ nbits)

/-- What the decoder reads from a word of spec/opcode_table.json with a payload of zeros (seven fields, the default of R8). -/
def decodeTableWord (nbits w : Nat) : Option Instr :=
  match decode (tableWord nbits w) (zeroPayload 7 [] (tableWord nbits w)) with
  | .ok i => some i
  | .error _ => none

end Sys2Proof
end

