-- ==== Sys2Proof/Config.lean ====
section
/-!
DEFINITION. The configuration record CFG (R8) as plain data, what one answer of the environment holds (R14, R66), and the
free values: constants without a body, so that no proof can see what they are.
-/

namespace Sys2Proof

/-- `ROUND_TIE`: what `round` does at an exact half (R8, R201). -/
inductive Tie where
  | even
  | away
  deriving DecidableEq, Repr, Inhabited

/-- One member of `GAIN_SET`: its pattern `CFG_PGA` and its full scale `FS_UV` in microvolts, a rational
(R8, R112; log 22). -/
structure GainRow where
  pattern : Half
  fsUv    : Rat
  deriving DecidableEq, Repr, Inhabited

/-- One member of `RATE_SET`: its pattern `CFG_DR` and its samples per second `SPS`, a rational
(R8, R113; log 22). -/
structure RateRow where
  pattern : Half
  sps     : Rat
  deriving DecidableEq, Repr, Inhabited

/-- `CFG_MUX`: one pattern for each of the `N_CHANNELS` = 4 single-ended inputs (R8, R111). -/
structure MuxPatterns where
  in0 : Half
  in1 : Half
  in2 : Half
  in3 : Half
  deriving DecidableEq, Repr, Inhabited

/-- `NUMERICS`: exact rationals, the reference, or a floating-point refinement, by number (R8, R31; log 22). -/
inductive Numerics where
  | exact
  | floating (id : Nat)
  deriving DecidableEq, Repr, Inhabited

/-- `DIVIDER_ORIENTATION`: which resistor of the divider is in the numerator (R282). -/
inductive Orientation where
  /-- `R = R_fixed * (V_supply - v) / v`. -/
  | first
  /-- `R = R_fixed * v / (V_supply - v)`. -/
  | dual
  deriving DecidableEq, Repr, Inhabited

/-- The constants of one thermistor (R282, R289). That the supply is a constant of the deployment, and no rail measured in the
same cycle, is the model's choice: R289's list of constants does not name it (log 38). -/
structure Thermistor where
  rFixed  : Rat
  r0      : Rat
  t0      : Rat
  beta    : Rat
  vSupply : Rat
  orientation : Orientation
  deriving DecidableEq, Repr, Inhabited

/-- How one field of the record is made from the cycle's voltages: the deployment's part of `CONVERT` (R292). An index
`i` names the voltage of `SCHEDULE[i]`, an index `cal` a calibration offset. -/
inductive FieldSource where
  /-- A constant field. -/
  | const (q : Rat)
  /-- The voltage itself. -/
  | volts (i : Nat)
  /-- Thermistor temperature (R282). -/
  | thermistor (i : Nat) (t : Thermistor)
  /-- Hall-effect current, `inverted` per wiring polarity (R283). -/
  | hall (i cal : Nat) (voltsPerAmp : Rat) (inverted : Bool)
  /-- Shunt current (R284). -/
  | shunt (i cal : Nat) (resistance : Rat)
  /-- Potentiometer percentage against a measured rail (R285). -/
  | percent (i ref : Nat)
  /-- A field the spec gives no formula for, such as `power` (N17): the host's function number `id` of these voltages, their
  gain codes and these calibration offsets. -/
  | other (id : Nat) (inputs cals : List Nat)
  deriving DecidableEq, Repr, Inhabited

/-- The names of the record's fields (R34). -/
inductive FieldName where
  | testVoltage
  | testCurrent
  | power
  | auxCurrent
  | sinkTemp
  | battTemp
  | potVoltage
  | other (n : Nat)
  deriving DecidableEq, Repr, Inhabited

/-- One place of `FIELD_ORDER` (R8, R34) with the source `CONVERT` gives it (R292). -/
structure FieldDef where
  name   : FieldName
  source : FieldSource
  deriving DecidableEq, Repr, Inhabited

/-- One sensor of the boot calibration (R286): its channel, `sampleCount`, the inter-sample delay, and the outlier rejection
the host may add, by number, by default none (U7; log 37). -/
structure Calibration where
  channel   : ChannelConfig
  count     : Nat
  gapUs     : Nat
  rejection : Option Nat
  deriving DecidableEq, Repr, Inhabited

/-- The configuration record `CFG` (R8). `N_FIELDS` is the number of `fields`. The place of a row in `gains` and
`rates` is its code, a code without a row is outside the set; `SENTINEL_TEXT` is made of ASCII characters (R118). -/
structure Cfg where
  adcAddr        : List Addr
  dacAddr        : Addr
  regConversion  : Byte
  regConfig      : Byte
  cfgOs          : Half
  mux            : MuxPatterns
  gains          : List (Option GainRow)
  cfgMode        : Half
  rates          : List (Option RateRow)
  cfgCompDisable : Half
  marginUs       : Nat
  vFullscale     : Rat
  refChannel     : ChannelConfig
  fields         : List FieldDef
  sentinelText   : List (BitVec 7)
  periodUs       : Nat
  schedule       : List ChannelConfig
  ctrlInCycle    : Bool
  ackTimeoutUs   : Option Nat
  numerics       : Numerics
  roundTie       : Tie
  /-- `DIAG_KEYS`; `none` where the deployment does not fix the keys (N20). -/
  diagKeys       : Option (List Key)
  /-- The sensors that need a zero reference (host, R286). -/
  calibrations   : List Calibration
  /-- The debounce hold of the button (host, R287). -/
  debounceUs     : Nat
  deriving DecidableEq, Repr, Inhabited

/-- `N_FIELDS` (R8). -/
def Cfg.nFields (c : Cfg) : Nat := c.fields.length

/-- The three answers of `E.respond` (R66). -/
inductive Ack where
  | ack
  | nack
  | silent
  deriving DecidableEq, Repr, Inhabited

/-- What a converter may have done with a second conversion-triggering write (R83 does not say). -/
inductive AfterOverlap where
  | aborted
  | kept
  | restarted
  deriving DecidableEq, Repr, Inhabited

/-- One answer of the environment: every value a single draw can ask for (R14). A primitive reads the members it needs. -/
structure Answer where
  /-- `E.respond` (R66). -/
  ack       : Ack
  /-- Whether the device took a write that failed or met silence (R66, R146). -/
  took      : Bool
  /-- Time beyond a lower bound, in microseconds (R66, R68, R69). -/
  extra     : Nat
  /-- Where in its window a conversion ends (R81). -/
  doneAfter : Nat
  /-- `E.ain` at the conversion's sampling time, in volts (R39). -/
  sample    : Rat
  /-- An early read returns zero (true) or the old result (false) (R82). -/
  zero      : Bool
  /-- Bytes of a read whose value the spec leaves open (R66, R83). -/
  fill      : List Byte
  /-- A converter's config word where the spec leaves it open (R83). -/
  anyCfg    : Half
  /-- A conversion result where the spec leaves it open (R39, R83). -/
  anyConv   : Half
  /-- What is pending after an overlap (R83). -/
  overlap   : AfterOverlap
  /-- Whether `dacCode` keeps its old value after a failed write (R204). -/
  keepsOld  : Bool
  deriving DecidableEq, Repr, Inhabited

/-- A converter's registers at power-on (R45, R362). -/
structure AdcAtReset where
  cfg  : Half
  conv : Half
  ptr  : Byte
  deriving DecidableEq, Repr, Inhabited

/-- Free value: the environment's answer to draw number `k`, when State lines up none (R14; log 2). -/
opaque Config.answer : Nat → Answer

/-- Free value: `T_XFER(k)`, the duration of a transaction of k bytes on the wire (R67; log 21). -/
opaque Config.tXfer : Nat → Nat

/-- Free value: what the registers of the converter at `a` hold at power-on, "any 16-bit value" (R45; log 5). -/
opaque Config.resetAdc : Addr → AdcAtReset

/-- Free value: the DAC's code at power-on, "any 12-bit value" (R45, R361; log 5). -/
opaque Config.resetDac : BitVec 12

/-- Free value: the relative rounding of floating-point numerics `id` at a result, in units of 2^-23 (R31, U26; log 22). -/
opaque Config.roundoff : Nat → Rat → Rat

/-- Free value: any strictly increasing function; the host's numeric logarithm is made of it (R282 "it is the host's
numerics"; log 25). -/
opaque Config.lnOrder : Rat ↪o Rat

/-- Free value: the temperature where the Beta equation divides by zero or takes the logarithm of a negative ratio (R282
states no result; log 25). -/
opaque Config.temperatureUnstated : Thermistor → Rat → Rat

/-- Free value: the field of `v` where its formula divides by zero (R283 to R285 state no result; log 25). -/
opaque Config.fieldOverZero : Rat → Field

/-- Free value: the mean of no samples (R286 states no result; log 25). -/
opaque Config.meanOfNone : Rat

/-- Free value: what outlier rejection `id` thinks of one of these samples (U7 gives no rule; log 37). -/
opaque Config.isOutlier : Nat → List Rat → Rat → Bool

/-- Free value: a host field the spec gives no formula for, a function of its voltages with their gain codes and of its
calibration offsets (R263, R292, N17; log 24). -/
opaque Config.hostField : Nat → List (Rat × BitVec 3) → List Rat → Field

end Sys2Proof
end

