-- ==== Sys2Proof/Machine/Operands.lean ====
section
/-!
DEFINITION. The pure functions over operands and CFG: numbers (R10), the converter's config word and its reading (R109 to
R114, R80), settle delays (R173), the conversion word (R115, R174), volts (R175, R176), round and MAPCODE (R201, R202), the
DAC frame (R117), fmt3 and the lines (R231, R232, R234), access shapes (R62, R63, R72) and the channel checks (R180, R181).
-/

namespace Sys2Proof

/-! ### Numbers (R10) -/

/-- `clamp(x, lo, hi)` on the integers (R10). -/
def clampInt (x lo hi : Int) : Int := if x < lo then lo else if hi < x then hi else x

/-- `U16(b0, b1)`: the first byte is the most significant (R10). -/
def u16 (b0 b1 : Byte) : Half := b0.setWidth 16 <<< 8 ||| b1.setWidth 16

/-- The two bytes of a 16-bit register in the order they travel, most significant first (R70). -/
def halfBytes (w : Half) : List Byte := [w.extractLsb' 8 8, w.extractLsb' 0 8]

/-- `toS16` (R10): the two's-complement reading. -/
def toS16 (w : Half) : Int := if w.toNat < 0x8000 then w.toNat else (w.toNat : Int) - 65536

/-- `round` with its tie rule (R10, R201). -/
def roundQ (tie : Tie) (q : Rat) : Int :=
  let f := q.floor
  let r := q - (f : Rat)
  if r < 1 / 2 then f
  else if 1 / 2 < r then f + 1
  else
    match tie with
    | .even => if f % 2 = 0 then f else f + 1
    | .away => if 0 ≤ f then f + 1 else f

/-- A strictly positive rational, read from its numerator. -/
def posQ (q : Rat) : Bool := decide (0 < q.num)

/-- The volts and the mean that spec/95_test_vectors.md states (its section 2.2, S10): "a floating-point refinement ... must
agree with the reference on every test vector" (D7). -/
def vectorQuantities : List Rat :=
  [5 / 2, -512 / 125, 32767 / 8000, -1 / 8000, 0, 3 / 16000, 33 / 40, 33 / 20, 33 / 10, 1 / 160, 11 / 100]

/-- A quantity in the deployment's numerics: exact, or off by a free part of at most 2^-23 but on the vectors' quantities
(R31, D7, U26; log 22). -/
def Cfg.num (c : Cfg) (q : Rat) : Rat :=
  match c.numerics with
  | .exact => q
  | .floating id =>
    if vectorQuantities.contains q then q else q * (1 + max (-1) (min 1 (Config.roundoff id q)) / 8388608)

/-! ### The converter's config word (R109 to R114) -/

/-- The row of gain code `g`, if `g` is in `GAIN_SET` (R112); no full scale is zero or negative (log 15). -/
def gainRow (c : Cfg) (g : BitVec 3) : Option GainRow := (c.gains.getD g.toNat none).filter fun r => posQ r.fsUv

/-- The row of rate code `r`, if `r` is in `RATE_SET` (R113); no rate is zero or negative (log 15). -/
def rateRow (c : Cfg) (r : BitVec 3) : Option RateRow := (c.rates.getD r.toNat none).filter fun x => posQ x.sps

/-- The four patterns of `CFG_MUX`, by channel (R111). -/
def MuxPatterns.toList (m : MuxPatterns) : List Half := [m.in0, m.in1, m.in2, m.in3]

/-- `CFG_MUX(ch)` (R111). -/
def muxPattern (c : Cfg) (ch : BitVec 4) : Half := c.mux.toList.getD ch.toNat 0

/-- `CFG_PGA(g)` (R112). -/
def gainPattern (c : Cfg) (g : BitVec 3) : Half :=
  match gainRow c g with
  | some r => r.pattern
  | none => 0

/-- `CFG_DR(r)` (R113). -/
def ratePattern (c : Cfg) (r : BitVec 3) : Half :=
  match rateRow c r with
  | some x => x.pattern
  | none => 0

/-- `CFG_COMP(cd)` (R109): the pattern of a disabled comparator (R114). -/
def compPattern (c : Cfg) (cd : Bool) : Half := if cd then c.cfgCompDisable else 0

/-- `buildConfig` (R109, R172): the or of the six parts. -/
def buildConfig (c : Cfg) (x : ChannelConfig) : Half :=
  c.cfgOs ||| muxPattern c x.ch ||| gainPattern c x.gain ||| c.cfgMode ||| ratePattern c x.rate |||
    compPattern c x.comparatorDisabled

/-- The bits a list of patterns covers. CFG gives patterns and no field widths (R8): that a field of the config word is the
bits its members' patterns set is the model's choice, so a code outside a small set can read as a member (log 28). -/
def maskOf (ps : List Half) : Half := ps.foldr (fun p m => p ||| m) 0

/-- The codes of gain and rate. -/
def codes3 : List (BitVec 3) := [0, 1, 2, 3, 4, 5, 6, 7]

/-- The four channels (R33). -/
def channels : List (BitVec 4) := [0, 1, 2, 3]

/-- `GAIN_SET` (R112). -/
def gainSet (c : Cfg) : List (BitVec 3) := codes3.filter fun g => (gainRow c g).isSome

/-- `RATE_SET` (R113). -/
def rateSet (c : Cfg) : List (BitVec 3) := codes3.filter fun r => (rateRow c r).isSome

/-- The bits of the mux field, those its patterns set (R111; log 28). -/
def muxMask (c : Cfg) : Half := maskOf (channels.map (muxPattern c))

/-- The bits of the gain field, those its patterns set (R112; log 28). -/
def gainMask (c : Cfg) : Half := maskOf ((gainSet c).map (gainPattern c))

/-- The bits of the rate field, those its patterns set (R113; log 28). -/
def rateMask (c : Cfg) : Half := maskOf ((rateSet c).map (ratePattern c))

/-- The one member of a list, if it has exactly one. -/
def theOnly {α : Type} : List α → Option α
  | [x] => some x
  | _ => none

/-- The start-conversion bit of a config word is set (R80). -/
def startBit (c : Cfg) (w : Half) : Bool := w &&& c.cfgOs != 0

/-- The channel a config word selects (R80, R111); none for a code of no or of several single-ended inputs (R123; log 28). -/
def wordChannel (c : Cfg) (w : Half) : Option (BitVec 4) :=
  theOnly (channels.filter fun ch => muxPattern c ch == w &&& muxMask c)

/-- The gain a config word selects (R80, R112); none for a pattern of no or of several members of `GAIN_SET` (R123; log 28). -/
def wordGain (c : Cfg) (w : Half) : Option (BitVec 3) :=
  theOnly ((gainSet c).filter fun g => gainPattern c g == w &&& gainMask c)

/-- The rate a config word selects (R80, R113); none for a pattern of no or of several members of `RATE_SET` (R123; log 28). -/
def wordRate (c : Cfg) (w : Half) : Option (BitVec 3) :=
  theOnly ((rateSet c).filter fun r => ratePattern c r == w &&& rateMask c)

/-- `settle_us(dr) = ceil(1 000 000 / SPS(dr)) + MARGIN_US` (R173), whatever the margin is (log 40). -/
def settleUs (c : Cfg) (dr : BitVec 3) : Nat :=
  match rateRow c dr with
  | some r => (1000000 / r.sps).ceil.toNat + c.marginUs
  | none => c.marginUs

/-! ### Conversion results (R115, R174 to R176, R39) -/

/-- `LSB(g) = FS(g) / 32768` in volts, `FS(g) = FS_UV(g) / 1 000 000` (R112, R175). -/
def lsbVolts (c : Cfg) (g : BitVec 3) : Rat :=
  match gainRow c g with
  | some r => r.fsUv / 1000000 / 32768
  | none => 0

/-- `decodeRaw([b0, b1])` as the 16-bit pattern (R115, R174); its integer is `toS16` of it. -/
def decodeRaw (bs : List Byte) : Half := u16 (bs.getD 0 0) (bs.getD 1 0)

/-- `toVolts(raw, g) = raw × LSB(g)` (R175), in the deployment's numerics (R31). -/
def toVolts (c : Cfg) (raw : Half) (g : BitVec 3) : Rat := c.num ((toS16 raw : Rat) * lsbVolts c g)

/-- `encodeVolts(v, g) = clamp(round(v / LSB(g)), -32768, 32767)` (R176); a conversion's result is this of the analogue
input (R39, from general knowledge; log 8). -/
def encodeVolts (c : Cfg) (v : Rat) (g : BitVec 3) : Half :=
  BitVec.ofInt 16 (clampInt (roundQ c.roundTie (v / lsbVolts c g)) (-32768) 32767)

/-! ### The control mapping and the DAC frame (R202, R117, R204) -/

/-- `DAC_CMD` (R8, R116). -/
def dacCmd : Byte := 0x40

/-- `clamp(c, 0, 4095)` as a 12-bit code (R23, R204). -/
def clampCode (x : Int) : BitVec 12 := BitVec.ofInt 12 (clampInt x 0 4095)

/-- `MAPCODE(v)`: "exact in `Q` up to the `round`", whatever the numerics of v (R202). -/
def mapCode (c : Cfg) (v : Rat) : BitVec 12 := clampCode (roundQ c.roundTie (v / c.vFullscale * 4095))

/-- `dacBytes(code) = [code >> 4, (code & 0xF) << 4]` (R117, R203). -/
def dacBytes (code : BitVec 12) : List Byte := 
  [(code >>> 4).setWidth 8, (code &&& 0xF).setWidth 8 <<< 4]

/-- The 12-bit code of the data bytes a DAC takes: `(msb << 4) | (lsb >> 4)` (R84). -/
def dacCodeOf (msb lsb : Byte) : BitVec 12 := msb.setWidth 12 <<< 4 ||| (lsb >>> 4).setWidth 12

/-! ### Telemetry text (R118, R119, R231, R232, R234) -/

/-- The ASCII byte of a decimal digit (R118). -/
def digitByte (n : Nat) : Byte := BitVec.ofNat 8 (0x30 + n % 10)

/-- Base-ten digits put before `acc`, at most `fuel` of them. -/
def decimalAux : Nat → Nat → List Byte → List Byte
  | 0, _, acc => acc
  | fuel + 1, n, acc => if n < 10 then digitByte n :: acc else decimalAux fuel (n / 10) (digitByte n :: acc)

/-- `decimal(I)`: base ten, no leading zero except the single digit 0 (R231). -/
def decimal (n : Nat) : List Byte := decimalAux (n + 1) n []

/-- `pad3(F)`: base ten, three digits (R231). -/
def pad3 (n : Nat) : List Byte := [digitByte (n / 100), digitByte (n / 10), digitByte n]

/-- The bytes of `SENTINEL_TEXT`, one ASCII character each (R118, R236). -/
def Cfg.sentinelBytes (c : Cfg) : List Byte := c.sentinelText.map fun x => x.setWidth 8

/-- `fmt3(f)` (R231, R236). -/
def fmt3 (c : Cfg) : Field → List Byte
  | .num q =>
    let m := (roundQ c.roundTie (|q| * 1000)).toNat
    (if q < 0 then [0x2D] else []) ++ decimal (m / 1000) ++ [0x2E] ++ pad3 (m % 1000)
  | .outOfRange => c.sentinelBytes

/-- `TAG` (R8): `"DATA,"`. -/
def tagBytes : List Byte := [0x44, 0x41, 0x54, 0x41, 0x2C]

/-- The separator put between texts. -/
def joinBytes (sep : List Byte) : List (List Byte) → List Byte
  | [] => []
  | [t] => t
  | t :: u :: ts => t ++ sep ++ joinBytes sep (u :: ts)

/-- The telemetry line of a record (R118, R232). Of no fields, which R118's grammar leaves out and no rule refuses, it is the
tag and the line feed (log 36). -/
def recordLine (c : Cfg) (fs : List Field) : List Byte := tagBytes ++ joinBytes [0x2C] (fs.map (fmt3 c)) ++ [0x0A]

/-- One `key:value` of the diagnostic line (R119, R234). -/
def pairText (c : Cfg) (p : Key × Field) : List Byte := p.1 ++ [0x3A] ++ fmt3 c p.2

/-- The diagnostic line (R119, R234). -/
def diagLine (c : Cfg) (ps : List (Key × Field)) : List Byte := joinBytes [0x2C, 0x20] (ps.map (pairText c)) ++ [0x0A]

/-- The line begins with `TAG`, as only a telemetry line may (R234). -/
def beginsWithTag (t : List Byte) : Bool := tagBytes.isPrefixOf t

/-- The diagnostic keys are the deployment's (R119 "keys from `DIAG_KEYS`"; log 27). -/
def diagKeysOk (c : Cfg) (ps : List (Key × Field)) : Bool :=
  match c.diagKeys with
  | none => true
  | some ks => ps.all fun p => ks.contains p.1

/-! ### Addresses and access shapes (R61 to R63, R66, R72) -/

/-- The address has a device (R61). -/
def inMap (c : Cfg) (a : Addr) : Bool := c.adcAddr.contains a || a == c.dacAddr

/-- The answer a transaction gets: an address outside the map never answers ACK (R66). -/
def answerAt (c : Cfg) (a : Addr) (x : Ack) : Ack := if !inMap c a && x == .ack then .nack else x

/-- The bytes of a drawn read: `n` of them (R66). -/
def fillBytes (n : Nat) (bs : List Byte) : List Byte := (List.range n).map fun i => bs.getD i 0

end Sys2Proof
end

