-- ==== Sys2Proof/Machine/Deployment.lean ====
section
/-!
DEFINITION. The domain of a configuration (U22: a configuration outside it is refused) and the configuration State.reset
carries: R8's defaults with the example values of spec/95_test_vectors.md (log 3, log 4).
-/

namespace Sys2Proof

/-- The channel is one of the four single-ended inputs (R33, R177). -/
def legalChannel (ch : BitVec 4) : Bool := decide (ch.toNat < 4)

/-- A `ChannelConfig` RDCH executes: legal channel, gain and rate in their sets, comparator disabled (R177, R180, R181). -/
def legalConfig (c : Cfg) (x : ChannelConfig) : Bool :=
  legalChannel x.ch && (gainRow c x.gain).isSome && (rateRow c x.rate).isSome && x.comparatorDisabled

/-- Addresses are pairwise distinct (R61). -/
def Cfg.addressesOk (c : Cfg) : Bool := decide c.adcAddr.Nodup && !c.adcAddr.contains c.dacAddr

/-- `SENTINEL_TEXT` is not empty and holds no comma and no newline (R236). -/
def Cfg.sentinelOk (c : Cfg) : Bool := !c.sentinelText.isEmpty && c.sentinelText.all fun b => b != 0x2C && b != 0x0A

/-- A configuration inside its domain, U22's four grounds and no other: addresses (R61), `V_FULLSCALE > 0` (R202), the sentinel
(R236), the channels of the schedule (R261). R8's "must make the delay safely longer than one conversion period" is no ground
of it: that a margin that does not, 0 among them, runs is the model's choice (log 40). -/
def Cfg.wf (c : Cfg) : Bool :=
  c.addressesOk && posQ c.vFullscale && c.sentinelOk && c.schedule.all fun x => legalChannel x.ch

/-- The six parts of the config word occupy disjoint bits (R109), there is a start bit, and the members of each set have
distinct patterns: the words of such a configuration can be read back (R80). No operation asks for it; claims do. -/
def Cfg.readable (c : Cfg) : Bool :=
  c.cfgOs != 0 && decide (channels.map (muxPattern c)).Nodup && decide ((gainSet c).map (gainPattern c)).Nodup &&
    decide ((rateSet c).map (ratePattern c)).Nodup &&
    decide (List.Pairwise (fun x y => x &&& y = 0)
      [c.cfgOs, muxMask c, gainMask c, c.cfgMode, rateMask c, c.cfgCompDisable])

/-- Codes `4 + ch` at bits 14:12 (R111). -/
def defaultMux : MuxPatterns := ⟨0x4000, 0x5000, 0x6000, 0x7000⟩

/-- The default `GAIN_SET` and `FS_UV` (R112), patterns `g << 9` (R110); codes 6 and 7 are outside it. -/
def defaultGains : List (Option GainRow) :=
  [some ⟨0x0000, 6144000⟩, some ⟨0x0200, 4096000⟩, some ⟨0x0400, 2048000⟩, some ⟨0x0600, 1024000⟩,
    some ⟨0x0800, 512000⟩, some ⟨0x0A00, 256000⟩]

/-- The default `RATE_SET` and `SPS` (R113), patterns `r << 5` (R110). -/
def defaultRates : List (Option RateRow) :=
  [some ⟨0x0000, 8⟩, some ⟨0x0020, 16⟩, some ⟨0x0040, 32⟩, some ⟨0x0060, 64⟩, some ⟨0x0080, 128⟩, some ⟨0x00A0, 250⟩,
    some ⟨0x00C0, 475⟩, some ⟨0x00E0, 860⟩]

/-- The default `FIELD_ORDER` (R34), with the first two voltages of the sweep and zeros (the CONVERT of V37). -/
def defaultFields : List FieldDef :=
  [⟨.testVoltage, .volts 0⟩, ⟨.testCurrent, .volts 1⟩, ⟨.power, .const 0⟩, ⟨.auxCurrent, .const 0⟩,
    ⟨.sinkTemp, .const 0⟩, ⟨.battTemp, .const 0⟩, ⟨.potVoltage, .const 0⟩]

/-- `V_FULLSCALE = 33/10`, the example of R202 and of spec/95_test_vectors.md, written out as numerator and denominator. -/
def exampleFullscale : Rat := ⟨33, 10, by decide, by decide⟩

/-- The configuration of spec/95_test_vectors.md: R8's defaults and its example addresses, reference channel and schedule. -/
def exampleDeployment : Cfg where
  adcAddr := [0x48, 0x49]
  dacAddr := 0x60
  regConversion := 0x00
  regConfig := 0x01
  cfgOs := 0x8000
  mux := defaultMux
  gains := defaultGains
  cfgMode := 0x0100
  rates := defaultRates
  cfgCompDisable := 0x0003
  marginUs := 1000
  vFullscale := exampleFullscale
  refChannel := ⟨0x48, 3, 1, 4, true⟩
  fields := defaultFields
  sentinelText := [0x6E, 0x61, 0x6E]
  periodUs := 1000000
  schedule := [⟨0x48, 0, 1, 4, true⟩, ⟨0x49, 0, 1, 4, true⟩]
  ctrlInCycle := true
  ackTimeoutUs := none
  numerics := .exact
  roundTie := .even
  diagKeys := none
  calibrations := []
  debounceUs := 300000

end Sys2Proof
end

