-- ==== Sys2Proof/Machine/State.lean ====
section
/-!
DEFINITION. The state of the machine: the block (R21 to R27), its histories and time (R28 to R30), the devices (R37, R38),
the host's side (R36, R287) and the model's own fields; the reasons a step can stop; the state after reset (R45).
-/

namespace Sys2Proof.Machine

/-- The operation named by `S.seq` (R26). -/
inductive Op where
  | idle
  | wrreg
  | rdreg
  | settle
  | rdch
  | setcode
  | seten
  | ctrl
  | fmtrec
  | txrec
  | diagln
  | cycle
  deriving DecidableEq, Repr, Inhabited

/-- `S.seq`: the operation in progress and the micro-step about to be taken (R26). -/
structure Seq where
  op    : Op
  phase : Nat
  deriving DecidableEq, Repr, Inhabited

/-- `S.bus` (R27). -/
inductive Bus where
  | free
  | busy (a : Addr)
  deriving DecidableEq, Repr, Inhabited

/-- `S.status.err`: the code of the last finished operation's outcome (R24, R325). -/
inductive ErrCode where
  | none
  | invalidChannel
  | busError
  | busTimeout
  deriving DecidableEq, Repr, Inhabited

/-- An error of the block with what it records (R320 to R324). -/
inductive BlockError where
  /-- The offending channel index (R321). -/
  | invalidChannel (ch : BitVec 4)
  /-- The address that did not acknowledge (R322). -/
  | busError (a : Addr)
  /-- The silent address, with a timeout configured (R324). -/
  | busTimeout (a : Addr)
  deriving DecidableEq, Repr, Inhabited

/-- An event of `S.log` (R30). -/
inductive Event where
  | busW (t0 t1 : Nat) (a : Addr) (bytes : List Byte) (outcome : Ack)
  | busR (t0 t1 : Nat) (a : Addr) (r : Byte) (n : Nat) (bytes : List Byte) (outcome : Ack)
  | sleep (t0 t1 d : Nat)
  | tx (t : Nat) (bytes : List Byte)
  deriving DecidableEq, Repr, Inhabited

/-- A fault of the model in the spec's sense: the mark of a run in which the host broke a duty (R83, R339). -/
inductive Mark where
  | conversionOverlap (a : Addr)
  deriving DecidableEq, Repr, Inhabited

/-- A conversion in flight (R37): what the config word selected, its start, and (the model's own, log 7) the drawn end
and result that will be there at its end. -/
structure Conversion where
  ch     : Option (BitVec 4)
  gain   : Option (BitVec 3)
  rate   : Option (BitVec 3)
  tStart : Nat
  tDone  : Nat
  result : Half
  deriving DecidableEq, Repr, Inhabited

/-- `E.adc[a]` (R37) with the register pointer that a transaction sets (R60, R141). -/
structure AdcDev where
  addr    : Addr
  cfg     : Half
  conv    : Half
  ptr     : Byte
  pending : Option Conversion
  deriving DecidableEq, Repr, Inhabited

/-- The typed `RESULT` of a response (R121). -/
inductive Result where
  | empty
  | bytes (bs : List Byte)
  | volts (v : Rat)
  | line (bs : List Byte)
  | record (fs : List Field)
  deriving DecidableEq, Repr, Inhabited

/-- A response `(RW, RESULT)` (R121); `raised` is the error handed to the caller with what it records (R13, R321, R322). -/
structure Response where
  rw     : Word
  result : Result
  raised : Option BlockError
  deriving DecidableEq, Repr, Inhabited

/-- `ApplicationMode` of the host (R36, R287). -/
inductive Mode where
  | idle
  | logging
  deriving DecidableEq, Repr, Inhabited

/-- What the host has lined up (R280, R281; log 17). -/
inductive HostInput where
  /-- One command (R102). -/
  | command (cw : Word) (payload : Payload)
  /-- The host issues nothing for at least `d` microseconds (R28). -/
  | wait (d : Nat)
  /-- The polled level of the active-low button line (R287, R288). -/
  | button (low : Bool)
  /-- One turn of the main loop: CYCLE in `Logging` after the boot, else nothing (R265, R281, R287, R364). -/
  | poll
  /-- `calibrateZero` for the sensor `k` of the configuration (R286). -/
  | calibrate (k : Nat)
  deriving DecidableEq, Repr, Inhabited

/-- The host's data the spec names (R36, R45, R287, R288, R364). -/
structure HostSide where
  mode       : Mode
  buttonLow  : Bool
  rearmAt    : Nat
  offsets    : List (Option Rat)
  bootFailed : Bool
  deriving DecidableEq, Repr, Inhabited

/-- Why a step has no next state: the machine is stuck. -/
inductive Fault where
  /-- Raised by an operation (Machine/Ops.lean, `run`) presented while `S.seq` is not `(IDLE, 0)` or the bus is not FREE:
  "a command presented while the block is busy has no step" (R374, U24, R64). SAFE: the run stops. -/
  | blockBusy
  deriving DecidableEq, Repr, Inhabited

/-- Why an input has no meaning (R13, R339). All are SAFE: nothing is claimed of such a run. -/
inductive Refusal where
  /-- Raised by an arm of `exec` that has no meaning yet. SAFE. -/
  | notModelled (mnemonic : String)
  /-- Raised by `step` (a command the decoder refuses, R122) and by RDREG with LEN 0 (R142). SAFE. -/
  | encoding (why : Reject)
  /-- Raised by `run`: the configuration is refused, on U22's grounds only (R61, R202, R236, R261). SAFE. -/
  | configuration
  /-- Raised by RDCH, CTRL, CYCLE: gain or rate outside its set (R180). SAFE. -/
  | gainOrRate
  /-- Raised by RDCH, CTRL, CYCLE: comparator enabled (R181). SAFE. -/
  | comparator
  /-- Raised by FMTREC, TXREC: the record's length is not N_FIELDS (R238). SAFE. -/
  | fieldCount
  /-- Raised by WRREG, DIAGLN: a payload the word or the line's grammar cannot hold (R103, R122, R234). SAFE. -/
  | payload
  /-- Raised by WRREG, RDREG: a converter access of an undescribed shape (R62, R72, U18). SAFE. -/
  | converterAccess
  /-- Raised by WRREG, RDREG, RDCH, CTRL, CYCLE: a DAC access of an undescribed shape (R63, U19). SAFE. -/
  | dacAccess
  /-- Raised by `step`: the host names a calibration the configuration does not have (R286). SAFE. -/
  | noSuchCalibration
  deriving DecidableEq, Repr, Inhabited

/-- The state of the machine. The first group is the block's (R21), then its histories (R29, R30) and the marks of model
faults (R339), the devices (R37, R38), the host (R36), the configuration (R8, log 3) and the model's own fields. -/
structure State where
  enabled : Bool
  dacCode : BitVec 12
  err     : ErrCode
  seq     : Seq
  bus     : Bus
  now     : Nat
  tx      : List Byte
  log     : List Event
  faults  : List Mark
  adc     : List AdcDev
  dac     : BitVec 12
  host    : HostSide
  cfg     : Cfg
  resp    : Option Response
  inputs  : List HostInput
  answers : List Answer
  draws   : Nat
  deriving DecidableEq, Repr, Inhabited

/-- A converter at power-on: unspecified registers, nothing pending (R45, R362). -/
def AdcDev.atReset (a : Addr) : AdcDev where
  addr := a
  cfg := (Config.resetAdc a).cfg
  conv := (Config.resetAdc a).conv
  ptr := (Config.resetAdc a).ptr
  pending := none

/-- The host at power-on: `Idle`, no offset computed (R45), button released and armed (log 32). -/
def HostSide.atReset (c : Cfg) : HostSide where
  mode := .idle
  buttonLow := false
  rearmAt := 0
  offsets := List.replicate c.calibrations.length none
  bootFailed := false

/-- The machine right after reset under a configuration (R45, R360 to R362). -/
def State.resetWith (c : Cfg) : State where
  enabled := false
  dacCode := 0
  err := .none
  seq := ⟨.idle, 0⟩
  bus := .free
  now := 0
  tx := []
  log := []
  faults := []
  adc := c.adcAddr.map AdcDev.atReset
  dac := Config.resetDac
  host := HostSide.atReset c
  cfg := c
  resp := none
  inputs := []
  answers := []
  draws := 0

/-- The machine right after reset (R45), with the configuration of spec/95_test_vectors.md (log 3). -/
def State.reset : State := State.resetWith exampleDeployment

end Sys2Proof.Machine
end

