-- ==== Sys2Proof/Machine/Flags.lean ====
section
/-!
DEFINITION. The block's status: operation codes (R101), error codes (R325) and the response word (R121).
-/

namespace Sys2Proof.Machine

/-- The OP code of an operation (R101); IDLE has none. -/
def Op.code : Op → BitVec 4
  | .idle => 0
  | .wrreg => 1
  | .rdreg => 2
  | .settle => 3
  | .rdch => 4
  | .setcode => 5
  | .seten => 6
  | .ctrl => 7
  | .fmtrec => 8
  | .txrec => 9
  | .diagln => 10
  | .cycle => 11

/-- The number of an error code (R24, R325). -/
def ErrCode.number : ErrCode → BitVec 4
  | .none => 0
  | .invalidChannel => 1
  | .busError => 2
  | .busTimeout => 3

/-- The code of an error (R325). -/
def BlockError.code : BlockError → ErrCode
  | .invalidChannel _ => .invalidChannel
  | .busError _ => .busError
  | .busTimeout _ => .busTimeout

/-- `RW`: OP in 31:28, error code in 27:24, small result in 23:0 (R121). -/
def responseWord (op : Op) (err : ErrCode) (small : BitVec 24) : Word := 
  put op.code 28 ||| put err.number 24 ||| put small 0

/-- The small result of RDCH: `RW[18:16] = G`, `RW[15:0] = raw` (R121). -/
def readingSmall (g : BitVec 3) (raw : Half) : BitVec 24 := g.setWidth 24 <<< 16 ||| raw.setWidth 24

/-- The small result of SETCODE and CTRL: `RW[11:0]` = the code written (R121). -/
def codeSmall (k : BitVec 12) : BitVec 24 := k.setWidth 24

end Sys2Proof.Machine
end

