-- ==== Sys2Proof/Machine/Ops.lean ====
section
/-!
DEFINITION. The named operations on State that every meaning is made of: draws (R14), time (R28, R81), the bus primitives
MemWrite and MemRead (R64 to R66) with the device contract (R80 to R84), Delay and TxBytes (R68, R69), the raising of an
error as one operation (R326), and `run`, which starts an operation and refuses what has no meaning (R339).
-/

namespace Sys2Proof.Machine

/-! ### Updates of one place -/

/-- The sequencer moves to a phase (R26). -/
def State.setSeq (s : State) (op : Op) (phase : Nat) : State := { s with seq := ⟨op, phase⟩ }

/-- The bus changes owner (R27). -/
def State.setBus (s : State) (b : Bus) : State := { s with bus := b }

/-- An event is appended to the history (R30). -/
def State.record (s : State) (e : Event) : State := { s with log := s.log ++ [e] }

/-- Bytes are appended to the serial stream (R29). -/
def State.appendTx (s : State) (bs : List Byte) : State := { s with tx := s.tx ++ bs }

/-- The gate is written (R22). -/
def State.setEnabled (s : State) (e : Bool) : State := { s with enabled := e }

/-- The commanded code is written (R23). -/
def State.setDacCode (s : State) (k : BitVec 12) : State := { s with dacCode := k }

/-- The DAC device takes a code (R84). -/
def State.setDac (s : State) (k : BitVec 12) : State := { s with dac := k }

/-- The converters change (R37). -/
def State.setAdc (s : State) (ds : List AdcDev) : State := { s with adc := ds }

/-- A model fault is recorded for good (R83, R339). -/
def State.mark (s : State) (m : Mark) : State := { s with faults := s.faults ++ [m] }

/-- The host's side changes (R36). -/
def State.setHost (s : State) (h : HostSide) : State := { s with host := h }

/-- The host's queue changes. -/
def State.setInputs (s : State) (is : List HostInput) : State := { s with inputs := is }

/-! ### Draws (R14) -/

/-- The environment's answer to the next draw: lined up in State, or the free value `Config.answer` (log 2). -/
def State.nextAnswer (s : State) : Answer := s.answers.headD (Config.answer s.draws)

/-- The draw is used up. -/
def State.popAnswer (s : State) : State := { s with answers := s.answers.tail, draws := s.draws + 1 }

/-! ### Time and conversions in flight (R28, R81) -/

/-- What a converter holds at time `t`: a conversion whose end has come is in the conversion register (R81). -/
def AdcDev.upTo (d : AdcDev) (t : Nat) : AdcDev :=
  match d.pending with
  | none => d
  | some c => if c.tDone ≤ t then { d with conv := c.result, pending := none } else d

/-- Time passes; conversions that end in it end (R28, R81). -/
def State.advance (s : State) (n : Nat) : State :=
  { s with now := s.now + n, adc := s.adc.map fun d => d.upTo (s.now + n) }

/-! ### The device contract (R80 to R84) -/

/-- The device at `a` is in a run marked by an overlap (R83). -/
def State.marked (s : State) (a : Addr) : Bool := s.faults.contains (.conversionOverlap a)

/-- The conversion a config word starts at time `t` (R80), its end drawn in its window (R81) and its result made from the
drawn analogue value (R39); a word outside the described codes has no bound and no scale (log 28). -/
def startConversion (c : Cfg) (t : Nat) (w : Half) (ans : Answer) : Conversion where
  ch := wordChannel c w
  gain := wordGain c w
  rate := wordRate c w
  tStart := t
  tDone := t + 1 +
    match wordRate c w with
    | some r => ans.doneAfter % settleUs c r
    | none => ans.doneAfter
  result :=
    match wordGain c w with
    | some g => encodeVolts c ans.sample g
    | none => ans.anyConv

/-- A converter after an overlap: nothing is claimed of it (R83; log 6). -/
def AdcDev.afterOverlap (d : AdcDev) (c : Cfg) (t : Nat) (w : Half) (ans : Answer) : AdcDev :=
  { d with
    cfg := ans.anyCfg
    conv := ans.anyConv
    pending :=
      match ans.overlap with
      | .aborted => none
      | .kept => d.pending
      | .restarted => some (startConversion c t w ans) }

/-- A converter takes a config word at time `t` (R80). -/
def AdcDev.takeConfig (d : AdcDev) (c : Cfg) (t : Nat) (marked : Bool) (w : Half) (ans : Answer) : AdcDev :=
  if marked || (startBit c w && d.pending.isSome) then d.afterOverlap c t w ans
  else if startBit c w then { d with cfg := w, pending := some (startConversion c t w ans) }
  else { d with cfg := w }

/-- A converter takes a register write ending at time `t`: the pointer byte (R141), and two data bytes for the config
register (R80); the conversion register is read-only for the block (R41; log 9). -/
def AdcDev.take (d : AdcDev) (c : Cfg) (t : Nat) (marked : Bool) (r : Byte) (bs : List Byte) (ans : Answer) : AdcDev :=
  match bs with
  | [b0, b1] =>
    if r = c.regConfig then ({ d with ptr := r }).takeConfig c t marked (u16 b0 b1) ans
    else { d with ptr := r }
  | _ => { d with ptr := r }

/-- The write starts a conversion on a converter whose conversion is pending (R83). -/
def AdcDev.overlaps (d : AdcDev) (c : Cfg) (r : Byte) (bs : List Byte) : Bool :=
  match bs with
  | [b0, b1] => r == c.regConfig && startBit c (u16 b0 b1) && d.pending.isSome
  | _ => false

/-- The device at `a` changes; the others do not. -/
def State.mapAdc (s : State) (a : Addr) (f : AdcDev → AdcDev) : State :=
  s.setAdc (s.adc.map fun d => if d.addr = a then f d else d)

/-- `E.adc[a]` (R37): the converter at `a`, if there is one. -/
def State.converter (s : State) (a : Addr) : Option AdcDev := s.adc.find? fun d => d.addr == a

/-- The mark of an overlap, once per device (R83). -/
def State.noteOverlap (s : State) (a : Addr) (r : Byte) (bs : List Byte) : State :=
  if !s.marked a && (s.converter a).any fun d => d.overlaps s.cfg r bs then s.mark (.conversionOverlap a) else s

/-- The DAC takes the frame `[0x40, msb, lsb]` (R84); no other frame reaches it (R63). -/
def State.dacTakes (s : State) (r : Byte) (bs : List Byte) : State :=
  match bs with
  | [msb, lsb] => if r = dacCmd then s.setDac (dacCodeOf msb lsb) else s
  | _ => s

/-- The device at `a` takes the bytes of a write that has just ended (R64). -/
def State.deviceTakes (s : State) (a : Addr) (r : Byte) (bs : List Byte) (ans : Answer) : State :=
  if a = s.cfg.dacAddr then s.dacTakes r bs
  else (s.noteOverlap a r bs).mapAdc a fun d => d.take s.cfg s.now (s.marked a) r bs ans

/-- The device takes the bytes or not, as drawn (R66, R146). -/
def State.deviceTakesIf (s : State) (took : Bool) (a : Addr) (r : Byte) (bs : List Byte) (ans : Answer) : State :=
  if took then s.deviceTakes a r bs ans else s

/-- `E.read(a, r, n, t)` of one converter (R82): stale or zero while a conversion is pending; open bytes for a marked device
(R83) and for the config register (log 10). -/
def AdcDev.readBytes (d : AdcDev) (c : Cfg) (t : Nat) (marked : Bool) (r : Byte) (n : Nat) (ans : Answer) : List Byte :=
  if !marked && (r == c.regConversion && n == 2) then
    match (d.upTo t).pending with
    | none => halfBytes (d.upTo t).conv
    | some _ => if ans.zero then [0, 0] else halfBytes (d.upTo t).conv
  else fillBytes n ans.fill

/-- `E.read(a, r, n, S.now)` (R65, R82). -/
def State.deviceReads (s : State) (a : Addr) (r : Byte) (n : Nat) (ans : Answer) : List Byte :=
  match s.converter a with
  | some d => d.readBytes s.cfg s.now (s.marked a) r n ans
  | none => fillBytes n ans.fill

/-- The pointer byte of a read reaches the converter, or not, as drawn (R65, R141). -/
def State.pointerIf (s : State) (took : Bool) (a : Addr) (r : Byte) : State :=
  if took then s.mapAdc a fun d => { d with ptr := r } else s

/-! ### Results that may be an error (R13) -/

/-- What a primitive or a part of an operation leaves: the state, and a value or the error it raised. -/
abbrev Res (α : Type) := State × Except BlockError α

/-- The next micro-step runs only after a value: "no later micro-step of X runs" (R326). -/
def Res.andThen {α β : Type} (x : Res α) (k : α → State → Res β) : Res β :=
  match x.2 with
  | .ok v => k v x.1
  | .error e => (x.1, .error e)

/-! ### The primitives (R64 to R69) -/

/-- What a device does with a write that raises: drawn (R146), or nothing (R204, for the DAC write of SETCODE). -/
inductive FailedWrite where
  | drawn
  | untouched
  deriving DecidableEq, Repr, Inhabited

/-- The device took a write that raised (R146, R204; log 12). -/
def FailedWrite.took (f : FailedWrite) (ans : Answer) : Bool :=
  match f with
  | .drawn => ans.took
  | .untouched => false

/-- The bus is held for the time of `k` bytes on the wire and given back (R64, R65, R67). -/
def State.transfer (s : State) (a : Addr) (k : Nat) : State :=
  ((s.setBus (.busy a)).advance (Config.tXfer k)).setBus .free

/-- `MemWrite((a, r), n, bs)` (R64, R66). -/
def memWrite (f : FailedWrite) (a : Addr) (r : Byte) (bs : List Byte) (s : State) : Res Unit :=
  let ans := s.nextAnswer
  let out := answerAt s.cfg a ans.ack
  let t := s.popAnswer.transfer a (1 + bs.length)
  let t := t.record (.busW s.now t.now a (r :: bs) out)
  match out with
  | .ack => (t.deviceTakes a r bs ans, .ok ())
  | .nack => (t.deviceTakesIf (f.took ans) a r bs ans, .error (.busError a))
  | .silent =>
    match s.cfg.ackTimeoutUs with
    | none => (t.deviceTakesIf ans.took a r bs ans, .ok ())
    | some d =>
      ((t.deviceTakesIf (f.took ans) a r bs ans).advance (d + ans.extra), .error (.busTimeout a))

/-- `MemRead((a, r), n)` (R65, R66): the device is sampled at the start. -/
def memRead (a : Addr) (r : Byte) (n : Nat) (s : State) : Res (List Byte) :=
  let ans := s.nextAnswer
  let out := answerAt s.cfg a ans.ack
  let t := s.popAnswer.transfer a (2 + n)
  match out with
  | .ack =>
    let bs := s.deviceReads a r n ans
    ((t.pointerIf true a r).record (.busR s.now t.now a r n bs .ack), .ok bs)
  | .nack => ((t.pointerIf ans.took a r).record (.busR s.now t.now a r n [] .nack), .error (.busError a))
  | .silent =>
    match s.cfg.ackTimeoutUs with
    | none =>
      let bs := fillBytes n ans.fill
      ((t.pointerIf ans.took a r).record (.busR s.now t.now a r n bs .silent), .ok bs)
    | some d =>
      let t := (t.pointerIf ans.took a r).advance (d + ans.extra)
      (t.record (.busR s.now t.now a r n [] .silent), .error (.busTimeout a))

/-- `Delay(d)`: at least `d` (R68). -/
def delay (d : Nat) (s : State) : State :=
  let t := s.popAnswer.advance (d + s.nextAnswer.extra)
  t.record (.sleep s.now t.now d)

/-- `TxBytes(bs)` (R69); it may take time. -/
def txBytes (bs : List Byte) (s : State) : State :=
  (((s.popAnswer).appendTx bs).record (.tx s.now bs)).advance s.nextAnswer.extra

/-- The host issues nothing for at least `d` microseconds; only the time base and the devices move (R28, R329). -/
def waitFor (d : Nat) (s : State) : State := s.popAnswer.advance (d + s.nextAnswer.extra)

/-! ### The end of an operation (R121, R326) -/

/-- A normal end: `S.status.err <- 0 ; S.seq <- (IDLE, 0) ; respond` (R121). -/
def finish (op : Op) (small : BitVec 24) (result : Result) (s : State) : State :=
  { s with err := .none, seq := ⟨.idle, 0⟩, resp := some ⟨responseWord op .none small, result, none⟩ }

/-- What a raise does, the block's "trap entry" (R326): the bus is freed, the code is kept, the sequencer goes idle, the
response carries the code and an empty result. Nothing is saved, and there is no return from it (R330). -/
def takeError (op : Op) (e : BlockError) (s : State) : State :=
  { s with
    bus := .free
    err := e.code
    seq := ⟨.idle, 0⟩
    resp := some ⟨responseWord op e.code 0, .empty, some e⟩ }

/-- The end of an operation that may have raised. -/
def complete {α : Type} (op : Op) (small : α → BitVec 24) (result : α → Result) (x : Res α) : State :=
  match x.2 with
  | .ok v => finish op (small v) (result v) x.1
  | .error e => takeError op e x.1

/-! ### The start of an operation (R339, R374) -/

/-- The block takes a command: the sequencer is idle and the bus free (R46, R374). -/
def State.isIdle (s : State) : Bool := s.seq == ⟨.idle, 0⟩ && s.bus == .free

/-- Starts operation `op`: a configuration outside its domain (U22) or an input without a meaning (`stop`, R339) is refused,
a busy block takes no step (R374), else `S.seq <- (op, 0)` and the operation's micro-steps run. -/
def run (op : Op) (stop : Option Refusal) (body : State → State) (s : State) : Host.Outcome State Fault Refusal :=
  if s.cfg.wf then
    if s.isIdle then
      match stop with
      | none => .next (body (s.setSeq op 0))
      | some r => .refused r
    else .fault .blockBusy
  else .refused .configuration

/-! ### Inputs without a meaning (R62, R63, R72, R180, R181) -/

/-- A raw write of an undescribed shape to a device of the map: the DAC takes only `0x40` and two bytes (R63); a converter
takes two bytes in one of its two registers (R62, R72), or the register byte alone (R141; log 11). -/
def writeStop (c : Cfg) (a : Addr) (r : Byte) (n : Nat) : Option Refusal :=
  if a = c.dacAddr then
    if r = dacCmd ∧ n = 2 then none else some .dacAccess
  else if c.adcAddr.contains a then
    if (r = c.regConfig ∨ r = c.regConversion) ∧ (n = 2 ∨ n = 0) then none else some .converterAccess
  else none

/-- A raw read of an undescribed shape from a device of the map: the DAC is never read (R63); a converter is read two bytes
at a time from one of its two registers (R62, R72). -/
def readStop (c : Cfg) (a : Addr) (r : Byte) (n : Nat) : Option Refusal :=
  if a = c.dacAddr then some .dacAccess
  else if c.adcAddr.contains a then
    if (r = c.regConfig ∨ r = c.regConversion) ∧ n = 2 then none else some .converterAccess
  else none

/-- What makes a channel read refused. A channel outside 0..3 is an error and comes first (R328); then gain and rate (R180),
the comparator (R181), and a channel read aimed at the DAC, whose accesses are of an undescribed shape (R63; log 14). -/
def channelStop (c : Cfg) (x : ChannelConfig) : Option Refusal :=
  if legalChannel x.ch then
    if (gainRow c x.gain).isSome && (rateRow c x.rate).isSome then
      if x.comparatorDisabled then
        if x.addr = c.dacAddr then some .dacAccess else none
      else some .comparator
    else some .gainOrRate
  else none

end Sys2Proof.Machine
end

