-- ==== Sys2Proof/Machine/Adc.lean ====
section
/-!
DEFINITION. The ADC driver: RDCH (R170 to R181).
-/

namespace Sys2Proof.Machine

/-- What a channel read returns: the voltage with its gain context (R31, R121). -/
structure Reading where
  raw   : Half
  gain  : BitVec 3
  volts : Rat
  deriving DecidableEq, Repr, Inhabited

/-- Phase 4 of RDCH: decode and scale (R171, R174, R175). -/
def readingOf (c : Cfg) (g : BitVec 3) (bs : List Byte) : Reading :=
  ⟨decodeRaw bs, g, toVolts c (decodeRaw bs) g⟩

/-- Phases 2 to 4 of RDCH: settle, read, decode (R171). -/
def rdchAfterWrite (x : ChannelConfig) (s : State) : Res Reading :=
  let t := delay (settleUs s.cfg x.rate) (s.setSeq .rdch 2)
  (memRead x.addr t.cfg.regConversion 2 (t.setSeq .rdch 3)).andThen fun bs u =>
    (u.setSeq .rdch 4, .ok (readingOf u.cfg x.gain bs))

/-- The micro-steps of RDCH (R171): the channel check before any bus access (R177), the config write, the settle delay, the
read, the decoding. No time passes but in the primitives (log 34). -/
def readChannel (x : ChannelConfig) (s : State) : Res Reading :=
  let t := s.setSeq .rdch 0
  if legalChannel x.ch then
    (memWrite .drawn x.addr t.cfg.regConfig (halfBytes (buildConfig t.cfg x)) (t.setSeq .rdch 1)).andThen
      fun _ u => rdchAfterWrite x u
  else (t, .error (.invalidChannel x.ch))

/-- The response of RDCH: raw and gain code in RW, the voltage as RESULT (R121, R171). -/
def completeReading (x : Res Reading) : State :=
  complete .rdch (fun v => readingSmall v.gain v.raw) (fun v => .volts v.volts) x

/-- RDCH: read one channel (R171). -/
def execRdch (a : Addr) (ch : BitVec 4) (g dr : BitVec 3) (cd : Bool) (s : State) : Host.Outcome State Fault Refusal :=
  run .rdch (channelStop s.cfg ⟨a, ch, g, dr, cd⟩) (fun t => completeReading (readChannel ⟨a, ch, g, dr, cd⟩ t)) s

end Sys2Proof.Machine
end

