-- ==== Sys2Proof/Machine/Bus.lean ====
section
/-!
DEFINITION. The bus transaction operations: WRREG, RDREG, SETTLE (R140 to R149).
-/

namespace Sys2Proof.Machine

/-- What makes a WRREG refused: more bytes than LEN can say (R103), or an access of an undescribed shape (R62, R63, R72). -/
def wrregStop (c : Cfg) (a : Addr) (r : Byte) (bs : List Byte) : Option Refusal :=
  if bs.length ≤ 255 then writeStop c a r bs.length else some .payload

/-- WRREG: register write (R141). -/
def execWrreg (a : Addr) (r : Byte) (bs : List Byte) (s : State) : Host.Outcome State Fault Refusal :=
  run .wrreg (wrregStop s.cfg a r bs)
    (fun t => complete .wrreg (fun _ => 0) (fun _ => .empty) (memWrite .drawn a r bs t)) s

/-- What makes an RDREG refused: LEN = 0 (R122), or an access of an undescribed shape (R62, R63, R72). -/
def rdregStop (c : Cfg) (a : Addr) (r : Byte) (len : BitVec 8) : Option Refusal :=
  if len = 0 then some (.encoding .zeroLength) else readStop c a r len.toNat

/-- RDREG: register read (R142). -/
def execRdreg (a : Addr) (r : Byte) (len : BitVec 8) (s : State) : Host.Outcome State Fault Refusal :=
  run .rdreg (rdregStop s.cfg a r len)
    (fun t => complete .rdreg (fun _ => 0) Result.bytes (memRead a r len.toNat t)) s

/-- SETTLE: the explicit delay (R143). -/
def execSettle (dur : BitVec 24) (s : State) : Host.Outcome State Fault Refusal :=
  run .settle none (fun t => finish .settle 0 .empty (delay dur.toNat t)) s

end Sys2Proof.Machine
end

