-- ==== Sys2Proof/Machine/Control.lean ====
section
/-!
DEFINITION. The control loop: SETCODE, SETEN, CTRL (R200 to R210).
-/

namespace Sys2Proof.Machine

/-- `S.ctrl.dacCode` after the DAC write of code `k`, which was `old` before: `k`, or a draw of both if it raised (R204). -/
def settleCode (old k : BitVec 12) (x : Res Unit) : Res (BitVec 12) :=
  match x.2 with
  | .ok _ => (x.1, .ok k)
  | .error e => ((x.1.popAnswer).setDacCode (if x.1.nextAnswer.keepsOld then old else k), .error e)

/-- The micro-steps of SETCODE after the clamp (R204): the stored code, then the frame `0x40`, `dacBytes` (R116, R117). -/
def writeCode (k : BitVec 12) (s : State) : Res (BitVec 12) :=
  settleCode s.dacCode k
    (memWrite .untouched s.cfg.dacAddr dacCmd (dacBytes k) (((s.setSeq .setcode 0).setDacCode k).setSeq .setcode 1))

/-- SETCODE: clamped DAC write (R204); it is not gated. -/
def execSetcode (code : Half) (s : State) : Host.Outcome State Fault Refusal :=
  run .setcode none
    (fun t => complete .setcode codeSmall (fun _ => .empty) (writeCode (clampCode (toS16 code)) t)) s

/-- SETEN: write the gate (R205). -/
def execSeten (e : Bool) (s : State) : Host.Outcome State Fault Refusal :=
  run .seten none (fun t => finish .seten 0 .empty (t.setEnabled e)) s

/-- `out <- if S.ctrl.enabled then code else 0` (R206, R210). -/
def gatedCode (s : State) (v : Reading) : BitVec 12 := if s.enabled then mapCode s.cfg v.volts else 0

/-- The micro-steps of CTRL (R206): the reference read, the mapping and the gate, the DAC write. -/
def controlStep (s : State) : Res (BitVec 12) :=
  (readChannel s.cfg.refChannel (s.setSeq .ctrl 0)).andThen fun v t =>
    writeCode (gatedCode t v) ((t.setSeq .ctrl 1).setSeq .ctrl 2)

/-- CTRL: one control step (R206). -/
def execCtrl (s : State) : Host.Outcome State Fault Refusal :=
  run .ctrl (channelStop s.cfg s.cfg.refChannel)
    (fun t => complete .ctrl codeSmall (fun _ => .empty) (controlStep t)) s

end Sys2Proof.Machine
end

