-- ==== Sys2Proof/Machine/Conversions.lean ====
section
/-!
DEFINITION. The host's conversion library as the parameter CONVERT of CYCLE (R263, R282 to R285, R292), with the host's
numeric logarithm (R282; log 25).
-/

namespace Sys2Proof.Machine

/-! ### The host's logarithm (R282 "it is the host's numerics"; log 25) -/

/-- The number of strips under the curve `1 / t`, over one octave, from which the bounds of the logarithm are made. -/
def lnSteps : Nat := 100

/-- Below `ln (1 + y)`, for `y >= 0`: the midpoint strips of `1 / t` from 1 to `1 + y`. -/
def lnMidpoint (y : Rat) : Rat :=
  (Finset.range lnSteps).sum fun i => 2 * y / (2 * lnSteps + (2 * i + 1) * y)

/-- Above `ln (1 + y)`, for `y >= 0`: the trapezoid strips of `1 / t` from 1 to `1 + y`. -/
def lnTrapezoid (y : Rat) : Rat :=
  (Finset.range lnSteps).sum fun i => y / 2 * (1 / (lnSteps + i * y) + 1 / (lnSteps + (i + 1) * y))

/-- How often `x >= 1` can be halved and stay 1 or more. -/
def octaves (x : Rat) : Nat := Nat.log2 x.floor.toNat

/-- A bound of `ln x`, for `x >= 1`, from strips that bound `ln (1 + y)` for `0 <= y <= 1`: `x` is `2^k (1 + y)`. -/
def lnByOctaves (strips : Rat → Rat) (x : Rat) : Rat :=
  octaves x * strips 1 + strips (x / 2 ^ octaves x - 1)

/-- From bounds `f` of `ln x` and `g` of the other side, both for `x >= 1`, a bound for all `x > 0`: `ln x` is `-ln (1 / x)`. -/
def lnBySides (f g : Rat → Rat) (x : Rat) : Rat := if 1 ≤ x then f x else -g (1 / x)

/-- A lower bound of `ln x`, for `x > 0`, some `10^-5` below it for each octave between `x` and 1. -/
def lnLow (x : Rat) : Rat := lnBySides (lnByOctaves lnMidpoint) (lnByOctaves lnTrapezoid) x

/-- An upper bound of `ln x`, for `x > 0`, some `10^-5` above it for each octave between `x` and 1. -/
def lnHigh (x : Rat) : Rat := lnBySides (lnByOctaves lnTrapezoid) (lnByOctaves lnMidpoint) x

/-- The host's `ln x`, for `x > 0`: a free value that is strictly increasing in `x` and lies within the two bounds of `ln x`. -/
def hostLn (x : Rat) : Rat :=
  max (lnLow x) (min (lnHigh x) (Config.lnOrder (if 1 ≤ x then x - 1 else 1 - 1 / x)))

/-! ### The formulas (R282 to R285) -/

/-- A number of the deployment's numerics as a field (R31, R34). -/
def numField (c : Cfg) (q : Rat) : Field := .num (c.num q)

/-- A field that divides by `d`; where `d` is zero the spec states no result and the field is free (log 25). -/
def dividedField (c : Cfg) (v n d : Rat) : Field := if d = 0 then Config.fieldOverZero v else numField c (n / d)

/-- The thermistor's resistance at divider voltage `v`, in the deployment's orientation (R282). -/
def Thermistor.resistance (t : Thermistor) (v : Rat) : Rat :=
  match t.orientation with
  | .first => t.rFixed * (t.vSupply - v) / v
  | .dual => t.rFixed * v / (t.vSupply - v)

/-- `1/T` of the Beta equation at resistance `r`: `1/T0 + ln(R/R0)/BETA` (R282). -/
def Thermistor.inverseKelvin (t : Thermistor) (r : Rat) : Rat := 1 / t.t0 + hostLn (r / t.r0) / t.beta

/-- The Beta equation has a result at resistance `r`: no division by zero, a positive ratio under the logarithm. -/
def Thermistor.stated (t : Thermistor) (r : Rat) : Bool :=
  t.t0 != 0 && t.r0 != 0 && t.beta != 0 && posQ (r / t.r0) && Thermistor.inverseKelvin t r != 0

/-- The Beta equation at resistance `r`, in Celsius (R282); free where the spec states no result (log 25). -/
def Thermistor.celsius (t : Thermistor) (r : Rat) : Rat :=
  if Thermistor.stated t r then 1 / Thermistor.inverseKelvin t r - 27315 / 100 else Config.temperatureUnstated t r

/-- Thermistor temperature: out of range for `v <= 0`, `v >= V_supply` and `R <= 0` (R282). -/
def Thermistor.field (c : Cfg) (t : Thermistor) (v : Rat) : Field :=
  if v ≤ 0 ∨ t.vSupply ≤ v then .outOfRange
  else if Thermistor.resistance t v ≤ 0 then .outOfRange
  else numField c (Thermistor.celsius t (Thermistor.resistance t v))

/-! ### CONVERT (R263, R292) -/

/-- What CYCLE passes to CONVERT for one entry of SCHEDULE: the voltage, or none for ABSENT, with the entry's gain context
(R263). -/
structure Input where
  volts : Option Rat
  gain  : BitVec 3
  deriving DecidableEq, Repr, Inhabited

/-- The voltage of `SCHEDULE[i]`; none where it is absent. -/
def voltsAt (inputs : List Input) (i : Nat) : Option Rat := inputs[i]?.bind Input.volts

/-- The voltage of `SCHEDULE[i]` with its gain code. -/
def gainedAt (inputs : List Input) (i : Nat) : Option (Rat × BitVec 3) :=
  inputs[i]?.bind fun x => x.volts.map fun v => (v, x.gain)

/-- The calibration offset of sensor `k`; none where it is not computed. -/
def offsetAt (offsets : List (Option Rat)) (k : Nat) : Option Rat := offsets.getD k none

/-- A field of one input: out of range when the input is absent (R263, R292). -/
def fieldOf {α : Type} (x : Option α) (k : α → Field) : Field :=
  match x with
  | some v => k v
  | none => .outOfRange

/-- The values at the given places, if all are there. -/
def gather {α : Type} (at' : Nat → Option α) : List Nat → Option (List α)
  | [] => some []
  | i :: is =>
    match at' i, gather at' is with
    | some v, some rest => some (v :: rest)
    | _, _ => none

/-- One field of the record from the cycle's inputs and the calibration offsets (R282 to R285, R292). -/
def fieldValue (c : Cfg) (inputs : List Input) (offsets : List (Option Rat)) : FieldSource → Field
  | .const q => .num q
  | .volts i => fieldOf (voltsAt inputs i) .num
  | .thermistor i t => fieldOf (voltsAt inputs i) (Thermistor.field c t)
  | .hall i cal k inverted =>
    fieldOf (voltsAt inputs i) fun v => fieldOf (offsetAt offsets cal) fun z =>
      dividedField c v (if inverted then -(v - z) else v - z) k
  | .shunt i cal r =>
    fieldOf (voltsAt inputs i) fun v => fieldOf (offsetAt offsets cal) fun z => dividedField c v (v - z) r
  | .percent i ref =>
    fieldOf (voltsAt inputs i) fun v => fieldOf (voltsAt inputs ref) fun rail => dividedField c v (v * 100) rail
  | .other id is cals =>
    fieldOf (gather (gainedAt inputs) is) fun xs => fieldOf (gather (offsetAt offsets) cals) (Config.hostField id xs)

/-- `CONVERT(v[0], ..., v[K-1])`: the record in `FIELD_ORDER` (R261, R292). -/
def convert (c : Cfg) (offsets : List (Option Rat)) (inputs : List Input) : List Field :=
  c.fields.map fun f => fieldValue c inputs offsets f.source

end Sys2Proof.Machine
end

