-- ==== Sys2Proof/Machine/Framer.lean ====
section
/-!
DEFINITION. The telemetry framer: FMTREC, TXREC, DIAGLN (R230 to R239).
-/

namespace Sys2Proof.Machine

/-- A record whose length is not `N_FIELDS` is refused (R238). -/
def recordStop (c : Cfg) (fs : List Field) : Option Refusal :=
  if fs.length = c.nFields then none else some .fieldCount

/-- FMTREC: format a record (R232). -/
def execFmtrec (fs : List Field) (s : State) : Host.Outcome State Fault Refusal :=
  run .fmtrec (recordStop s.cfg fs) (fun t => finish .fmtrec 0 (.line (recordLine t.cfg fs)) t) s

/-- The line of a record goes to the serial link (R233). -/
def sendRecord (fs : List Field) (s : State) : State := txBytes (recordLine s.cfg fs) s

/-- TXREC: format and transmit a record (R233). -/
def execTxrec (fs : List Field) (s : State) : Host.Outcome State Fault Refusal :=
  run .txrec (recordStop s.cfg fs) (fun t => finish .txrec 0 .empty (sendRecord fs t)) s

/-- What makes a DIAGLN refused: a payload outside the line's grammar (R119, R234), or a line that begins with `TAG` (R234). -/
def diagStop (c : Cfg) (ps : List (Key × Field)) : Option Refusal :=
  if pairsOk ps && diagKeysOk c ps && !beginsWithTag (diagLine c ps) then none else some .payload

/-- DIAGLN: the diagnostic line (R234). -/
def execDiagln (ps : List (Key × Field)) (s : State) : Host.Outcome State Fault Refusal :=
  run .diagln (diagStop s.cfg ps) (fun t => finish .diagln 0 .empty (txBytes (diagLine t.cfg ps) t)) s

end Sys2Proof.Machine
end

