-- ==== Sys2Proof/Machine/Cycle.lean ====
section
/-!
DEFINITION. The polling cycle: CYCLE (R260 to R267).
-/

namespace Sys2Proof.Machine

/-- What a part of a cycle leaves: the state, CONVERT's inputs so far and the last error met (R261, R263). -/
structure Sweep where
  state  : State
  inputs : List Input
  last   : Option BlockError

/-- The later of two errors, if there was one (R261, R328). -/
def laterError (before after : Option BlockError) : Option BlockError :=
  match after with
  | some e => some e
  | none => before

/-- `try v[i] <- RDCH(SCHEDULE[i]) on BusError or BusTimeout => v[i] <- ABSENT`, in SCHEDULE order, each with its
entry's gain context (R261 to R263). -/
def sweep : List ChannelConfig → Nat → State → Sweep
  | [], _, s => ⟨s, [], none⟩
  | x :: xs, i, s =>
    let r := readChannel x (s.setSeq .cycle i)
    let rest := sweep xs (i + 1) r.1
    match r.2 with
    | .ok v => ⟨rest.state, ⟨some v.volts, v.gain⟩ :: rest.inputs, rest.last⟩
    | .error e => ⟨rest.state, ⟨none, x.gain⟩ :: rest.inputs, laterError (some e) rest.last⟩

/-- The error a part of the cycle met, if any. -/
def errorOf {α : Type} (x : Res α) : Option BlockError :=
  match x.2 with
  | .ok _ => none
  | .error e => some e

/-- `if CTRL_IN_CYCLE then try CTRL on any error => nothing`: the state after it and the last error (R261). -/
def cycleControl (s : State) (last : Option BlockError) : State × Option BlockError :=
  if s.cfg.ctrlInCycle then
    let x := controlStep s
    (x.1, laterError last (errorOf x))
  else (s, last)

/-- The end of a cycle: the code of the last error met, or 0; the record is the RESULT whatever happened (R121, R261). -/
def finishCycle (last : Option BlockError) (fs : List Field) (s : State) : State :=
  let code := match last with
    | some e => e.code
    | none => ErrCode.none
  { s with err := code, seq := ⟨.idle, 0⟩, resp := some ⟨responseWord .cycle code 0, .record fs, last⟩ }

/-- The phases of a cycle (R261): the sweep, CONVERT, the control step, TXREC, the wait for the period's end (R264). -/
def cycleBody (s : State) : State :=
  let k := s.cfg.schedule.length
  let w := sweep s.cfg.schedule 0 s
  let fs := convert s.cfg w.state.host.offsets w.inputs
  let c := cycleControl ((w.state.setSeq .cycle k).setSeq .cycle (k + 1)) w.last
  let t := sendRecord fs (c.1.setSeq .cycle (k + 2))
  finishCycle c.2 fs (delay (s.now + s.cfg.periodUs - t.now) (t.setSeq .cycle (k + 3)))

/-- The first stop among the channels read in a cycle. -/
def scheduleStop (c : Cfg) : List ChannelConfig → Option Refusal
  | [] => none
  | x :: xs =>
    match channelStop c x with
    | some r => some r
    | none => scheduleStop c xs

/-- What makes a CYCLE refused: a channel read without a meaning in its sweep or its control step (R180, R181, R63). -/
def cycleStop (c : Cfg) : Option Refusal :=
  match scheduleStop c c.schedule with
  | some r => some r
  | none => if c.ctrlInCycle then channelStop c c.refChannel else none

/-- CYCLE: one polling iteration (R261). -/
def execCycle (s : State) : Host.Outcome State Fault Refusal := run .cycle (cycleStop s.cfg) cycleBody s

end Sys2Proof.Machine
end

