-- ==== Sys2Proof/Machine/Dispatch.lean ====
section
/-!
DEFINITION. exec: one arm per operation (R101).
-/

namespace Sys2Proof.Machine

def exec (i : Instr) (s : State) : Host.Outcome State Fault Refusal :=
  match i with
  | .wrreg a r bs => Sys2Proof.Machine.execWrreg a r bs s
  | .rdreg a r len => Sys2Proof.Machine.execRdreg a r len s
  | .settle dur => Sys2Proof.Machine.execSettle dur s
  | .rdch a ch g dr cd => Sys2Proof.Machine.execRdch a ch g dr cd s
  | .setcode code => Sys2Proof.Machine.execSetcode code s
  | .seten e => Sys2Proof.Machine.execSeten e s
  | .ctrl => Sys2Proof.Machine.execCtrl s
  | .fmtrec fs => Sys2Proof.Machine.execFmtrec fs s
  | .txrec fs => Sys2Proof.Machine.execTxrec fs s
  | .diagln ps => Sys2Proof.Machine.execDiagln ps s
  | .cycle => Sys2Proof.Machine.execCycle s

end Sys2Proof.Machine
end

