-- ==== Sys2Proof/Machine/HostSide.lean ====
section
/-!
DEFINITION. The host beside the block (R280 to R292; log 26): the mode machine and its button (R287, R288), the boot
calibration (R286, R363, R364). None of it is state of the block (R36); no operation reads or writes it but CYCLE's CONVERT.
-/

namespace Sys2Proof.Machine

/-- The active-high indicator line reflects `Logging` (R288). -/
def HostSide.indicator (h : HostSide) : Bool := h.mode == .logging

/-- The other mode (R287). -/
def Mode.toggle : Mode → Mode
  | .idle => .logging
  | .logging => .idle

/-- The polled button (R287): a falling edge of the line (`low` after not low) toggles the mode, unless the debounce hold
since the last accepted edge has not passed. -/
def HostSide.pressed (h : HostSide) (c : Cfg) (now : Nat) (low : Bool) : HostSide :=
  if !h.buttonLow && low && decide (h.rearmAt ≤ now) then
    { h with mode := h.mode.toggle, buttonLow := low, rearmAt := now + c.debounceUs }
  else { h with buttonLow := low }

/-- The arithmetic mean of the samples (R286); of no samples the spec states none, and the mean is free (log 25). -/
def mean (c : Cfg) (xs : List Rat) : Rat :=
  if xs.isEmpty then Config.meanOfNone else c.num (xs.sum / (xs.length : Rat))

/-- The samples the mean is taken of: all of them, "the plain-mean behavior as the default", or those an outlier rejection of
the host keeps (R286, U7; log 37). -/
def keptSamples (k : Calibration) (xs : List Rat) : List Rat :=
  match k.rejection with
  | none => xs
  | some id => xs.filter fun x => !Config.isOutlier id xs x

/-- The zero offset of a sensor from its samples (R286). -/
def zeroOffset (c : Cfg) (k : Calibration) (xs : List Rat) : Rat := mean c (keptSamples k xs)

/-- `n` calibration samples: each one RDCH followed by the inter-sample delay; the first that raises is the last (R286, R363). -/
def takeSamples (k : Calibration) : Nat → State → Res (List Rat)
  | 0, s => (s, .ok [])
  | n + 1, s =>
    let r := readChannel k.channel s
    match r.2 with
    | .error e => (completeReading r, .error e)
    | .ok v =>
      let rest := takeSamples k n (waitFor k.gapUs (completeReading r))
      (rest.1, rest.2.map fun xs => v.volts :: xs)

/-- The host keeps a computed offset, "read-only thereafter" (R36, R363). A BusError or BusTimeout of a sample ends the boot and
marks it failed, "only a bus-level fault" being fatal (R364); the mark is the whole report, no line is sent (log 35). An
InvalidChannel leaves no offset and no mark. -/
def HostSide.calibrated (h : HostSide) (c : Cfg) (k : Nat) (cal : Calibration) : Except BlockError (List Rat) → HostSide
  | .ok xs => { h with offsets := h.offsets.set k (some (zeroOffset c cal xs)) }
  | .error (.invalidChannel _) => h
  | .error (.busError _) => { h with bootFailed := true }
  | .error (.busTimeout _) => { h with bootFailed := true }

/-- The boot is over and every sensor that needs a zero has its offset (R281, R363, R364). -/
def HostSide.booted (h : HostSide) : Bool := !h.bootFailed && h.offsets.all Option.isSome

/-- `calibrateZero` for sensor `k` (R286): once at boot, no re-calibration (R36, C8), and nothing after a failed boot (R364).
The sequencer is idle between two samples. -/
def calibrate (k : Nat) (s : State) : Host.Outcome State Fault Refusal :=
  match s.cfg.calibrations[k]? with
  | none => .refused .noSuchCalibration
  | some cal =>
    if s.host.bootFailed || (offsetAt s.host.offsets k).isSome then .next s
    else
      run .idle (channelStop s.cfg cal.channel)
        (fun t =>
          let r := takeSamples cal cal.count t
          r.1.setHost (r.1.host.calibrated s.cfg k cal r.2)) s

end Sys2Proof.Machine
end

