-- ==== Sys2Proof/Machine/Fetch.lean ====
section
/-!
DEFINITION. What the machine does with the head of the host's queue (R280, R281): a command is decoded and executed (R102),
a wait passes time, the button and the main loop are the host's (R287). And the command the host presents for a bare
table word.
-/

namespace Sys2Proof.Machine

/-- A presented command is decoded (R122) and executed (R102). -/
def issue (cw : Word) (p : Payload) (s : State) : Host.Outcome State Fault Refusal :=
  match decode cw p with
  | .ok i => exec i s
  | .error why => .refused (.encoding why)

/-- One turn of the main loop: CYCLE while `Logging`, once every sensor that needs a zero is calibrated and unless the boot
failed; else nothing is issued (R265, R281, R287, R364). -/
def poll (s : State) : Host.Outcome State Fault Refusal :=
  if s.host.mode == .logging && s.host.booted then exec .cycle s else .next (waitFor 0 s)

/-- The host's next input. The button is polled whenever its level is an input: that an edge counts before the boot is over, so
that the loop may be entered in `Logging`, is the model's choice (R287, R363; log 39). -/
def takeInput (x : HostInput) (s : State) : Host.Outcome State Fault Refusal :=
  match x with
  | .command cw p => issue cw p s
  | .wait d => .next (waitFor d s)
  | .button low => .next (s.setHost (s.host.pressed s.cfg s.now low))
  | .poll => poll s
  | .calibrate k => calibrate k s

/-- A key the deployment allows, for a diagnostic line of zeros. -/
def anyKey (c : Cfg) : Key :=
  match c.diagKeys with
  | some (k :: _) => k
  | _ => []

/-- The command of a bare table word under a configuration: its payload is of zeros (log 17). -/
def tableCommand (c : Cfg) (nbits w : Nat) : HostInput :=
  .command (tableWord nbits w) (zeroPayload c.nFields (anyKey c) (tableWord nbits w))

end Sys2Proof.Machine
end

