-- ==== Sys2Proof/Machine/Step.lean ====
section
/-!
DEFINITION. One step of the machine, and the state in which the next step runs a given table word.
-/

namespace Sys2Proof.Machine

/-- One step: the host's next input is taken from its queue; with none lined up the block waits for the host's command
(R360) and time may pass (R28; log 18). -/
def step (s : State) : Host.Outcome State Fault Refusal :=
  match s.inputs with
  | [] => .next (waitFor 0 s)
  | x :: rest => takeInput x (s.setInputs rest)

/-- `s` with the command of a table word at the head of the host's queue, where `step` takes it. -/
def State.withFetchWord (s : State) (nbits w : Nat) : State :=
  s.setInputs (tableCommand s.cfg nbits w :: s.inputs)

end Sys2Proof.Machine
end

