-- ==== Sys2Proof/Safety.lean ====
section
/-!
DEFINITION. What counts as a good state and a good run, in the words claims use: the invariants of R46, growth of the
histories, good runs (R339), and the settle hazard over the event history (R366).
-/

namespace Sys2Proof.Machine

/-- When an event begins (R30). -/
def Event.begins : Event → Nat
  | .busW t0 _ _ _ _ => t0
  | .busR t0 _ _ _ _ _ _ => t0
  | .sleep t0 _ _ => t0
  | .tx t _ => t

/-- When an event ends (R30). -/
def Event.ends : Event → Nat
  | .busW _ t1 _ _ _ => t1
  | .busR _ t1 _ _ _ _ _ => t1
  | .sleep _ t1 _ => t1
  | .tx t _ => t

/-- No two events overlap in time and none lies in the future: "never two in flight at once" (R27, R46, R75). -/
def LogOrdered (log : List Event) (now : Nat) : Prop :=
  log.Pairwise (fun a b => a.ends ≤ b.begins) ∧ ∀ e ∈ log, e.begins ≤ e.ends ∧ e.ends ≤ now

/-- One record per converter of the address map, in the map's order: the canonical form of the device space (R37, R61). -/
def Devices.wf (c : Cfg) (ds : List AdcDev) : Prop := ds.map AdcDev.addr = c.adcAddr

/-- A conversion in flight has begun, has not ended, and ends within the settle delay of its rate (R81). -/
def Conversion.inWindow (c : Cfg) (now : Nat) (k : Conversion) : Prop :=
  k.tStart ≤ now ∧ now < k.tDone ∧ ∀ r, k.rate = some r → k.tDone ≤ k.tStart + settleUs c r

/-- The invariant of the machine (R46): an idle block has a free bus, the devices are those of the map, every pending
conversion is in its window, the history is in order, and there is one offset place per calibrated sensor. -/
structure State.Inv (s : State) : Prop where
  idleFree    : s.seq = ⟨.idle, 0⟩ → s.bus = .free
  devices     : Devices.wf s.cfg s.adc
  conversions : ∀ d ∈ s.adc, ∀ k, d.pending = some k → k.inWindow s.cfg s.now
  ordered     : LogOrdered s.log s.now
  offsets     : s.host.offsets.length = s.cfg.calibrations.length

/-- "`S.now` never decreases; `S.tx` and `S.log` only grow" (R46); marks are never cleared (R339); the configuration is
immutable (R363). -/
structure Grows (s t : State) : Prop where
  now    : s.now ≤ t.now
  tx     : s.tx <+: t.tx
  log    : s.log <+: t.log
  faults : s.faults <+: t.faults
  cfg    : t.cfg = s.cfg

/-- The block takes a command: its configuration is in its domain (U22) and it is idle (R374). -/
structure State.Ready (s : State) : Prop where
  cfg  : s.cfg.wf = true
  idle : s.isIdle = true

/-- The answer the next transaction to `a` gets (R66). -/
def State.answerTo (s : State) (a : Addr) : Ack := answerAt s.cfg a s.nextAnswer.ack

/-- A good run so far: no model fault is recorded (R339). -/
def State.good (s : State) : Prop := s.faults = []

/-- What the bus primitives and a channel read leave alone: the gate, the stored code, the error code, the serial stream,
the host's side, the configuration, the response and the host's queue. -/
structure BusFrame (s t : State) : Prop where
  enabled : t.enabled = s.enabled
  dacCode : t.dacCode = s.dacCode
  err     : t.err = s.err
  tx      : t.tx = s.tx
  host    : t.host = s.host
  cfg     : t.cfg = s.cfg
  resp    : t.resp = s.resp
  inputs  : t.inputs = s.inputs

/-- What every operation that ends leaves alone: the host's side, the configuration and the host's queue. -/
structure HostFrame (s t : State) : Prop where
  host   : t.host = s.host
  cfg    : t.cfg = s.cfg
  inputs : t.inputs = s.inputs

/-- The converter at `b` is touched by nothing but time: what it holds at the later time (R81). -/
def OnlyAges (s t : State) (b : Addr) : Prop := t.converter b = (s.converter b).map fun d => d.upTo t.now

/-- The block is at rest after an operation: sequencer idle, bus free (R26, R27, R46). -/
structure AtRest (t : State) : Prop where
  seq : t.seq = ⟨.idle, 0⟩
  bus : t.bus = .free

/-- The converter at `a` answers in a good run and has nothing in flight when a write that starts now ends (R83, R85). -/
def FreshlyReadable (s : State) (a : Addr) (d : AdcDev) : Prop :=
  s.converter a = some d ∧ s.marked a = false ∧ (d.upTo (s.now + Config.tXfer 3)).pending = none

/-- The event ends a conversion-triggering config write to the converter at `a`, at a rate the configuration knows, that the
write's operation took for done (acknowledged, or silent without a timeout): its end plus that rate's settle delay (R147,
R366). -/
def Event.readableFrom (c : Cfg) (a : Addr) : Event → Option Nat
  | .busW _ t1 b [r, b0, b1] out =>
    if a ∈ c.adcAddr ∧ b = a ∧ r = c.regConfig ∧ startBit c (u16 b0 b1) ∧
        (out = .ack ∨ (out = .silent ∧ c.ackTimeoutUs = none)) then
      (wordRate c (u16 b0 b1)).map fun k => t1 + settleUs c k
    else none
  | _ => none

/-- When the event is a read of the conversion register of `a`, whatever it was answered: its start (R366). -/
def Event.readsAt (c : Cfg) (a : Addr) : Event → Option Nat
  | .busR t0 _ b r _ _ _ => if b = a ∧ r = c.regConversion then some t0 else none
  | _ => none

/-- The settle hazard H1 over the history (R366): from a conversion-triggering write to the NEXT read of that converter's
conversion register at least the settle delay passes. -/
def SettleKept (c : Cfg) (log : List Event) : Prop :=
  ∀ pre w mid b post, log = pre ++ w :: (mid ++ b :: post) →
    ∀ a t u, w.readableFrom c a = some t → b.readsAt c a = some u → (∀ e ∈ mid, e.readsAt c a = none) → t ≤ u

/-- Every conversion-triggering write of the history has been read: no settle duty is open. -/
def NoOpenTrigger (c : Cfg) (log : List Event) : Prop :=
  ∀ pre w post, log = pre ++ w :: post → ∀ a t, w.readableFrom c a = some t → ∃ e ∈ post, e.readsAt c a ≠ none

/-! ### The environment's coming answers -/

/-- The environment's answer to the `k`-th draw from now (R14), lined up in State or not. -/
def State.drawAt : State → Nat → Answer
  | s, 0 => s.nextAnswer
  | s, k + 1 => s.popAnswer.drawAt k

/-- The acknowledgment a transaction to `a` gets from the `k`-th draw from now (R66). -/
def State.ackAt (s : State) (k : Nat) (a : Addr) : Ack := answerAt s.cfg a (s.drawAt k).ack

/-- A transaction to `a` that meets the `k`-th draw from now raises nothing: acknowledged, or silent without a timeout (R66). -/
def State.passesAt (s : State) (k : Nat) (a : Addr) : Prop :=
  s.ackAt k a = .ack ∨ (s.ackAt k a = .silent ∧ s.cfg.ackTimeoutUs = none)

/-! ### A host that issues the members of a composite one by one (R126, R260) -/

/-- The voltage a response hands to the host (R121). -/
def State.volts (s : State) : Option Rat :=
  match s.resp with
  | some ⟨_, .volts v, _⟩ => some v
  | _ => none

/-- The error a response hands to the host (R13, R121). -/
def State.raised (s : State) : Option BlockError := s.resp.bind Response.raised

/-- The state with another error code and another response: what a composite reports in place of its last member. -/
def State.reporting (s : State) (e : ErrCode) (p : Option Response) : State := { s with err := e, resp := p }

/-- The RDCH of a channel (R105). -/
def rdchOf (x : ChannelConfig) : Instr := .rdch x.addr x.ch x.gain x.rate x.comparatorDisabled

/-- The host reads the channels in order, one RDCH each: the state after them, what it hands to CONVERT, and the last error a
response carried; none where an RDCH has no next state. -/
def issueReads : List ChannelConfig → State → Option Sweep
  | [], s => some ⟨s, [], none⟩
  | x :: xs, s =>
    match exec (rdchOf x) s with
    | .next t => (issueReads xs t).map fun w => ⟨w.state, ⟨t.volts, x.gain⟩ :: w.inputs, laterError t.raised w.last⟩
    | .fault _ => none
    | .refused _ => none

/-- The host takes `n` calibration samples, each one RDCH followed by the inter-sample wait, until one fails (R286): the state
after them, and the voltages the responses carried if none failed. -/
def issueSamples (k : Calibration) : Nat → State → Option (State × Option (List Rat))
  | 0, s => some (s, some [])
  | n + 1, s =>
    match exec (rdchOf k.channel) s with
    | .next t =>
      match t.volts with
      | some v => (issueSamples k n (waitFor k.gapUs t)).map fun r => (r.1, r.2.map fun vs => v :: vs)
      | none => some (t, none)
    | .fault _ => none
    | .refused _ => none

/-! ### What a field reads (R263, R292) -/

/-- The places of SCHEDULE a source names. -/
def placesOf : FieldSource → List Nat
  | .const _ => []
  | .volts i => [i]
  | .thermistor i _ => [i]
  | .hall i _ _ _ => [i]
  | .shunt i _ _ => [i]
  | .percent i ref => [i, ref]
  | .other _ inputs _ => inputs

/-- The calibration offsets a source names. -/
def offsetsOf : FieldSource → List Nat
  | .const _ => []
  | .volts _ => []
  | .thermistor _ _ => []
  | .hall _ cal _ _ => [cal]
  | .shunt _ cal _ => [cal]
  | .percent _ _ => []
  | .other _ _ cals => cals

end Sys2Proof.Machine
end

