-- ==== Sys2Proof/Certificates/Slice0/Obligations.lean ====
section
/-!
DEFINITION. The statements for the provers. Each docstring names the rules of spec/ it formalises. A statement that reads the
environment's answer (State.answerTo, State.nextAnswer) holds for every answer.
-/

open Sys2Proof Sys2Proof.Machine

/-! ### Encoding -/

/-- Tier 3. Decoding the encoding of a well-formed operation gives it back, every operand at every value (R102 to R108, R127). -/
def Obligations.DecodeOfEncodeIsTheOperation : Prop :=
  ∀ i : Instr, i.wf = true → decode (encodeWord i) (encodePayload i) = .ok i

/-- Tier 2. What the decoder reads is well formed, matches its row of the opcode table and encodes back to the same word and
payload; only WRREG with LEN = 0 may come with no payload at all (R102 to R108, R122, R127). -/
def Obligations.EncodeOfDecodeIsTheCommand : Prop :=
  ∀ (cw : Word) (p : Payload) (i : Instr), decode cw p = .ok i →
    i.wf = true ∧ encodeWord i = cw ∧ cw &&& tableMask i = tableMatch i ∧
      (encodePayload i = p ∨ (p = .none ∧ ∃ a r, i = .wrreg a r []))

/-- Tier 2. OP values 0x0 and 0xC to 0xF, a non-zero bit where the layout says 0, a payload of the wrong type or length and
an RDREG with LEN = 0 are all refused, whatever the rest of the command is (R122). -/
def Obligations.ReservedCommandsAreRefused : Prop :=
  (∀ cw p, (opField cw = 0 ∨ 12 ≤ (opField cw).toNat) → decode cw p = .error .noOperation) ∧
  (∀ cw p, (opField cw = 1 ∨ opField cw = 2) → cw.extractLsb' 0 5 ≠ 0 → decode cw p = .error .reservedBits) ∧
  (∀ cw p, opField cw = 3 → cw.extractLsb' 24 4 ≠ 0 → decode cw p = .error .reservedBits) ∧
  (∀ cw p, opField cw = 4 → cw.extractLsb' 0 10 ≠ 0 → decode cw p = .error .reservedBits) ∧
  (∀ cw p, opField cw = 5 → cw.extractLsb' 16 12 ≠ 0 → decode cw p = .error .reservedBits) ∧
  (∀ cw p, opField cw = 6 → cw.extractLsb' 1 27 ≠ 0 → decode cw p = .error .reservedBits) ∧
  (∀ cw p, 7 ≤ (opField cw).toNat → (opField cw).toNat ≤ 11 → cw.extractLsb' 0 28 ≠ 0 →
    decode cw p = .error .reservedBits) ∧
  (∀ cw bs, opField cw = 1 → cw.extractLsb' 0 5 = 0 → bs.length ≠ (lenField cw).toNat →
    decode cw (.bytes bs) = .error .wrongPayload) ∧
  (∀ cw fs ps, opField cw ≠ 0 → (opField cw).toNat ≤ 7 →
    (∃ e, decode cw (.fields fs) = .error e) ∧ ∃ e, decode cw (.pairs ps) = .error e) ∧
  (∀ cw, 8 ≤ (opField cw).toNat → (opField cw).toNat ≤ 10 → ∃ e, decode cw .none = .error e) ∧
  (∀ cw bs, opField cw ≠ 1 → ∃ e, decode cw (.bytes bs) = .error e) ∧
  (∀ cw ps, (opField cw = 8 ∨ opField cw = 9) → ∃ e, decode cw (.pairs ps) = .error e) ∧
  (∀ cw fs, opField cw = 10 → ∃ e, decode cw (.fields fs) = .error e) ∧
  (∀ cw fs ps, opField cw = 11 →
    (∃ e, decode cw (.fields fs) = .error e) ∧ ∃ e, decode cw (.pairs ps) = .error e) ∧
  (∀ cw, opField cw = 1 → lenField cw ≠ 0 → ∃ e, decode cw .none = .error e) ∧
  (∀ cw, opField cw = 2 → lenField cw = 0 → cw.extractLsb' 0 5 = 0 → decode cw .none = .error .zeroLength)

/-- Tier 1. Command words of spec/95_test_vectors.md read as the operations they are written for (V1, V3, V6, V11, V20, V23,
V26, V27, V30, V34, V36). -/
def Obligations.SpecCommandWordsDecode : Prop :=
  decode 0x19002040 (.bytes [0xC3, 0x83]) = .ok (.wrreg 0x48 0x01 [0xC3, 0x83]) ∧
  decode 0x29000040 .none = .ok (.rdreg 0x48 0x00 2) ∧
  decode 0x3000226D .none = .ok (.settle 8813) ∧
  decode 0x49006400 .none = .ok (.rdch 0x48 0 1 4 true) ∧
  decode 0x50000ABC .none = .ok (.setcode 2748) ∧
  decode 0x5000FFF6 .none = .ok (.setcode (-10)) ∧
  decode 0x60000001 .none = .ok (.seten true) ∧
  decode 0x70000000 .none = .ok .ctrl ∧
  decode 0x80000000 (.fields []) = .ok (.fmtrec []) ∧
  decode 0x90000000 (.fields []) = .ok (.txrec []) ∧
  decode 0xA0000000 (.pairs [([0x56], .outOfRange)]) = .ok (.diagln [([0x56], .outOfRange)]) ∧
  decode 0xB0000000 .none = .ok .cycle

/-! ### The step, reset and invariants -/

/-- Tier 1. A command at the head of the host's queue that decodes to an operation: the step is that operation's exec, the
command taken off the queue (R102). Every decoded operation is well formed. -/
def Obligations.StepRunsTheDecodedOperation : Prop :=
  ∀ (s : State) (cw : Word) (p : Payload) (i : Instr) (rest : List HostInput),
    s.inputs = .command cw p :: rest → decode cw p = .ok i → i.wf = true ∧ step s = exec i (s.setInputs rest)

/-- Tier 1. A command the decoder refuses is refused by the step, by name (R122). -/
def Obligations.StepRefusesReservedCommands : Prop :=
  ∀ (s : State) (cw : Word) (p : Payload) (e : Reject) (rest : List HostInput),
    s.inputs = .command cw p :: rest → decode cw p = .error e → step s = .refused (.encoding e)

/-- Tier 1. The reset values the spec gives, under every configuration: gate false, code 0, error 0, sequencer (IDLE, 0), bus
FREE, time 0, both histories empty, nothing pending in any converter of the map, host mode Idle, no offset computed (R45). The
device registers are not named: they are unspecified. -/
def Obligations.ResetValues : Prop :=
  ∀ c : Cfg,
    let s := State.resetWith c
    s.enabled = false ∧ s.dacCode = 0 ∧ s.err = .none ∧ s.seq = ⟨.idle, 0⟩ ∧ s.bus = .free ∧ s.now = 0 ∧ s.tx = [] ∧
      s.log = [] ∧ (∀ d ∈ s.adc, d.pending = none) ∧ s.adc.map AdcDev.addr = c.adcAddr ∧ s.host.mode = .idle ∧
      ∀ o ∈ s.host.offsets, o = none

/-- Tier 1. The machine right after reset meets the invariant, under every configuration (R45, R46). -/
def Obligations.ResetMeetsTheInvariant : Prop := ∀ c : Cfg, (State.resetWith c).Inv

/-- Tier 3. Every step, of a command or of any other input of the host, keeps the invariant: bus free when idle, the devices
of the map, every pending conversion in its window, no two events of the history overlapping in time (R46, R81). -/
def Obligations.StepKeepsTheInvariant : Prop :=
  ∀ s t : State, s.Inv → step s = .next t → t.Inv

/-- Tier 3. Every step, from any state, only grows time and the histories, never clears a mark and never changes the
configuration (R46, R339, R363). -/
def Obligations.StepOnlyGrows : Prop := ∀ s t : State, step s = .next t → Grows s t

/-- Tier 2. Every operation that answers a next state ends with the sequencer idle and the bus free, with a response whose OP
nibble is its operation code and whose error nibble is the new status code, and leaves the host's side, the configuration
and the queue alone (R26, R27, R121). -/
def Obligations.OperationsEndIdleWithAResponse : Prop :=
  ∀ (i : Instr) (s t : State), exec i s = .next t →
    AtRest t ∧ HostFrame s t ∧
      ∃ p, t.resp = some p ∧ p.rw.extractLsb' 28 4 = opField (encodeWord i) ∧ p.rw.extractLsb' 24 4 = t.err.number

/-- Tier 1. A block that is not idle, or whose bus is held, takes no step, whatever operation is presented: the command waits
(R374); the model writes this as the stuck state blockBusy, also for operations that use no bus (log 19). -/
def Obligations.BusyBlockTakesNoStep : Prop :=
  ∀ (i : Instr) (s : State), s.cfg.wf = true → s.isIdle = false → exec i s = .fault .blockBusy

/-- Tier 2. A configuration outside its domain is refused, whatever operation is presented, and the grounds are U22's and no
others: `V_FULLSCALE <= 0`, a sentinel text that is empty or holds a comma or a newline, a converter address twice or equal to
the DAC's, an illegal channel in the schedule (U22, R61, R202, R236, R261; log 15). -/
def Obligations.ConfigurationsOutsideTheDomainAreRefused : Prop :=
  (∀ (i : Instr) (s : State), s.cfg.wf = false → exec i s = .refused .configuration) ∧
  ∀ c : Cfg,
    c.wf = true ↔ (0 < c.vFullscale ∧ c.sentinelText ≠ [] ∧ 0x2C ∉ c.sentinelText ∧ 0x0A ∉ c.sentinelText ∧
      c.adcAddr.Nodup ∧ c.dacAddr ∉ c.adcAddr ∧ ∀ x ∈ c.schedule, x.ch.toNat < 4)

/-! ### Bus transactions (R140 to R149) -/

/-- Tier 2. WRREG acknowledged: one BusW event, error 0, response 0x10000000, and time moves by the transfer only; a DAC takes
the code of the frame's two data bytes (R64, R84, R141). -/
def Obligations.WrregAcknowledgedCompletes : Prop :=
  ∀ (a : Addr) (r : Byte) (bs : List Byte) (s : State),
    s.Ready → wrregStop s.cfg a r bs = none → s.answerTo a = .ack →
    ∃ t, exec (.wrreg a r bs) s = .next t ∧ AtRest t ∧ t.err = .none ∧
      t.resp = some ⟨0x10000000, .empty, none⟩ ∧ t.now = s.now + Config.tXfer (1 + bs.length) ∧
      t.log = s.log ++ [.busW s.now t.now a (r :: bs) .ack] ∧
      (a = s.cfg.dacAddr → ∀ msb lsb, bs = [msb, lsb] → t.dac = dacCodeOf msb lsb)

/-- Tier 2. WRREG not acknowledged raises BusError(a): code 2, response 0x12000000, the failed transaction in the history, bus
free and sequencer idle. A silent device raises nothing without a timeout and BusTimeout(a), after at least the timeout, with
one (R66, R322, R324, R326); that the event of the timed-out write ends before the wait is read from the order of R64's lines
(log 13). -/
def Obligations.WrregFailuresAreReported : Prop :=
  ∀ (a : Addr) (r : Byte) (bs : List Byte) (s : State), s.Ready → wrregStop s.cfg a r bs = none →
    (s.answerTo a = .nack →
      ∃ t, exec (.wrreg a r bs) s = .next t ∧ AtRest t ∧ t.err = .busError ∧
        t.resp = some ⟨0x12000000, .empty, some (.busError a)⟩ ∧
        t.log = s.log ++ [.busW s.now t.now a (r :: bs) .nack]) ∧
    (s.answerTo a = .silent → s.cfg.ackTimeoutUs = none →
      ∃ t, exec (.wrreg a r bs) s = .next t ∧ AtRest t ∧ t.err = .none ∧
        t.resp = some ⟨0x10000000, .empty, none⟩ ∧ t.log = s.log ++ [.busW s.now t.now a (r :: bs) .silent]) ∧
    ∀ d, s.answerTo a = .silent → s.cfg.ackTimeoutUs = some d →
      ∃ t t1, exec (.wrreg a r bs) s = .next t ∧ AtRest t ∧ t.err = .busTimeout ∧
        t.resp = some ⟨0x13000000, .empty, some (.busTimeout a)⟩ ∧ t1 + d ≤ t.now ∧
        t.log = s.log ++ [.busW s.now t1 a (r :: bs) .silent]

/-- Tier 2. A config write with the start bit set, taken by a converter with nothing pending, stores the word and starts the
conversion the word selects at the end of the write; it will end after that and within the settle delay of its rate
(R80, R81). That a word with a mux, gain or rate code outside the described ones starts one too is the model's choice
(log 28). -/
def Obligations.ConfigWriteStartsAConversion : Prop :=
  ∀ (a : Addr) (b0 b1 : Byte) (s : State) (d : AdcDev),
    s.Ready → a ∈ s.cfg.adcAddr → s.answerTo a = .ack → FreshlyReadable s a d → startBit s.cfg (u16 b0 b1) = true →
    ∃ t e k, exec (.wrreg a s.cfg.regConfig [b0, b1]) s = .next t ∧ t.faults = s.faults ∧
      t.converter a = some e ∧ e.cfg = u16 b0 b1 ∧ e.pending = some k ∧ k.tStart = t.now ∧
      k.ch = wordChannel s.cfg (u16 b0 b1) ∧ k.gain = wordGain s.cfg (u16 b0 b1) ∧ k.rate = wordRate s.cfg (u16 b0 b1) ∧
      t.now < k.tDone ∧ ∀ r, k.rate = some r → k.tDone ≤ t.now + settleUs s.cfg r

/-- Tier 2. An acknowledged write that starts nothing, a conversion in flight going on (R80, R141). The register byte alone
sets the converter's pointer and has no other effect (log 11), to either of the two registers. A config write with the start
bit clear stores the word (general knowledge, marked so in the spec) and sets the pointer (log 31). A two-byte write to the
conversion register, which is read-only, sets the pointer only (R41; log 9). -/
def Obligations.OtherConverterWritesStartNothing : Prop :=
  ∀ (a : Addr) (r b0 b1 : Byte) (s : State) (d : AdcDev),
    s.Ready → a ∈ s.cfg.adcAddr → s.answerTo a = .ack → s.marked a = false → s.converter a = some d →
    ((r = s.cfg.regConfig ∨ r = s.cfg.regConversion) →
      ∃ t, exec (.wrreg a r []) s = .next t ∧ t.err = .none ∧ t.faults = s.faults ∧
        t.converter a = some { d.upTo t.now with ptr := r }) ∧
    (startBit s.cfg (u16 b0 b1) = false →
      ∃ t, exec (.wrreg a s.cfg.regConfig [b0, b1]) s = .next t ∧ t.err = .none ∧ t.faults = s.faults ∧
        t.converter a = some { d.upTo t.now with ptr := s.cfg.regConfig, cfg := u16 b0 b1 }) ∧
    (s.cfg.regConversion ≠ s.cfg.regConfig →
      ∃ t, exec (.wrreg a s.cfg.regConversion [b0, b1]) s = .next t ∧ t.err = .none ∧ t.faults = s.faults ∧
        t.converter a = some { d.upTo t.now with ptr := s.cfg.regConversion })

/-- Tier 2. A config write with the start bit set, taken by a converter whose conversion is pending at the end of the write,
records the model fault ConversionOverlap(a); the operation itself ends with error 0 (R83, R339). -/
def Obligations.OverlappingConversionIsMarked : Prop :=
  ∀ (a : Addr) (b0 b1 : Byte) (s : State) (d : AdcDev),
    s.Ready → a ∈ s.cfg.adcAddr → s.answerTo a = .ack → s.converter a = some d →
    (d.upTo (s.now + Config.tXfer 3)).pending ≠ none → startBit s.cfg (u16 b0 b1) = true →
    ∃ t, exec (.wrreg a s.cfg.regConfig [b0, b1]) s = .next t ∧ t.err = .none ∧ Mark.conversionOverlap a ∈ t.faults

/-- Tier 2. WRREG leaves the gate, the stored code, the serial stream and the host alone; every converter but the one
addressed only ages, no mark but the overlap of the addressed converter is added, and the DAC changes only if it is the one
addressed, to the code of the two data bytes (R83, R84, R141). -/
def Obligations.WrregFrame : Prop :=
  ∀ (a : Addr) (r : Byte) (bs : List Byte) (s t : State), exec (.wrreg a r bs) s = .next t →
    t.enabled = s.enabled ∧ t.dacCode = s.dacCode ∧ t.tx = s.tx ∧ HostFrame s t ∧
      (t.faults = s.faults ∨ t.faults = s.faults ++ [.conversionOverlap a]) ∧
      (∀ b, b ≠ a → OnlyAges s t b) ∧ (a ≠ s.cfg.dacAddr → t.dac = s.dac) ∧
      (a = s.cfg.dacAddr →
        (∀ b, OnlyAges s t b) ∧ t.faults = s.faults ∧
          ∃ msb lsb, bs = [msb, lsb] ∧ (t.dac = s.dac ∨ t.dac = dacCodeOf msb lsb))

/-- Tier 2. RDREG of the conversion register of a converter with nothing pending returns its two bytes, most significant
first, with error 0 and response 0x20000000 (R70, R82, R142). -/
def Obligations.RdregReturnsTheConversion : Prop :=
  ∀ (a : Addr) (s : State) (d : AdcDev),
    s.Ready → a ∈ s.cfg.adcAddr → s.answerTo a = .ack → s.marked a = false → s.converter a = some d →
    (d.upTo s.now).pending = none →
    ∃ t, exec (.rdreg a s.cfg.regConversion 2) s = .next t ∧ AtRest t ∧ t.err = .none ∧
      t.resp = some ⟨0x20000000, .bytes (halfBytes (d.upTo s.now).conv), none⟩ ∧
      t.now = s.now + Config.tXfer 4 ∧
      t.log = s.log ++ [.busR s.now t.now a s.cfg.regConversion 2 (halfBytes (d.upTo s.now).conv) .ack]

/-- Tier 2. RDREG of the conversion register while a conversion is pending raises nothing and returns the old result or
zero: stale or zero data (R82, R142). -/
def Obligations.EarlyReadIsStaleOrZero : Prop :=
  ∀ (a : Addr) (s : State) (d : AdcDev) (k : Conversion),
    s.Ready → a ∈ s.cfg.adcAddr → s.answerTo a = .ack → s.marked a = false → s.converter a = some d →
    d.pending = some k → s.now < k.tDone →
    ∃ t bs, exec (.rdreg a s.cfg.regConversion 2) s = .next t ∧ t.err = .none ∧
      t.resp = some ⟨0x20000000, .bytes bs, none⟩ ∧ (bs = halfBytes d.conv ∨ bs = [0, 0])

/-- Tier 2. RDREG completes with error 0, as many bytes as asked and one BusR where it is acknowledged, of either register of a
converter, marked or not; so does one, of any length the word allows, that meets silence without a timeout; it returns no bytes
but a code on NACK and on a timeout (R65, R66, R142). That the bytes of the config register are open is the model's choice
(log 10); that a timed-out read leaves an event with no bytes, which ends with the wait, is read from R146 (log 13). -/
def Obligations.RdregCompletesByItsAnswer : Prop :=
  ∀ (a : Addr) (r : Byte) (len : BitVec 8) (s : State), s.Ready → rdregStop s.cfg a r len = none →
    (s.answerTo a = .ack →
      ∃ t bs, exec (.rdreg a r len) s = .next t ∧ AtRest t ∧ t.err = .none ∧ bs.length = len.toNat ∧
        t.resp = some ⟨0x20000000, .bytes bs, none⟩ ∧ t.now = s.now + Config.tXfer (2 + len.toNat) ∧
        t.log = s.log ++ [.busR s.now t.now a r len.toNat bs .ack]) ∧
    (s.answerTo a = .silent → s.cfg.ackTimeoutUs = none →
      ∃ t bs, exec (.rdreg a r len) s = .next t ∧ AtRest t ∧ t.err = .none ∧ bs.length = len.toNat ∧
        t.resp = some ⟨0x20000000, .bytes bs, none⟩ ∧
        t.log = s.log ++ [.busR s.now t.now a r len.toNat bs .silent]) ∧
    (s.answerTo a = .nack →
      ∃ t, exec (.rdreg a r len) s = .next t ∧ AtRest t ∧ t.err = .busError ∧
        t.resp = some ⟨0x22000000, .empty, some (.busError a)⟩ ∧
        t.log = s.log ++ [.busR s.now t.now a r len.toNat [] .nack]) ∧
    ∀ d, s.answerTo a = .silent → s.cfg.ackTimeoutUs = some d →
      ∃ t, exec (.rdreg a r len) s = .next t ∧ AtRest t ∧ t.err = .busTimeout ∧ s.now + d ≤ t.now ∧
        t.resp = some ⟨0x23000000, .empty, some (.busTimeout a)⟩ ∧
        t.log = s.log ++ [.busR s.now t.now a r len.toNat [] .silent]

/-- Tier 2. RDREG leaves the gate, the stored code, the serial stream, the DAC, the marks and the host alone; every converter
only ages, but for its register pointer (R73, R142). -/
def Obligations.RdregFrame : Prop :=
  ∀ (a : Addr) (r : Byte) (len : BitVec 8) (s t : State), exec (.rdreg a r len) s = .next t →
    t.enabled = s.enabled ∧ t.dacCode = s.dacCode ∧ t.tx = s.tx ∧ t.dac = s.dac ∧ t.faults = s.faults ∧ HostFrame s t ∧
      (∀ b, b ≠ a → OnlyAges s t b) ∧
      ∀ d, s.converter a = some d → ∃ p, t.converter a = some { d.upTo t.now with ptr := p }

/-- Tier 1. SETTLE: time grows by at least the request, one Sleep event, error 0, response 0x30000000; all else is left, and
the converters only age (R68, R143). -/
def Obligations.SettleSleepsAtLeast : Prop :=
  ∀ (dur : BitVec 24) (s : State), s.Ready →
    ∃ t, exec (.settle dur) s = .next t ∧ AtRest t ∧ t.err = .none ∧ t.resp = some ⟨0x30000000, .empty, none⟩ ∧
      s.now + dur.toNat ≤ t.now ∧ t.log = s.log ++ [.sleep s.now t.now dur.toNat] ∧ t.enabled = s.enabled ∧
      t.dacCode = s.dacCode ∧ t.tx = s.tx ∧ t.dac = s.dac ∧ t.faults = s.faults ∧ HostFrame s t ∧ ∀ b, OnlyAges s t b

/-- Tier 2. A raw access of an undescribed shape to a device of the map is refused by name: a converter register other than
the two, another length than 2 (but for the bare pointer write), a DAC write that is not `0x40` with two bytes, and any DAC
read. RDREG with LEN = 0 is refused (R62, R63, R72, R122). -/
def Obligations.UndescribedAccessesAreRefused : Prop :=
  ∀ (a : Addr) (r : Byte) (bs : List Byte) (len : BitVec 8) (s : State), s.Ready → bs.length ≤ 255 →
    (a ∈ s.cfg.adcAddr → ((r ≠ s.cfg.regConfig ∧ r ≠ s.cfg.regConversion) ∨ (bs.length ≠ 2 ∧ bs.length ≠ 0)) →
      exec (.wrreg a r bs) s = .refused .converterAccess) ∧
    (a = s.cfg.dacAddr → (r ≠ dacCmd ∨ bs.length ≠ 2) → exec (.wrreg a r bs) s = .refused .dacAccess) ∧
    (a ∈ s.cfg.adcAddr → len ≠ 0 → ((r ≠ s.cfg.regConfig ∧ r ≠ s.cfg.regConversion) ∨ len ≠ 2) →
      exec (.rdreg a r len) s = .refused .converterAccess) ∧
    (a = s.cfg.dacAddr → len ≠ 0 → exec (.rdreg a r len) s = .refused .dacAccess) ∧
    exec (.rdreg a r 0) s = .refused (.encoding .zeroLength)

/-- Tier 1. An address outside the address map never answers ACK (R66). -/
def Obligations.AbsentDeviceNeverAcknowledges : Prop :=
  ∀ (s : State) (a : Addr), a ∉ s.cfg.adcAddr → a ≠ s.cfg.dacAddr → s.answerTo a ≠ .ack

/-! ### The ADC driver (R170 to R181) -/

/-- Tier 1. RDCH with a channel outside 0..3 raises InvalidChannel before any bus access: code 1, response 0x41000000, and
nothing else in the machine changes; no other check comes first (R177, R321, R328). That no time passes is the model's
choice (log 34). -/
def Obligations.RdchBadChannelRaisesFirst : Prop :=
  ∀ (a : Addr) (ch : BitVec 4) (g dr : BitVec 3) (cd : Bool) (s : State), s.Ready → 4 ≤ ch.toNat →
    exec (.rdch a ch g dr cd) s =
      .next { s with err := .invalidChannel, resp := some ⟨0x41000000, .empty, some (.invalidChannel ch)⟩ }

/-- Tier 1. RDCH on a legal channel with a gain or rate outside its set, or else with the comparator enabled, is refused
(R180, R181). -/
def Obligations.RdchRefusals : Prop :=
  ∀ (a : Addr) (ch : BitVec 4) (g dr : BitVec 3) (cd : Bool) (s : State), s.Ready → ch.toNat < 4 →
    ((gainRow s.cfg g = none ∨ rateRow s.cfg dr = none) → exec (.rdch a ch g dr cd) s = .refused .gainOrRate) ∧
    (gainRow s.cfg g ≠ none → rateRow s.cfg dr ≠ none → exec (.rdch a ch g dr false) s = .refused .comparator)

/-- Tier 2. A good channel read returns the conversion it started: both transactions acknowledged, the converter unmarked and
with nothing in flight, the configuration's words readable. The raw value is that of the analogue sample drawn with the write
(log 8: the formula is general knowledge, marked so in the spec), the voltage is raw × LSB, the response carries raw and gain,
and the history gains BusW, Sleep of at least the settle delay, BusR (R85, R171, R175). -/
def Obligations.RdchReturnsTheConversionItStarted : Prop :=
  ∀ (x : ChannelConfig) (s : State) (d : AdcDev),
    s.Ready → s.cfg.readable = true → legalConfig s.cfg x = true → x.addr ∈ s.cfg.adcAddr → FreshlyReadable s x.addr d →
    s.ackAt 0 x.addr = .ack → s.ackAt 2 x.addr = .ack →
    ∃ t t1 t2 raw, exec (rdchOf x) s = .next t ∧ AtRest t ∧ t.err = .none ∧
      raw = encodeVolts s.cfg (s.drawAt 0).sample x.gain ∧
      t.resp = some ⟨responseWord .rdch .none (readingSmall x.gain raw), .volts (toVolts s.cfg raw x.gain), none⟩ ∧
      t.log = s.log ++
        [.busW s.now t1 x.addr (s.cfg.regConfig :: halfBytes (buildConfig s.cfg x)) .ack,
          .sleep t1 t2 (settleUs s.cfg x.rate),
          .busR t2 t.now x.addr s.cfg.regConversion 2 (halfBytes raw) .ack] ∧
      t1 + settleUs s.cfg x.rate ≤ t2 ∧ t.faults = s.faults

/-- Tier 2. RDCH whose config write raises ends before the sleep, with one BusW and no Sleep and no BusR: not acknowledged,
code 2, response 0x42000000; silent with a timeout, code 3, response 0x43000000, after at least the timeout (R179, R324, R326;
log 13: the event of the timed-out write ends before the wait). -/
def Obligations.RdchEndsAtAFailedWrite : Prop :=
  ∀ (x : ChannelConfig) (s : State), s.Ready → legalConfig s.cfg x = true → x.addr ≠ s.cfg.dacAddr →
    (s.answerTo x.addr = .nack →
      ∃ t, exec (rdchOf x) s = .next t ∧ AtRest t ∧ t.err = .busError ∧
        t.resp = some ⟨0x42000000, .empty, some (.busError x.addr)⟩ ∧
        t.log = s.log ++
          [.busW s.now t.now x.addr (s.cfg.regConfig :: halfBytes (buildConfig s.cfg x)) .nack]) ∧
    ∀ d, s.answerTo x.addr = .silent → s.cfg.ackTimeoutUs = some d →
      ∃ t t1, exec (rdchOf x) s = .next t ∧ AtRest t ∧ t.err = .busTimeout ∧ t1 + d ≤ t.now ∧
        t.resp = some ⟨0x43000000, .empty, some (.busTimeout x.addr)⟩ ∧
        t.log = s.log ++
          [.busW s.now t1 x.addr (s.cfg.regConfig :: halfBytes (buildConfig s.cfg x)) .silent]

/-- Tier 2. RDCH whose config write passed (acknowledged, or silent without a timeout) sleeps at least the settle delay and
then ends by the answer to its read, whatever the converter holds: not acknowledged, code 2, response 0x42000000, no voltage;
silent with a timeout, code 3, response 0x43000000; acknowledged, or silent without a timeout, error 0 with the raw value
of the two bytes read, which are drawn for a silent device. One BusW, one Sleep, one BusR: there is no retry (R66, R145, R171,
R179, R324; log 13). -/
def Obligations.RdchOutcomesOfTheRead : Prop :=
  ∀ (x : ChannelConfig) (s : State), s.Ready → legalConfig s.cfg x = true → x.addr ≠ s.cfg.dacAddr →
    s.passesAt 0 x.addr →
    ∃ t t1 t2 bytes, exec (rdchOf x) s = .next t ∧ AtRest t ∧ t1 + settleUs s.cfg x.rate ≤ t2 ∧
      t.log = s.log ++
        [.busW s.now t1 x.addr (s.cfg.regConfig :: halfBytes (buildConfig s.cfg x)) (s.ackAt 0 x.addr),
          .sleep t1 t2 (settleUs s.cfg x.rate),
          .busR t2 t.now x.addr s.cfg.regConversion 2 bytes (s.ackAt 2 x.addr)] ∧
      (s.ackAt 2 x.addr = .nack →
        bytes = [] ∧ t.err = .busError ∧ t.resp = some ⟨0x42000000, .empty, some (.busError x.addr)⟩) ∧
      (∀ d, s.ackAt 2 x.addr = .silent → s.cfg.ackTimeoutUs = some d →
        bytes = [] ∧ t.err = .busTimeout ∧ t2 + d ≤ t.now ∧
          t.resp = some ⟨0x43000000, .empty, some (.busTimeout x.addr)⟩) ∧
      (s.passesAt 2 x.addr →
        ∃ raw, bytes = halfBytes raw ∧ t.err = .none ∧
          t.resp = some ⟨responseWord .rdch .none (readingSmall x.gain raw), .volts (toVolts s.cfg raw x.gain), none⟩)

/-- Tier 2. RDCH mutates no persistent state of the block: gate, stored code, serial stream, DAC and host are left, no mark
but the overlap of the addressed converter is added, and every converter but that one only ages from a state of the invariant,
in which no conversion is overdue (R83, R171, R178; on a bad channel no time passes, log 34). -/
def Obligations.RdchFrame : Prop :=
  ∀ (a : Addr) (ch : BitVec 4) (g dr : BitVec 3) (cd : Bool) (s t : State), exec (.rdch a ch g dr cd) s = .next t →
    t.enabled = s.enabled ∧ t.dacCode = s.dacCode ∧ t.tx = s.tx ∧ t.dac = s.dac ∧ HostFrame s t ∧
      (t.faults = s.faults ∨ t.faults = s.faults ++ [.conversionOverlap a]) ∧
      (s.Inv → ∀ b, b ≠ a → OnlyAges s t b)

/-- Tier 3. The settle hazard H1: no operation but the raw WRREG and RDREG can break it. If in the history every
conversion-triggering write has been read and every next read of that converter came at least the settle delay of the
written rate later, both are so after any other operation that answers a next state (R147, R366). The configuration's words
are readable, so that the rate of a word is the one it was built from. -/
def Obligations.OnlyRawAccessesCanBreakTheSettleHazard : Prop :=
  ∀ (i : Instr) (s t : State), (∀ a r bs, i ≠ .wrreg a r bs) → (∀ a r len, i ≠ .rdreg a r len) →
    s.cfg.readable = true → SettleKept s.cfg s.log → NoOpenTrigger s.cfg s.log → exec i s = .next t →
    SettleKept t.cfg t.log ∧ NoOpenTrigger t.cfg t.log

/-- Tier 2. The config word the driver builds is read back by a converter as the channel, gain and rate it was built from,
with the start bit set, under every configuration whose six parts lie in disjoint bits (R109) with a start bit and distinct
patterns in each set (R80, R111 to R113). -/
def Obligations.ConfigWordReadsBack : Prop :=
  ∀ (c : Cfg) (x : ChannelConfig), c.readable = true → legalConfig c x = true →
    startBit c (buildConfig c x) = true ∧ wordChannel c (buildConfig c x) = some x.ch ∧
      wordGain c (buildConfig c x) = some x.gain ∧ wordRate c (buildConfig c x) = some x.rate

/-- Tier 2. Re-encoding the voltage of a raw sample recovers the sample, for every raw value and every gain of the set, with
either tie rule and in every numerics (R176, V19, D7; log 22 bounds the rounding of a floating-point one). -/
def Obligations.EncodeVoltsRecoversRaw : Prop :=
  ∀ (c : Cfg) (raw : Half) (g : BitVec 3), (gainRow c g).isSome = true →
    encodeVolts c (toVolts c raw g) g = raw

/-- Tier 1. A conversion word is the big-endian two's-complement number of its two bytes, and a 16-bit register travels most
significant byte first (R70, R115, R174). -/
def Obligations.ConversionWordIsBigEndianSigned : Prop :=
  (∀ b0 b1 : Byte, (decodeRaw [b0, b1]).toNat = b0.toNat * 256 + b1.toNat) ∧
  (∀ w : Half, decodeRaw (halfBytes w) = w) ∧
  ∀ w : Half, toS16 w = if 0x8000 ≤ w.toNat then (w.toNat : Int) - 65536 else (w.toNat : Int)

/-! ### The control loop (R200 to R210) -/

/-- Tier 2. MAPCODE: 0 for v <= 0, 4095 for v >= V_FULLSCALE, and monotone, in every numerics, since it is exact up to the
round (R202). -/
def Obligations.MapcodeEndsAndIsMonotone : Prop :=
  ∀ c : Cfg, c.wf = true →
    (∀ v : Rat, v ≤ 0 → mapCode c v = 0) ∧ (∀ v : Rat, c.vFullscale ≤ v → mapCode c v = 4095) ∧
      ∀ u v : Rat, u ≤ v → (mapCode c u).toNat ≤ (mapCode c v).toNat

/-- Tier 1. The DAC frame: `[code >> 4, (code & 0xF) << 4]`, which the DAC reads back as the code; of any two data bytes the
DAC takes `(msb << 4) | (lsb >> 4)`, the low four bits of lsb ignored (R84, which the spec derives from R117). -/
def Obligations.DacFrameHoldsTheCode : Prop :=
  (∀ k : BitVec 12, ∃ msb lsb : Byte, dacBytes k = [msb, lsb] ∧ msb.toNat = k.toNat / 16 ∧
    lsb.toNat = k.toNat % 16 * 16 ∧ dacCodeOf msb lsb = k) ∧
  ∀ msb lsb : Byte, (dacCodeOf msb lsb).toNat = msb.toNat * 16 + lsb.toNat / 16

/-- Tier 2. SETCODE acknowledged: the clamped code is stored, sent as the frame `0x40, dacBytes`, taken by the DAC, and
returned in RW[11:0]; it is not gated, and all else is left but time and the ageing converters. With a silent DAC and no
timeout the same happens, but the DAC may have kept its old code (R66, R84, R121, R204). -/
def Obligations.SetcodeWritesTheClampedCode : Prop :=
  ∀ (code : Half) (s : State), s.Ready → s.passesAt 0 s.cfg.dacAddr →
    ∃ t k, exec (.setcode code) s = .next t ∧ AtRest t ∧ (k : BitVec 12) = clampCode (toS16 code) ∧
      (k.toNat : Int) = clampInt (toS16 code) 0 4095 ∧ t.dacCode = k ∧ (t.dac = k ∨ t.dac = s.dac) ∧
      (s.ackAt 0 s.cfg.dacAddr = .ack → t.dac = k) ∧ t.err = .none ∧
      t.resp = some ⟨responseWord .setcode .none (codeSmall k), .empty, none⟩ ∧
      t.log = s.log ++ [.busW s.now t.now s.cfg.dacAddr (0x40 :: dacBytes k) (s.ackAt 0 s.cfg.dacAddr)] ∧
      t.enabled = s.enabled ∧ t.tx = s.tx ∧ t.faults = s.faults ∧ HostFrame s t ∧ ∀ b, OnlyAges s t b

/-- Tier 2. SETCODE whose DAC write raises: the DAC keeps its old code and the stored code is the old one or the new one.
Not acknowledged, BusError and response 0x52000000; silent with a timeout, BusTimeout and response 0x53000000, after at least
the timeout. The failed write stands in the history with its outcome; the rest is left (R146, R204, R324, R326; log 13: the
event of the timed-out write ends before the wait). -/
def Obligations.SetcodeFailedWriteKeepsTheDac : Prop :=
  ∀ (code : Half) (s : State) (d : Nat), s.Ready →
    (s.answerTo s.cfg.dacAddr = .nack ∨ (s.answerTo s.cfg.dacAddr = .silent ∧ s.cfg.ackTimeoutUs = some d)) →
    ∃ t t1, exec (.setcode code) s = .next t ∧ AtRest t ∧ t.dac = s.dac ∧
      (t.dacCode = s.dacCode ∨ t.dacCode = clampCode (toS16 code)) ∧
      t.log = s.log ++ [.busW s.now t1 s.cfg.dacAddr (0x40 :: dacBytes (clampCode (toS16 code)))
        (s.answerTo s.cfg.dacAddr)] ∧
      (s.answerTo s.cfg.dacAddr = .nack → t1 = t.now ∧ t.err = .busError ∧
        t.resp = some ⟨0x52000000, .empty, some (.busError s.cfg.dacAddr)⟩) ∧
      (s.answerTo s.cfg.dacAddr = .silent → t1 + d ≤ t.now ∧ t.err = .busTimeout ∧
        t.resp = some ⟨0x53000000, .empty, some (.busTimeout s.cfg.dacAddr)⟩) ∧
      t.enabled = s.enabled ∧ t.tx = s.tx ∧ t.faults = s.faults ∧ HostFrame s t ∧ ∀ b, OnlyAges s t b

/-- Tier 1. SETEN writes the gate, reports error 0, and leaves everything else (R205); that no time passes is the model's
choice (log 34). -/
def Obligations.SetenWritesOnlyTheGate : Prop :=
  ∀ (e : Bool) (s : State), s.Ready →
    exec (.seten e) s = .next { s with enabled := e, err := .none, resp := some ⟨0x60000000, .empty, none⟩ }

/-- Tier 2. CTRL with every transaction acknowledged, whatever answers are lined up, drives the DAC with the mapped code of
the reference voltage when the gate is open and with 0 when it is closed; the reference is read in both cases, and the history
gains BusW, Sleep, BusR, BusW in that order (R202, R206, R210; log 8: the raw value is the analogue sample's). That no time
passes between the read and the DAC write is the model's choice (log 34). -/
def Obligations.CtrlDrivesTheGatedCode : Prop :=
  ∀ (s : State) (d : AdcDev),
    s.Ready → s.cfg.readable = true → legalConfig s.cfg s.cfg.refChannel = true →
    s.cfg.refChannel.addr ∈ s.cfg.adcAddr → FreshlyReadable s s.cfg.refChannel.addr d →
    s.ackAt 0 s.cfg.refChannel.addr = .ack → s.ackAt 2 s.cfg.refChannel.addr = .ack → s.ackAt 3 s.cfg.dacAddr = .ack →
    ∃ t t1 t2 t3 raw out, exec .ctrl s = .next t ∧ AtRest t ∧
      raw = encodeVolts s.cfg (s.drawAt 0).sample s.cfg.refChannel.gain ∧
      out = (if s.enabled then mapCode s.cfg (toVolts s.cfg raw s.cfg.refChannel.gain) else 0) ∧
      t.dac = out ∧ t.dacCode = out ∧ t.err = .none ∧
      t.resp = some ⟨responseWord .ctrl .none (codeSmall out), .empty, none⟩ ∧
      t.log = s.log ++
        [.busW s.now t1 s.cfg.refChannel.addr
            (s.cfg.regConfig :: halfBytes (buildConfig s.cfg s.cfg.refChannel)) .ack,
          .sleep t1 t2 (settleUs s.cfg s.cfg.refChannel.rate),
          .busR t2 t3 s.cfg.refChannel.addr s.cfg.regConversion 2 (halfBytes raw) .ack,
          .busW t3 t.now s.cfg.dacAddr (0x40 :: dacBytes out) .ack]

/-- Tier 2. CTRL whose reference read raises ends there, whichever way the read fails: the DAC and the stored code are
unchanged, the error is the read's, the response carries its code and the history holds the read's events and no DAC write.
The ways: an illegal channel, response 0x71000000 with no event; the config write not acknowledged, 0x72000000, or timed
out, 0x73000000; the read of the conversion register not acknowledged or timed out (R206, R209, R324; log 13: the event of the
timed-out write ends before the wait). -/
def Obligations.CtrlKeepsTheDacWhenTheReferenceFails : Prop :=
  ∀ s : State, s.Ready → channelStop s.cfg s.cfg.refChannel = none →
    (∀ u e, exec (rdchOf s.cfg.refChannel) s = .next u → u.raised = some e →
      ∃ t, exec .ctrl s = .next t ∧ AtRest t ∧ t.dac = s.dac ∧ t.dacCode = s.dacCode ∧ t.err = e.code ∧
        t.resp = some ⟨responseWord .ctrl e.code 0, .empty, some e⟩ ∧ t.log = u.log ∧ t.now = u.now) ∧
    (4 ≤ s.cfg.refChannel.ch.toNat →
      ∃ t, exec .ctrl s = .next t ∧ t.err = .invalidChannel ∧ t.log = s.log ∧ t.dac = s.dac ∧ t.dacCode = s.dacCode ∧
        t.resp = some ⟨0x71000000, .empty, some (.invalidChannel s.cfg.refChannel.ch)⟩) ∧
    (s.cfg.refChannel.ch.toNat < 4 →
      (s.answerTo s.cfg.refChannel.addr = .nack →
        ∃ t, exec .ctrl s = .next t ∧ t.err = .busError ∧ t.dac = s.dac ∧ t.dacCode = s.dacCode ∧
          t.resp = some ⟨0x72000000, .empty, some (.busError s.cfg.refChannel.addr)⟩ ∧
          t.log = s.log ++
            [.busW s.now t.now s.cfg.refChannel.addr
              (s.cfg.regConfig :: halfBytes (buildConfig s.cfg s.cfg.refChannel)) .nack]) ∧
      (∀ d, s.answerTo s.cfg.refChannel.addr = .silent → s.cfg.ackTimeoutUs = some d →
        ∃ t t1, exec .ctrl s = .next t ∧ t.err = .busTimeout ∧ t.dac = s.dac ∧ t.dacCode = s.dacCode ∧ t1 + d ≤ t.now ∧
          t.resp = some ⟨0x73000000, .empty, some (.busTimeout s.cfg.refChannel.addr)⟩ ∧
          t.log = s.log ++
            [.busW s.now t1 s.cfg.refChannel.addr
              (s.cfg.regConfig :: halfBytes (buildConfig s.cfg s.cfg.refChannel)) .silent]) ∧
      (s.passesAt 0 s.cfg.refChannel.addr →
        (s.ackAt 2 s.cfg.refChannel.addr = .nack →
          ∃ t, exec .ctrl s = .next t ∧ t.dac = s.dac ∧ t.dacCode = s.dacCode ∧ t.err = .busError ∧
            t.resp = some ⟨0x72000000, .empty, some (.busError s.cfg.refChannel.addr)⟩) ∧
        (s.ackAt 2 s.cfg.refChannel.addr = .silent → s.cfg.ackTimeoutUs ≠ none →
          ∃ t, exec .ctrl s = .next t ∧ t.dac = s.dac ∧ t.dacCode = s.dacCode ∧ t.err = .busTimeout ∧
            t.resp = some ⟨0x73000000, .empty, some (.busTimeout s.cfg.refChannel.addr)⟩)))

/-- Tier 2. SETCODE and CTRL leave the gate, the serial stream and the host alone; from a state of the invariant, in which no
conversion is overdue, the converters but the reference only age, and SETCODE leaves that one to age too; no mark but the
reference's overlap is added; after them the DAC holds its old code or the stored one (R83, R204, R206; on a reference with a
bad channel no time passes, log 34). -/
def Obligations.ControlFrame : Prop :=
  ∀ (i : Instr) (s t : State), (i = .ctrl ∨ ∃ code, i = .setcode code) → exec i s = .next t →
    t.enabled = s.enabled ∧ t.tx = s.tx ∧ HostFrame s t ∧
      (s.Inv → ∀ b, b ≠ s.cfg.refChannel.addr ∨ i ≠ .ctrl → OnlyAges s t b) ∧
      (t.faults = s.faults ∨ (i = .ctrl ∧ t.faults = s.faults ++ [.conversionOverlap s.cfg.refChannel.addr])) ∧
      (t.dac = s.dac ∨ t.dac = t.dacCode)

/-- Tier 2. Who writes what: the gate only SETEN; the stored code only SETCODE, CTRL and the control step of CYCLE; the serial
stream only TXREC, DIAGLN and CYCLE; the DAC only WRREG, SETCODE, CTRL and CYCLE (R22, R23, R29, R84). -/
def Obligations.WritersOfEachPlace : Prop :=
  ∀ (i : Instr) (s t : State), exec i s = .next t →
    ((∀ e, i ≠ .seten e) → t.enabled = s.enabled) ∧
    ((∀ c, i ≠ .setcode c) → i ≠ .ctrl → (i ≠ .cycle ∨ s.cfg.ctrlInCycle = false) → t.dacCode = s.dacCode) ∧
    ((∀ fs, i ≠ .txrec fs) → (∀ ps, i ≠ .diagln ps) → i ≠ .cycle → t.tx = s.tx) ∧
    ((∀ a r bs, i ≠ .wrreg a r bs) → (∀ c, i ≠ .setcode c) → i ≠ .ctrl → i ≠ .cycle → t.dac = s.dac)

/-! ### The telemetry framer (R230 to R239) -/

/-- Tier 2. fmt3 of a number: an optional minus sign exactly for negative values, the digits of the magnitude without a
leading zero, a point, and exactly three digits, which together read back as round(|q| × 1000); out of range is the sentinel
text, one byte for each ASCII character (R231, R236; log 4: the minus sign of `-0.000` and the tie rule are general knowledge,
marked so in the spec). -/
def Obligations.FmtThreeDecimals : Prop :=
  (∀ c : Cfg, fmt3 c .outOfRange = c.sentinelText.map fun x => x.setWidth 8) ∧
  ∀ (c : Cfg) (q : Rat), ∃ ds fs : List Byte,
    fmt3 c (.num q) = (if q < 0 then [0x2D] else []) ++ ds ++ [0x2E] ++ fs ∧ fs.length = 3 ∧ ds ≠ [] ∧
      (∀ b ∈ ds ++ fs, 0x30 ≤ b.toNat ∧ b.toNat ≤ 0x39) ∧ (1 < ds.length → ds.head? ≠ some 0x30) ∧
      ((ds ++ fs).foldl (fun n b => n * 10 + ((b.toNat : Int) - 0x30)) 0) = roundQ c.roundTie (|q| * 1000)

/-- Tier 2. A telemetry line of N_FIELDS fields, at least one as R118's grammar asks, begins with the tag, ends with its one
line feed, holds N_FIELDS commas (the tag's own and N_FIELDS - 1 more), and every byte is ASCII (R118, R232, R237). -/
def Obligations.RecordLineShape : Prop :=
  ∀ (c : Cfg) (fs : List Field), c.wf = true → 0 < c.nFields → fs.length = c.nFields →
    beginsWithTag (recordLine c fs) = true ∧ (recordLine c fs).getLast? = some 0x0A ∧
      (recordLine c fs).count 0x0A = 1 ∧ (recordLine c fs).count 0x2C = c.nFields ∧
      ∀ b ∈ recordLine c fs, b.toNat < 0x80

/-- Tier 1. FMTREC returns the line and touches nothing but the error code and the response: no bus access, no serial output,
no time (R232). -/
def Obligations.FmtrecReturnsTheLine : Prop :=
  ∀ (fs : List Field) (s : State), s.Ready → fs.length = s.cfg.nFields →
    exec (.fmtrec fs) s =
      .next { s with err := .none, resp := some ⟨0x80000000, .line (recordLine s.cfg fs), none⟩ }

/-- Tier 1. TXREC appends exactly the line to the serial stream and one Tx event to the history, with error 0; the rest is
left but time and the ageing converters (R69, R233). -/
def Obligations.TxrecSendsTheLine : Prop :=
  ∀ (fs : List Field) (s : State), s.Ready → fs.length = s.cfg.nFields →
    ∃ t, exec (.txrec fs) s = .next t ∧ AtRest t ∧ t.err = .none ∧ t.resp = some ⟨0x90000000, .empty, none⟩ ∧
      t.tx = s.tx ++ recordLine s.cfg fs ∧ t.log = s.log ++ [.tx s.now (recordLine s.cfg fs)] ∧ s.now ≤ t.now ∧
      t.enabled = s.enabled ∧ t.dacCode = s.dacCode ∧ t.dac = s.dac ∧ t.faults = s.faults ∧ HostFrame s t ∧
      ∀ b, OnlyAges s t b

/-- Tier 1. FMTREC and TXREC with another number of fields than N_FIELDS are refused (R238). -/
def Obligations.WrongFieldCountIsRefused : Prop :=
  ∀ (fs : List Field) (s : State), s.Ready → fs.length ≠ s.cfg.nFields →
    exec (.fmtrec fs) s = .refused .fieldCount ∧ exec (.txrec fs) s = .refused .fieldCount

/-- Tier 2. DIAGLN with legal keys always runs where the deployment does not fix the keys: it appends its text to the serial
stream, and the text never begins with the tag of a telemetry line (R119, R234). -/
def Obligations.DiaglnSendsItsText : Prop :=
  ∀ (ps : List (Key × Field)) (s : State), s.Ready → pairsOk ps = true → diagKeysOk s.cfg ps = true →
    beginsWithTag (diagLine s.cfg ps) = false ∧
    ∃ t, exec (.diagln ps) s = .next t ∧ AtRest t ∧ t.err = .none ∧ t.resp = some ⟨0xA0000000, .empty, none⟩ ∧
      t.tx = s.tx ++ diagLine s.cfg ps ∧ t.log = s.log ++ [.tx s.now (diagLine s.cfg ps)] ∧
      t.enabled = s.enabled ∧ t.dacCode = s.dacCode ∧ t.dac = s.dac ∧ t.faults = s.faults ∧ HostFrame s t ∧
      ∀ b, OnlyAges s t b

/-! ### The polling cycle (R260 to R267) -/

/-- Tier 2. A cycle never aborts and is the issuing of its members one by one: an RDCH of each SCHEDULE entry in order, a CTRL
if the cycle has one, the TXREC of the record, which is CONVERT of the voltages those RDCHs returned (ABSENT where one raised)
with their gain codes, and a delay until the period's end. So whatever every transaction answers it ends, with one line
of N_FIELDS fields sent after every bus transaction, PERIOD_US after its start or later; its response carries the record and the
code of the last error a member raised, or 0 (R261 to R264; that no time passes between members is the model's choice, log 34). -/
def Obligations.CycleAlwaysEmitsOneRecord : Prop :=
  ∀ s : State, s.Ready → cycleStop s.cfg = none →
    ∃ w u v t fs raised code, issueReads s.cfg.schedule s = some w ∧
      (if s.cfg.ctrlInCycle then exec .ctrl w.state = .next u else u = w.state) ∧
      fs = convert s.cfg s.host.offsets w.inputs ∧ fs.length = s.cfg.nFields ∧
      raised = laterError w.last (if s.cfg.ctrlInCycle then u.raised else none) ∧
      exec (.txrec fs) u = .next v ∧ exec .cycle s = .next t ∧
      code = (raised.map BlockError.code).getD .none ∧
      t = (delay (s.now + s.cfg.periodUs - v.now) v).reporting code (some ⟨responseWord .cycle code 0, .record fs, raised⟩) ∧
      AtRest t ∧ HostFrame s t ∧ s.now + s.cfg.periodUs ≤ t.now ∧ t.tx = s.tx ++ recordLine s.cfg fs ∧
      ∃ bus, t.log = s.log ++ bus ++
          [.tx u.now (recordLine s.cfg fs), .sleep v.now t.now (s.now + s.cfg.periodUs - v.now)] ∧
        ∀ e ∈ bus, ∀ m line, e ≠ Event.tx m line

/-- Tier 2. CYCLE leaves the gate and the host alone; a converter that is neither in the schedule nor, where the cycle has a
control step, the reference only ages; the DAC holds its old code or the stored one, and without a control step both are
left (R204, R261). -/
def Obligations.CycleFrame : Prop :=
  ∀ s t : State, exec .cycle s = .next t →
    t.enabled = s.enabled ∧ HostFrame s t ∧
      (∀ b, (∀ x ∈ s.cfg.schedule, b ≠ x.addr) → (s.cfg.ctrlInCycle = true → b ≠ s.cfg.refChannel.addr) →
        OnlyAges s t b) ∧
      (t.dac = s.dac ∨ t.dac = t.dacCode) ∧ (s.cfg.ctrlInCycle = false → t.dacCode = s.dacCode ∧ t.dac = s.dac)

/-- Tier 2. A field whose input is absent, or whose calibration offset is not computed, is out of range, whatever its formula;
every other field is computed as usual: a field, and the record in its order, depend on the inputs and the offsets their
sources name and on no others (R263, R292; log 24). -/
def Obligations.AbsentInputsAreOutOfRange : Prop :=
  (∀ (c : Cfg) (ins : List Input) (offsets : List (Option Rat)) (src : FieldSource),
    (∃ i ∈ placesOf src, voltsAt ins i = none) ∨ (∃ k ∈ offsetsOf src, offsetAt offsets k = none) →
      fieldValue c ins offsets src = .outOfRange) ∧
  (∀ (c : Cfg) (ins ins' : List Input) (offsets offsets' : List (Option Rat)) (src : FieldSource),
    (∀ i ∈ placesOf src, ins[i]? = ins'[i]?) → (∀ k ∈ offsetsOf src, offsetAt offsets k = offsetAt offsets' k) →
      fieldValue c ins offsets src = fieldValue c ins' offsets' src) ∧
  ∀ (c : Cfg) (ins ins' : List Input) (offsets offsets' : List (Option Rat)),
    (convert c offsets ins).length = c.nFields ∧
    (∀ (k : Nat) (f : FieldDef), c.fields[k]? = some f → (convert c offsets ins)[k]? = some (fieldValue c ins offsets f.source)) ∧
    ((∀ f ∈ c.fields, (∀ i ∈ placesOf f.source, ins[i]? = ins'[i]?) ∧
        ∀ k ∈ offsetsOf f.source, offsetAt offsets k = offsetAt offsets' k) →
      convert c offsets ins = convert c offsets' ins')

/-! ### The host beside the block (R282 to R288, R364, R265) -/

/-- Tier 2. The thermistor is out of range exactly for v <= 0, for v >= V_supply and for R <= 0, at the boundaries and beyond
(R282). Between them, with positive constants and exact numerics, its temperature strictly rises with the voltage in
the first orientation and strictly falls in the dual one (R282's property, as C10 reads it), wherever the Beta equation gives a
positive absolute temperature at both voltages; the host's logarithm is any strictly increasing function within two
bounds of the logarithm (log 25). -/
def Obligations.ThermistorBoundaries : Prop :=
  (∀ (c : Cfg) (th : Thermistor) (v : Rat),
    Thermistor.field c th v = .outOfRange ↔ (v ≤ 0 ∨ th.vSupply ≤ v ∨ Thermistor.resistance th v ≤ 0)) ∧
  ∀ (c : Cfg) (th : Thermistor) (v w : Rat), c.numerics = .exact →
    0 < th.rFixed → 0 < th.r0 → 0 < th.t0 → 0 < th.beta → 0 < v → v < w → w < th.vSupply →
    0 < Thermistor.inverseKelvin th (Thermistor.resistance th v) →
    0 < Thermistor.inverseKelvin th (Thermistor.resistance th w) →
    ∃ p q, Thermistor.field c th v = .num p ∧ Thermistor.field c th w = .num q ∧
      match th.orientation with
      | .first => p < q
      | .dual => q < p

/-- Tier 1. The button: an accepted falling edge toggles the mode and starts the debounce hold; an edge within the hold, a
held button and a release change no mode (R287). That an edge exactly at the end of the hold is accepted is the model's
choice (log 32). -/
def Obligations.ButtonTogglesOncePerHold : Prop :=
  ∀ (h : HostSide) (c : Cfg) (now : Nat),
    (h.buttonLow = false → h.rearmAt ≤ now →
      (h.pressed c now true).mode = h.mode.toggle ∧ (h.pressed c now true).rearmAt = now + c.debounceUs) ∧
    (now < h.rearmAt → (h.pressed c now true).mode = h.mode) ∧
    (h.buttonLow = true → (h.pressed c now true).mode = h.mode) ∧ (h.pressed c now false).mode = h.mode

/-- Tier 1. A turn of the main loop in Idle, after a failed boot, or while a sensor that needs a zero has no offset, issues
nothing: no bus event, no serial byte, no change of the DAC or of the block's registers; in Logging after the boot it is CYCLE
(R265, R281, R364). -/
def Obligations.MainLoopIsGatedByTheMode : Prop :=
  ∀ (s : State) (rest : List HostInput), s.inputs = .poll :: rest →
    ((s.host.mode = .idle ∨ s.host.bootFailed = true ∨ none ∈ s.host.offsets) →
      ∃ t, step s = .next t ∧ t.log = s.log ∧ t.tx = s.tx ∧ t.dac = s.dac ∧ t.dacCode = s.dacCode ∧
        t.enabled = s.enabled ∧ t.err = s.err ∧ t.resp = s.resp) ∧
    (s.host.mode = .logging → s.host.bootFailed = false → none ∉ s.host.offsets →
      step s = exec .cycle (s.setInputs rest))

/-- Tier 2. A boot calibration takes `count` samples, each one RDCH followed by the inter-sample wait, and keeps as its
sensor's offset the mean of the voltages those RDCHs returned: of all of them by default, of some of them where the host
rejects outliers (U7, log 37). If one raises it takes no more and keeps no offset; a bus-level error
marks the boot failed, an InvalidChannel does not. After a failed boot, and for a sensor whose offset is there, it does nothing
(R286, R363, R364; the mark is the whole report, log 35; the wait leaves no Sleep, log 30). -/
def Obligations.CalibrationKeepsTheMeanOrFails : Prop :=
  ∀ (s : State) (k : Nat) (cal : Calibration) (rest : List HostInput),
    s.inputs = .calibrate k :: rest → s.cfg.calibrations[k]? = some cal →
    ((s.host.bootFailed = true ∨ offsetAt s.host.offsets k ≠ none) → step s = .next (s.setInputs rest)) ∧
    (s.Ready → channelStop s.cfg cal.channel = none → s.host.bootFailed = false → offsetAt s.host.offsets k = none →
      ∃ u samples, issueSamples cal cal.count (s.setInputs rest) = some (u, samples) ∧
        (∀ vs, samples = some vs → vs.length = cal.count ∧
          ∃ kept, kept.Sublist vs ∧ (cal.rejection = none → kept = vs) ∧
            step s = .next (u.setHost { s.host with offsets := s.host.offsets.set k (some (mean s.cfg kept)) })) ∧
        (samples = none → u.err ≠ .none ∧
          step s = .next (u.setHost { s.host with bootFailed := decide (u.err ≠ .invalidChannel) })))

/-! ### Channel reads a composite cannot make, and CTRL as its members -/

/-- Tier 2. A channel read aimed at the DAC is refused, alone, as CTRL's reference or anywhere in CYCLE's schedule (R63;
log 14); CTRL on a reference with a legal channel is refused for a gain or rate outside its set and for an enabled comparator,
and so is CYCLE on a schedule with such an entry (R180, R181). Of several entries the first without a meaning names the
refusal. A CTRL that is refused refuses the CYCLE it is part of, where the schedule has a meaning. -/
def Obligations.ChannelReadsWithoutAMeaningAreRefused : Prop :=
  ∀ s : State, s.Ready →
    (∀ x : ChannelConfig, legalConfig s.cfg x = true → x.addr = s.cfg.dacAddr →
      exec (rdchOf x) s = .refused .dacAccess ∧
      (s.cfg.refChannel = x → exec .ctrl s = .refused .dacAccess) ∧
      (∀ pre xs, s.cfg.schedule = pre ++ x :: xs → scheduleStop s.cfg pre = none → exec .cycle s = .refused .dacAccess)) ∧
    (∀ x : ChannelConfig, x.ch.toNat < 4 → (gainRow s.cfg x.gain = none ∨ rateRow s.cfg x.rate = none) →
      (s.cfg.refChannel = x → exec .ctrl s = .refused .gainOrRate) ∧
      (∀ pre xs, s.cfg.schedule = pre ++ x :: xs → scheduleStop s.cfg pre = none → exec .cycle s = .refused .gainOrRate)) ∧
    (∀ x : ChannelConfig, x.ch.toNat < 4 → gainRow s.cfg x.gain ≠ none → rateRow s.cfg x.rate ≠ none →
      x.comparatorDisabled = false →
      (s.cfg.refChannel = x → exec .ctrl s = .refused .comparator) ∧
      (∀ pre xs, s.cfg.schedule = pre ++ x :: xs → scheduleStop s.cfg pre = none → exec .cycle s = .refused .comparator)) ∧
    ∀ r, s.cfg.ctrlInCycle = true → scheduleStop s.cfg s.cfg.schedule = none →
      exec .ctrl s = .refused r → exec .cycle s = .refused r

/-- Tier 2. CTRL is the RDCH of the reference and, if that returned a voltage, the SETCODE of its mapped code through the gate,
whatever the devices answer: it leaves what those two leave, but for its own response, which carries the code written or the
error of the member that raised (R206, R209, R210; log 34). -/
def Obligations.CtrlIsReadMapGateSetcode : Prop :=
  ∀ (s u : State), exec (rdchOf s.cfg.refChannel) s = .next u →
    (∀ e, u.raised = some e →
      exec .ctrl s = .next (u.reporting e.code (some ⟨responseWord .ctrl e.code 0, .empty, some e⟩))) ∧
    ∀ v, u.volts = some v →
      ∃ out w, out = (if s.enabled then mapCode s.cfg v else 0) ∧ exec (.setcode (out.setWidth 16)) u = .next w ∧
        exec .ctrl s = .next (w.reporting w.err
          (some ⟨responseWord .ctrl w.err (if w.raised = none then codeSmall out else 0), .empty, w.raised⟩))
end

