-- ==== Sys2Proof/Laws/State.lean ====
section
/-!
SUPPORT. One lemma per field per update of State, each true by rfl: what an update writes and what it leaves.
-/

namespace Sys2Proof.Machine

variable (s : State)

@[simp] theorem State.setSeq_enabled (op : Op) (n : Nat) : (s.setSeq op n).enabled = s.enabled := rfl
@[simp] theorem State.setSeq_dacCode (op : Op) (n : Nat) : (s.setSeq op n).dacCode = s.dacCode := rfl
@[simp] theorem State.setSeq_err (op : Op) (n : Nat) : (s.setSeq op n).err = s.err := rfl
@[simp] theorem State.setSeq_seq (op : Op) (n : Nat) : (s.setSeq op n).seq = ⟨op, n⟩ := rfl
@[simp] theorem State.setSeq_bus (op : Op) (n : Nat) : (s.setSeq op n).bus = s.bus := rfl
@[simp] theorem State.setSeq_now (op : Op) (n : Nat) : (s.setSeq op n).now = s.now := rfl
@[simp] theorem State.setSeq_tx (op : Op) (n : Nat) : (s.setSeq op n).tx = s.tx := rfl
@[simp] theorem State.setSeq_log (op : Op) (n : Nat) : (s.setSeq op n).log = s.log := rfl
@[simp] theorem State.setSeq_faults (op : Op) (n : Nat) : (s.setSeq op n).faults = s.faults := rfl
@[simp] theorem State.setSeq_adc (op : Op) (n : Nat) : (s.setSeq op n).adc = s.adc := rfl
@[simp] theorem State.setSeq_dac (op : Op) (n : Nat) : (s.setSeq op n).dac = s.dac := rfl
@[simp] theorem State.setSeq_host (op : Op) (n : Nat) : (s.setSeq op n).host = s.host := rfl
@[simp] theorem State.setSeq_cfg (op : Op) (n : Nat) : (s.setSeq op n).cfg = s.cfg := rfl
@[simp] theorem State.setSeq_resp (op : Op) (n : Nat) : (s.setSeq op n).resp = s.resp := rfl
@[simp] theorem State.setSeq_inputs (op : Op) (n : Nat) : (s.setSeq op n).inputs = s.inputs := rfl
@[simp] theorem State.setSeq_answers (op : Op) (n : Nat) : (s.setSeq op n).answers = s.answers := rfl
@[simp] theorem State.setSeq_draws (op : Op) (n : Nat) : (s.setSeq op n).draws = s.draws := rfl

@[simp] theorem State.setBus_enabled (b : Bus) : (s.setBus b).enabled = s.enabled := rfl
@[simp] theorem State.setBus_dacCode (b : Bus) : (s.setBus b).dacCode = s.dacCode := rfl
@[simp] theorem State.setBus_err (b : Bus) : (s.setBus b).err = s.err := rfl
@[simp] theorem State.setBus_seq (b : Bus) : (s.setBus b).seq = s.seq := rfl
@[simp] theorem State.setBus_bus (b : Bus) : (s.setBus b).bus = b := rfl
@[simp] theorem State.setBus_now (b : Bus) : (s.setBus b).now = s.now := rfl
@[simp] theorem State.setBus_tx (b : Bus) : (s.setBus b).tx = s.tx := rfl
@[simp] theorem State.setBus_log (b : Bus) : (s.setBus b).log = s.log := rfl
@[simp] theorem State.setBus_faults (b : Bus) : (s.setBus b).faults = s.faults := rfl
@[simp] theorem State.setBus_adc (b : Bus) : (s.setBus b).adc = s.adc := rfl
@[simp] theorem State.setBus_dac (b : Bus) : (s.setBus b).dac = s.dac := rfl
@[simp] theorem State.setBus_host (b : Bus) : (s.setBus b).host = s.host := rfl
@[simp] theorem State.setBus_cfg (b : Bus) : (s.setBus b).cfg = s.cfg := rfl
@[simp] theorem State.setBus_resp (b : Bus) : (s.setBus b).resp = s.resp := rfl
@[simp] theorem State.setBus_inputs (b : Bus) : (s.setBus b).inputs = s.inputs := rfl
@[simp] theorem State.setBus_answers (b : Bus) : (s.setBus b).answers = s.answers := rfl
@[simp] theorem State.setBus_draws (b : Bus) : (s.setBus b).draws = s.draws := rfl

@[simp] theorem State.record_enabled (e : Event) : (s.record e).enabled = s.enabled := rfl
@[simp] theorem State.record_dacCode (e : Event) : (s.record e).dacCode = s.dacCode := rfl
@[simp] theorem State.record_err (e : Event) : (s.record e).err = s.err := rfl
@[simp] theorem State.record_seq (e : Event) : (s.record e).seq = s.seq := rfl
@[simp] theorem State.record_bus (e : Event) : (s.record e).bus = s.bus := rfl
@[simp] theorem State.record_now (e : Event) : (s.record e).now = s.now := rfl
@[simp] theorem State.record_tx (e : Event) : (s.record e).tx = s.tx := rfl
@[simp] theorem State.record_log (e : Event) : (s.record e).log = s.log ++ [e] := rfl
@[simp] theorem State.record_faults (e : Event) : (s.record e).faults = s.faults := rfl
@[simp] theorem State.record_adc (e : Event) : (s.record e).adc = s.adc := rfl
@[simp] theorem State.record_dac (e : Event) : (s.record e).dac = s.dac := rfl
@[simp] theorem State.record_host (e : Event) : (s.record e).host = s.host := rfl
@[simp] theorem State.record_cfg (e : Event) : (s.record e).cfg = s.cfg := rfl
@[simp] theorem State.record_resp (e : Event) : (s.record e).resp = s.resp := rfl
@[simp] theorem State.record_inputs (e : Event) : (s.record e).inputs = s.inputs := rfl
@[simp] theorem State.record_answers (e : Event) : (s.record e).answers = s.answers := rfl
@[simp] theorem State.record_draws (e : Event) : (s.record e).draws = s.draws := rfl

@[simp] theorem State.appendTx_enabled (bs : List Byte) : (s.appendTx bs).enabled = s.enabled := rfl
@[simp] theorem State.appendTx_dacCode (bs : List Byte) : (s.appendTx bs).dacCode = s.dacCode := rfl
@[simp] theorem State.appendTx_err (bs : List Byte) : (s.appendTx bs).err = s.err := rfl
@[simp] theorem State.appendTx_seq (bs : List Byte) : (s.appendTx bs).seq = s.seq := rfl
@[simp] theorem State.appendTx_bus (bs : List Byte) : (s.appendTx bs).bus = s.bus := rfl
@[simp] theorem State.appendTx_now (bs : List Byte) : (s.appendTx bs).now = s.now := rfl
@[simp] theorem State.appendTx_tx (bs : List Byte) : (s.appendTx bs).tx = s.tx ++ bs := rfl
@[simp] theorem State.appendTx_log (bs : List Byte) : (s.appendTx bs).log = s.log := rfl
@[simp] theorem State.appendTx_faults (bs : List Byte) : (s.appendTx bs).faults = s.faults := rfl
@[simp] theorem State.appendTx_adc (bs : List Byte) : (s.appendTx bs).adc = s.adc := rfl
@[simp] theorem State.appendTx_dac (bs : List Byte) : (s.appendTx bs).dac = s.dac := rfl
@[simp] theorem State.appendTx_host (bs : List Byte) : (s.appendTx bs).host = s.host := rfl
@[simp] theorem State.appendTx_cfg (bs : List Byte) : (s.appendTx bs).cfg = s.cfg := rfl
@[simp] theorem State.appendTx_resp (bs : List Byte) : (s.appendTx bs).resp = s.resp := rfl
@[simp] theorem State.appendTx_inputs (bs : List Byte) : (s.appendTx bs).inputs = s.inputs := rfl
@[simp] theorem State.appendTx_answers (bs : List Byte) : (s.appendTx bs).answers = s.answers := rfl
@[simp] theorem State.appendTx_draws (bs : List Byte) : (s.appendTx bs).draws = s.draws := rfl

@[simp] theorem State.setEnabled_enabled (e : Bool) : (s.setEnabled e).enabled = e := rfl
@[simp] theorem State.setEnabled_dacCode (e : Bool) : (s.setEnabled e).dacCode = s.dacCode := rfl
@[simp] theorem State.setEnabled_err (e : Bool) : (s.setEnabled e).err = s.err := rfl
@[simp] theorem State.setEnabled_seq (e : Bool) : (s.setEnabled e).seq = s.seq := rfl
@[simp] theorem State.setEnabled_bus (e : Bool) : (s.setEnabled e).bus = s.bus := rfl
@[simp] theorem State.setEnabled_now (e : Bool) : (s.setEnabled e).now = s.now := rfl
@[simp] theorem State.setEnabled_tx (e : Bool) : (s.setEnabled e).tx = s.tx := rfl
@[simp] theorem State.setEnabled_log (e : Bool) : (s.setEnabled e).log = s.log := rfl
@[simp] theorem State.setEnabled_faults (e : Bool) : (s.setEnabled e).faults = s.faults := rfl
@[simp] theorem State.setEnabled_adc (e : Bool) : (s.setEnabled e).adc = s.adc := rfl
@[simp] theorem State.setEnabled_dac (e : Bool) : (s.setEnabled e).dac = s.dac := rfl
@[simp] theorem State.setEnabled_host (e : Bool) : (s.setEnabled e).host = s.host := rfl
@[simp] theorem State.setEnabled_cfg (e : Bool) : (s.setEnabled e).cfg = s.cfg := rfl
@[simp] theorem State.setEnabled_resp (e : Bool) : (s.setEnabled e).resp = s.resp := rfl
@[simp] theorem State.setEnabled_inputs (e : Bool) : (s.setEnabled e).inputs = s.inputs := rfl
@[simp] theorem State.setEnabled_answers (e : Bool) : (s.setEnabled e).answers = s.answers := rfl
@[simp] theorem State.setEnabled_draws (e : Bool) : (s.setEnabled e).draws = s.draws := rfl

@[simp] theorem State.setDacCode_enabled (k : BitVec 12) : (s.setDacCode k).enabled = s.enabled := rfl
@[simp] theorem State.setDacCode_dacCode (k : BitVec 12) : (s.setDacCode k).dacCode = k := rfl
@[simp] theorem State.setDacCode_err (k : BitVec 12) : (s.setDacCode k).err = s.err := rfl
@[simp] theorem State.setDacCode_seq (k : BitVec 12) : (s.setDacCode k).seq = s.seq := rfl
@[simp] theorem State.setDacCode_bus (k : BitVec 12) : (s.setDacCode k).bus = s.bus := rfl
@[simp] theorem State.setDacCode_now (k : BitVec 12) : (s.setDacCode k).now = s.now := rfl
@[simp] theorem State.setDacCode_tx (k : BitVec 12) : (s.setDacCode k).tx = s.tx := rfl
@[simp] theorem State.setDacCode_log (k : BitVec 12) : (s.setDacCode k).log = s.log := rfl
@[simp] theorem State.setDacCode_faults (k : BitVec 12) : (s.setDacCode k).faults = s.faults := rfl
@[simp] theorem State.setDacCode_adc (k : BitVec 12) : (s.setDacCode k).adc = s.adc := rfl
@[simp] theorem State.setDacCode_dac (k : BitVec 12) : (s.setDacCode k).dac = s.dac := rfl
@[simp] theorem State.setDacCode_host (k : BitVec 12) : (s.setDacCode k).host = s.host := rfl
@[simp] theorem State.setDacCode_cfg (k : BitVec 12) : (s.setDacCode k).cfg = s.cfg := rfl
@[simp] theorem State.setDacCode_resp (k : BitVec 12) : (s.setDacCode k).resp = s.resp := rfl
@[simp] theorem State.setDacCode_inputs (k : BitVec 12) : (s.setDacCode k).inputs = s.inputs := rfl
@[simp] theorem State.setDacCode_answers (k : BitVec 12) : (s.setDacCode k).answers = s.answers := rfl
@[simp] theorem State.setDacCode_draws (k : BitVec 12) : (s.setDacCode k).draws = s.draws := rfl

@[simp] theorem State.setDac_enabled (k : BitVec 12) : (s.setDac k).enabled = s.enabled := rfl
@[simp] theorem State.setDac_dacCode (k : BitVec 12) : (s.setDac k).dacCode = s.dacCode := rfl
@[simp] theorem State.setDac_err (k : BitVec 12) : (s.setDac k).err = s.err := rfl
@[simp] theorem State.setDac_seq (k : BitVec 12) : (s.setDac k).seq = s.seq := rfl
@[simp] theorem State.setDac_bus (k : BitVec 12) : (s.setDac k).bus = s.bus := rfl
@[simp] theorem State.setDac_now (k : BitVec 12) : (s.setDac k).now = s.now := rfl
@[simp] theorem State.setDac_tx (k : BitVec 12) : (s.setDac k).tx = s.tx := rfl
@[simp] theorem State.setDac_log (k : BitVec 12) : (s.setDac k).log = s.log := rfl
@[simp] theorem State.setDac_faults (k : BitVec 12) : (s.setDac k).faults = s.faults := rfl
@[simp] theorem State.setDac_adc (k : BitVec 12) : (s.setDac k).adc = s.adc := rfl
@[simp] theorem State.setDac_dac (k : BitVec 12) : (s.setDac k).dac = k := rfl
@[simp] theorem State.setDac_host (k : BitVec 12) : (s.setDac k).host = s.host := rfl
@[simp] theorem State.setDac_cfg (k : BitVec 12) : (s.setDac k).cfg = s.cfg := rfl
@[simp] theorem State.setDac_resp (k : BitVec 12) : (s.setDac k).resp = s.resp := rfl
@[simp] theorem State.setDac_inputs (k : BitVec 12) : (s.setDac k).inputs = s.inputs := rfl
@[simp] theorem State.setDac_answers (k : BitVec 12) : (s.setDac k).answers = s.answers := rfl
@[simp] theorem State.setDac_draws (k : BitVec 12) : (s.setDac k).draws = s.draws := rfl

@[simp] theorem State.setAdc_enabled (ds : List AdcDev) : (s.setAdc ds).enabled = s.enabled := rfl
@[simp] theorem State.setAdc_dacCode (ds : List AdcDev) : (s.setAdc ds).dacCode = s.dacCode := rfl
@[simp] theorem State.setAdc_err (ds : List AdcDev) : (s.setAdc ds).err = s.err := rfl
@[simp] theorem State.setAdc_seq (ds : List AdcDev) : (s.setAdc ds).seq = s.seq := rfl
@[simp] theorem State.setAdc_bus (ds : List AdcDev) : (s.setAdc ds).bus = s.bus := rfl
@[simp] theorem State.setAdc_now (ds : List AdcDev) : (s.setAdc ds).now = s.now := rfl
@[simp] theorem State.setAdc_tx (ds : List AdcDev) : (s.setAdc ds).tx = s.tx := rfl
@[simp] theorem State.setAdc_log (ds : List AdcDev) : (s.setAdc ds).log = s.log := rfl
@[simp] theorem State.setAdc_faults (ds : List AdcDev) : (s.setAdc ds).faults = s.faults := rfl
@[simp] theorem State.setAdc_adc (ds : List AdcDev) : (s.setAdc ds).adc = ds := rfl
@[simp] theorem State.setAdc_dac (ds : List AdcDev) : (s.setAdc ds).dac = s.dac := rfl
@[simp] theorem State.setAdc_host (ds : List AdcDev) : (s.setAdc ds).host = s.host := rfl
@[simp] theorem State.setAdc_cfg (ds : List AdcDev) : (s.setAdc ds).cfg = s.cfg := rfl
@[simp] theorem State.setAdc_resp (ds : List AdcDev) : (s.setAdc ds).resp = s.resp := rfl
@[simp] theorem State.setAdc_inputs (ds : List AdcDev) : (s.setAdc ds).inputs = s.inputs := rfl
@[simp] theorem State.setAdc_answers (ds : List AdcDev) : (s.setAdc ds).answers = s.answers := rfl
@[simp] theorem State.setAdc_draws (ds : List AdcDev) : (s.setAdc ds).draws = s.draws := rfl

@[simp] theorem State.mark_enabled (m : Mark) : (s.mark m).enabled = s.enabled := rfl
@[simp] theorem State.mark_dacCode (m : Mark) : (s.mark m).dacCode = s.dacCode := rfl
@[simp] theorem State.mark_err (m : Mark) : (s.mark m).err = s.err := rfl
@[simp] theorem State.mark_seq (m : Mark) : (s.mark m).seq = s.seq := rfl
@[simp] theorem State.mark_bus (m : Mark) : (s.mark m).bus = s.bus := rfl
@[simp] theorem State.mark_now (m : Mark) : (s.mark m).now = s.now := rfl
@[simp] theorem State.mark_tx (m : Mark) : (s.mark m).tx = s.tx := rfl
@[simp] theorem State.mark_log (m : Mark) : (s.mark m).log = s.log := rfl
@[simp] theorem State.mark_faults (m : Mark) : (s.mark m).faults = s.faults ++ [m] := rfl
@[simp] theorem State.mark_adc (m : Mark) : (s.mark m).adc = s.adc := rfl
@[simp] theorem State.mark_dac (m : Mark) : (s.mark m).dac = s.dac := rfl
@[simp] theorem State.mark_host (m : Mark) : (s.mark m).host = s.host := rfl
@[simp] theorem State.mark_cfg (m : Mark) : (s.mark m).cfg = s.cfg := rfl
@[simp] theorem State.mark_resp (m : Mark) : (s.mark m).resp = s.resp := rfl
@[simp] theorem State.mark_inputs (m : Mark) : (s.mark m).inputs = s.inputs := rfl
@[simp] theorem State.mark_answers (m : Mark) : (s.mark m).answers = s.answers := rfl
@[simp] theorem State.mark_draws (m : Mark) : (s.mark m).draws = s.draws := rfl

@[simp] theorem State.setHost_enabled (h : HostSide) : (s.setHost h).enabled = s.enabled := rfl
@[simp] theorem State.setHost_dacCode (h : HostSide) : (s.setHost h).dacCode = s.dacCode := rfl
@[simp] theorem State.setHost_err (h : HostSide) : (s.setHost h).err = s.err := rfl
@[simp] theorem State.setHost_seq (h : HostSide) : (s.setHost h).seq = s.seq := rfl
@[simp] theorem State.setHost_bus (h : HostSide) : (s.setHost h).bus = s.bus := rfl
@[simp] theorem State.setHost_now (h : HostSide) : (s.setHost h).now = s.now := rfl
@[simp] theorem State.setHost_tx (h : HostSide) : (s.setHost h).tx = s.tx := rfl
@[simp] theorem State.setHost_log (h : HostSide) : (s.setHost h).log = s.log := rfl
@[simp] theorem State.setHost_faults (h : HostSide) : (s.setHost h).faults = s.faults := rfl
@[simp] theorem State.setHost_adc (h : HostSide) : (s.setHost h).adc = s.adc := rfl
@[simp] theorem State.setHost_dac (h : HostSide) : (s.setHost h).dac = s.dac := rfl
@[simp] theorem State.setHost_host (h : HostSide) : (s.setHost h).host = h := rfl
@[simp] theorem State.setHost_cfg (h : HostSide) : (s.setHost h).cfg = s.cfg := rfl
@[simp] theorem State.setHost_resp (h : HostSide) : (s.setHost h).resp = s.resp := rfl
@[simp] theorem State.setHost_inputs (h : HostSide) : (s.setHost h).inputs = s.inputs := rfl
@[simp] theorem State.setHost_answers (h : HostSide) : (s.setHost h).answers = s.answers := rfl
@[simp] theorem State.setHost_draws (h : HostSide) : (s.setHost h).draws = s.draws := rfl

@[simp] theorem State.setInputs_enabled (is : List HostInput) : (s.setInputs is).enabled = s.enabled := rfl
@[simp] theorem State.setInputs_dacCode (is : List HostInput) : (s.setInputs is).dacCode = s.dacCode := rfl
@[simp] theorem State.setInputs_err (is : List HostInput) : (s.setInputs is).err = s.err := rfl
@[simp] theorem State.setInputs_seq (is : List HostInput) : (s.setInputs is).seq = s.seq := rfl
@[simp] theorem State.setInputs_bus (is : List HostInput) : (s.setInputs is).bus = s.bus := rfl
@[simp] theorem State.setInputs_now (is : List HostInput) : (s.setInputs is).now = s.now := rfl
@[simp] theorem State.setInputs_tx (is : List HostInput) : (s.setInputs is).tx = s.tx := rfl
@[simp] theorem State.setInputs_log (is : List HostInput) : (s.setInputs is).log = s.log := rfl
@[simp] theorem State.setInputs_faults (is : List HostInput) : (s.setInputs is).faults = s.faults := rfl
@[simp] theorem State.setInputs_adc (is : List HostInput) : (s.setInputs is).adc = s.adc := rfl
@[simp] theorem State.setInputs_dac (is : List HostInput) : (s.setInputs is).dac = s.dac := rfl
@[simp] theorem State.setInputs_host (is : List HostInput) : (s.setInputs is).host = s.host := rfl
@[simp] theorem State.setInputs_cfg (is : List HostInput) : (s.setInputs is).cfg = s.cfg := rfl
@[simp] theorem State.setInputs_resp (is : List HostInput) : (s.setInputs is).resp = s.resp := rfl
@[simp] theorem State.setInputs_inputs (is : List HostInput) : (s.setInputs is).inputs = is := rfl
@[simp] theorem State.setInputs_answers (is : List HostInput) : (s.setInputs is).answers = s.answers := rfl
@[simp] theorem State.setInputs_draws (is : List HostInput) : (s.setInputs is).draws = s.draws := rfl

@[simp] theorem State.popAnswer_enabled : (s.popAnswer).enabled = s.enabled := rfl
@[simp] theorem State.popAnswer_dacCode : (s.popAnswer).dacCode = s.dacCode := rfl
@[simp] theorem State.popAnswer_err : (s.popAnswer).err = s.err := rfl
@[simp] theorem State.popAnswer_seq : (s.popAnswer).seq = s.seq := rfl
@[simp] theorem State.popAnswer_bus : (s.popAnswer).bus = s.bus := rfl
@[simp] theorem State.popAnswer_now : (s.popAnswer).now = s.now := rfl
@[simp] theorem State.popAnswer_tx : (s.popAnswer).tx = s.tx := rfl
@[simp] theorem State.popAnswer_log : (s.popAnswer).log = s.log := rfl
@[simp] theorem State.popAnswer_faults : (s.popAnswer).faults = s.faults := rfl
@[simp] theorem State.popAnswer_adc : (s.popAnswer).adc = s.adc := rfl
@[simp] theorem State.popAnswer_dac : (s.popAnswer).dac = s.dac := rfl
@[simp] theorem State.popAnswer_host : (s.popAnswer).host = s.host := rfl
@[simp] theorem State.popAnswer_cfg : (s.popAnswer).cfg = s.cfg := rfl
@[simp] theorem State.popAnswer_resp : (s.popAnswer).resp = s.resp := rfl
@[simp] theorem State.popAnswer_inputs : (s.popAnswer).inputs = s.inputs := rfl
@[simp] theorem State.popAnswer_answers : (s.popAnswer).answers = s.answers.tail := rfl
@[simp] theorem State.popAnswer_draws : (s.popAnswer).draws = s.draws + 1 := rfl

@[simp] theorem State.advance_enabled (n : Nat) : (s.advance n).enabled = s.enabled := rfl
@[simp] theorem State.advance_dacCode (n : Nat) : (s.advance n).dacCode = s.dacCode := rfl
@[simp] theorem State.advance_err (n : Nat) : (s.advance n).err = s.err := rfl
@[simp] theorem State.advance_seq (n : Nat) : (s.advance n).seq = s.seq := rfl
@[simp] theorem State.advance_bus (n : Nat) : (s.advance n).bus = s.bus := rfl
@[simp] theorem State.advance_now (n : Nat) : (s.advance n).now = s.now + n := rfl
@[simp] theorem State.advance_tx (n : Nat) : (s.advance n).tx = s.tx := rfl
@[simp] theorem State.advance_log (n : Nat) : (s.advance n).log = s.log := rfl
@[simp] theorem State.advance_faults (n : Nat) : (s.advance n).faults = s.faults := rfl
@[simp] theorem State.advance_adc (n : Nat) : (s.advance n).adc = s.adc.map fun d => d.upTo (s.now + n) := rfl
@[simp] theorem State.advance_dac (n : Nat) : (s.advance n).dac = s.dac := rfl
@[simp] theorem State.advance_host (n : Nat) : (s.advance n).host = s.host := rfl
@[simp] theorem State.advance_cfg (n : Nat) : (s.advance n).cfg = s.cfg := rfl
@[simp] theorem State.advance_resp (n : Nat) : (s.advance n).resp = s.resp := rfl
@[simp] theorem State.advance_inputs (n : Nat) : (s.advance n).inputs = s.inputs := rfl
@[simp] theorem State.advance_answers (n : Nat) : (s.advance n).answers = s.answers := rfl
@[simp] theorem State.advance_draws (n : Nat) : (s.advance n).draws = s.draws := rfl

@[simp] theorem finish_enabled (op : Op) (k : BitVec 24) (r : Result) : (finish op k r s).enabled = s.enabled := rfl
@[simp] theorem finish_dacCode (op : Op) (k : BitVec 24) (r : Result) : (finish op k r s).dacCode = s.dacCode := rfl
@[simp] theorem finish_err (op : Op) (k : BitVec 24) (r : Result) : (finish op k r s).err = .none := rfl
@[simp] theorem finish_seq (op : Op) (k : BitVec 24) (r : Result) : (finish op k r s).seq = ⟨.idle, 0⟩ := rfl
@[simp] theorem finish_bus (op : Op) (k : BitVec 24) (r : Result) : (finish op k r s).bus = s.bus := rfl
@[simp] theorem finish_now (op : Op) (k : BitVec 24) (r : Result) : (finish op k r s).now = s.now := rfl
@[simp] theorem finish_tx (op : Op) (k : BitVec 24) (r : Result) : (finish op k r s).tx = s.tx := rfl
@[simp] theorem finish_log (op : Op) (k : BitVec 24) (r : Result) : (finish op k r s).log = s.log := rfl
@[simp] theorem finish_faults (op : Op) (k : BitVec 24) (r : Result) : (finish op k r s).faults = s.faults := rfl
@[simp] theorem finish_adc (op : Op) (k : BitVec 24) (r : Result) : (finish op k r s).adc = s.adc := rfl
@[simp] theorem finish_dac (op : Op) (k : BitVec 24) (r : Result) : (finish op k r s).dac = s.dac := rfl
@[simp] theorem finish_host (op : Op) (k : BitVec 24) (r : Result) : (finish op k r s).host = s.host := rfl
@[simp] theorem finish_cfg (op : Op) (k : BitVec 24) (r : Result) : (finish op k r s).cfg = s.cfg := rfl
@[simp] theorem finish_resp (op : Op) (k : BitVec 24) (r : Result) : (finish op k r s).resp = some ⟨responseWord op .none k, r, none⟩ := rfl
@[simp] theorem finish_inputs (op : Op) (k : BitVec 24) (r : Result) : (finish op k r s).inputs = s.inputs := rfl
@[simp] theorem finish_answers (op : Op) (k : BitVec 24) (r : Result) : (finish op k r s).answers = s.answers := rfl
@[simp] theorem finish_draws (op : Op) (k : BitVec 24) (r : Result) : (finish op k r s).draws = s.draws := rfl

@[simp] theorem takeError_enabled (op : Op) (e : BlockError) : (takeError op e s).enabled = s.enabled := rfl
@[simp] theorem takeError_dacCode (op : Op) (e : BlockError) : (takeError op e s).dacCode = s.dacCode := rfl
@[simp] theorem takeError_err (op : Op) (e : BlockError) : (takeError op e s).err = e.code := rfl
@[simp] theorem takeError_seq (op : Op) (e : BlockError) : (takeError op e s).seq = ⟨.idle, 0⟩ := rfl
@[simp] theorem takeError_bus (op : Op) (e : BlockError) : (takeError op e s).bus = .free := rfl
@[simp] theorem takeError_now (op : Op) (e : BlockError) : (takeError op e s).now = s.now := rfl
@[simp] theorem takeError_tx (op : Op) (e : BlockError) : (takeError op e s).tx = s.tx := rfl
@[simp] theorem takeError_log (op : Op) (e : BlockError) : (takeError op e s).log = s.log := rfl
@[simp] theorem takeError_faults (op : Op) (e : BlockError) : (takeError op e s).faults = s.faults := rfl
@[simp] theorem takeError_adc (op : Op) (e : BlockError) : (takeError op e s).adc = s.adc := rfl
@[simp] theorem takeError_dac (op : Op) (e : BlockError) : (takeError op e s).dac = s.dac := rfl
@[simp] theorem takeError_host (op : Op) (e : BlockError) : (takeError op e s).host = s.host := rfl
@[simp] theorem takeError_cfg (op : Op) (e : BlockError) : (takeError op e s).cfg = s.cfg := rfl
@[simp] theorem takeError_resp (op : Op) (e : BlockError) : (takeError op e s).resp = some ⟨responseWord op e.code 0, .empty, some e⟩ := rfl
@[simp] theorem takeError_inputs (op : Op) (e : BlockError) : (takeError op e s).inputs = s.inputs := rfl
@[simp] theorem takeError_answers (op : Op) (e : BlockError) : (takeError op e s).answers = s.answers := rfl
@[simp] theorem takeError_draws (op : Op) (e : BlockError) : (takeError op e s).draws = s.draws := rfl

end Sys2Proof.Machine
end

