-- ==== Sys2Proof/Laws/Ops.lean ====
section
/-!
SUPPORT. One lemma per shared operation that says everything it can do: run, complete, the two bus primitives by outcome,
and what delay, waits and transmissions leave.
-/

namespace Sys2Proof.Machine

/-! ### Starting and ending an operation -/

/-- `run` answers a next state exactly when the block is ready and nothing stops it, and then it is the body's. -/
theorem run_eq_next_iff {op : Op} {stop : Option Refusal} {body : State → State} {s t : State} :
    run op stop body s = .next t ↔ s.Ready ∧ stop = none ∧ t = body (s.setSeq op 0) := by
  constructor
  · intro h
    unfold run at h
    split at h
    · rename_i hc
      split at h
      · rename_i hi
        split at h
        · exact ⟨⟨hc, hi⟩, rfl, by injection h with h; exact h.symm⟩
        · cases h
      · cases h
    · cases h
  · rintro ⟨⟨hc, hi⟩, hs, rfl⟩
    simp [run, hc, hi, hs]

/-- A ready block runs an operation that nothing stops. -/
theorem run_ready {op : Op} {stop : Option Refusal} {body : State → State} {s : State} (h : s.Ready) (hs : stop = none) :
    run op stop body s = .next (body (s.setSeq op 0)) :=
  run_eq_next_iff.2 ⟨h, hs, rfl⟩

/-- A ready block refuses an input without a meaning by its name. -/
theorem run_stop {op : Op} {r : Refusal} {body : State → State} {s : State} (h : s.Ready) :
    run op (some r) body s = .refused r := by
  simp [run, h.cfg, h.idle]

/-- A busy block has no step. -/
theorem run_busy {op : Op} {stop : Option Refusal} {body : State → State} {s : State} (hc : s.cfg.wf = true)
    (hi : s.isIdle = false) : run op stop body s = .fault .blockBusy := by
  simp [run, hc, hi]

/-- A configuration outside its domain is refused. -/
theorem run_configuration {op : Op} {stop : Option Refusal} {body : State → State} {s : State} (hc : s.cfg.wf = false) :
    run op stop body s = .refused .configuration := by
  simp [run, hc]

@[simp] theorem complete_ok {α : Type} (op : Op) (k : α → BitVec 24) (r : α → Result) (s : State) (v : α) :
    complete op k r (s, .ok v) = finish op (k v) (r v) s := rfl

@[simp] theorem complete_error {α : Type} (op : Op) (k : α → BitVec 24) (r : α → Result) (s : State) (e : BlockError) :
    complete op k r (s, .error e) = takeError op e s := rfl

@[simp] theorem andThen_ok {α β : Type} (s : State) (v : α) (k : α → State → Res β) :
    Res.andThen (s, .ok v) k = k v s := rfl

@[simp] theorem andThen_error {α β : Type} (s : State) (e : BlockError) (k : α → State → Res β) :
    Res.andThen (s, .error e) k = (s, .error e) := rfl

/-! ### Acknowledgments (R66) -/

/-- An address of the map answers what the environment says. -/
theorem answerAt_inMap {c : Cfg} {a : Addr} {x : Ack} (h : inMap c a = true) : answerAt c a x = x := by
  simp [answerAt, h]

/-- An address outside the map never answers ACK. -/
theorem answerAt_ne_ack {c : Cfg} {a : Addr} {x : Ack} (h : inMap c a = false) : answerAt c a x ≠ .ack := by
  cases x <;> simp [answerAt, h]

/-! ### The bus held for a transfer -/

@[simp] theorem transfer_now (s : State) (a : Addr) (k : Nat) : (s.transfer a k).now = s.now + Config.tXfer k := rfl

@[simp] theorem transfer_adc (s : State) (a : Addr) (k : Nat) :
    (s.transfer a k).adc = s.adc.map fun d => d.upTo (s.now + Config.tXfer k) := rfl

@[simp] theorem transfer_bus (s : State) (a : Addr) (k : Nat) : (s.transfer a k).bus = .free := rfl

@[simp] theorem transfer_log (s : State) (a : Addr) (k : Nat) : (s.transfer a k).log = s.log := rfl

@[simp] theorem transfer_cfg (s : State) (a : Addr) (k : Nat) : (s.transfer a k).cfg = s.cfg := rfl

/-! ### The primitives by outcome (R64, R65, R66) -/

/-- The state after the transfer of a write, its event recorded. -/
def writeSent (a : Addr) (r : Byte) (bs : List Byte) (s : State) : State :=
  (s.popAnswer.transfer a (1 + bs.length)).record
    (.busW s.now (s.now + Config.tXfer (1 + bs.length)) a (r :: bs) (s.answerTo a))

theorem memWrite_ack {f : FailedWrite} {a : Addr} {r : Byte} {bs : List Byte} {s : State} (h : s.answerTo a = .ack) :
    memWrite f a r bs s = ((writeSent a r bs s).deviceTakes a r bs s.nextAnswer, .ok ()) := by
  unfold State.answerTo at h
  simp [memWrite, writeSent, State.answerTo, h]

theorem memWrite_nack {f : FailedWrite} {a : Addr} {r : Byte} {bs : List Byte} {s : State} (h : s.answerTo a = .nack) :
    memWrite f a r bs s =
      ((writeSent a r bs s).deviceTakesIf (f.took s.nextAnswer) a r bs s.nextAnswer, .error (.busError a)) := by
  unfold State.answerTo at h
  simp [memWrite, writeSent, State.answerTo, h]

theorem memWrite_silent {f : FailedWrite} {a : Addr} {r : Byte} {bs : List Byte} {s : State} (h : s.answerTo a = .silent)
    (ht : s.cfg.ackTimeoutUs = none) :
    memWrite f a r bs s =
      ((writeSent a r bs s).deviceTakesIf s.nextAnswer.took a r bs s.nextAnswer, .ok ()) := by
  unfold State.answerTo at h
  simp [memWrite, writeSent, State.answerTo, h, ht]

theorem memWrite_timeout {f : FailedWrite} {a : Addr} {r : Byte} {bs : List Byte} {s : State} {d : Nat}
    (h : s.answerTo a = .silent) (ht : s.cfg.ackTimeoutUs = some d) :
    memWrite f a r bs s =
      (((writeSent a r bs s).deviceTakesIf (f.took s.nextAnswer) a r bs s.nextAnswer).advance (d + s.nextAnswer.extra),
        .error (.busTimeout a)) := by
  unfold State.answerTo at h
  simp [memWrite, writeSent, State.answerTo, h, ht]

/-- The state after the transfer of a read, the pointer byte taken as drawn. -/
def readSent (a : Addr) (r : Byte) (n : Nat) (took : Bool) (s : State) : State :=
  (s.popAnswer.transfer a (2 + n)).pointerIf took a r

@[simp] theorem readSent_now (a : Addr) (r : Byte) (n : Nat) (took : Bool) (s : State) :
    (readSent a r n took s).now = s.now + Config.tXfer (2 + n) := by
  cases took <;> rfl

theorem memRead_ack {a : Addr} {r : Byte} {n : Nat} {s : State} (h : s.answerTo a = .ack) :
    memRead a r n s =
      ((readSent a r n true s).record
          (.busR s.now (s.now + Config.tXfer (2 + n)) a r n (s.deviceReads a r n s.nextAnswer) .ack),
        .ok (s.deviceReads a r n s.nextAnswer)) := by
  unfold State.answerTo at h
  simp [memRead, readSent, h]

theorem memRead_nack {a : Addr} {r : Byte} {n : Nat} {s : State} (h : s.answerTo a = .nack) :
    memRead a r n s =
      ((readSent a r n s.nextAnswer.took s).record (.busR s.now (s.now + Config.tXfer (2 + n)) a r n [] .nack),
        .error (.busError a)) := by
  unfold State.answerTo at h
  simp [memRead, readSent, h]

theorem memRead_silent {a : Addr} {r : Byte} {n : Nat} {s : State} (h : s.answerTo a = .silent)
    (ht : s.cfg.ackTimeoutUs = none) :
    memRead a r n s =
      ((readSent a r n s.nextAnswer.took s).record
          (.busR s.now (s.now + Config.tXfer (2 + n)) a r n (fillBytes n s.nextAnswer.fill) .silent),
        .ok (fillBytes n s.nextAnswer.fill)) := by
  unfold State.answerTo at h
  simp [memRead, readSent, h, ht]

theorem memRead_timeout {a : Addr} {r : Byte} {n : Nat} {s : State} {d : Nat} (h : s.answerTo a = .silent)
    (ht : s.cfg.ackTimeoutUs = some d) :
    memRead a r n s =
      (((readSent a r n s.nextAnswer.took s).advance (d + s.nextAnswer.extra)).record
          (.busR s.now (s.now + Config.tXfer (2 + n) + (d + s.nextAnswer.extra)) a r n [] .silent),
        .error (.busTimeout a)) := by
  unfold State.answerTo at h
  have hn := readSent_now a r n s.nextAnswer.took s
  unfold readSent at hn
  simp [memRead, readSent, h, ht, hn]

end Sys2Proof.Machine
end

