-- ==== Sys2Proof/Laws/Frames.lean ====
section
/-!
SUPPORT. What the shared operations leave alone (BusFrame), that histories only grow (Grows), and that every operation over
the devices keeps their canonical form (Devices.wf).
-/

namespace Sys2Proof.Machine

/-! ### BusFrame and Grows as relations -/

@[refl] theorem BusFrame.refl (s : State) : BusFrame s s := ⟨rfl, rfl, rfl, rfl, rfl, rfl, rfl, rfl⟩

theorem BusFrame.trans {s t u : State} (h : BusFrame s t) (k : BusFrame t u) : BusFrame s u :=
  ⟨k.enabled.trans h.enabled, k.dacCode.trans h.dacCode, k.err.trans h.err, k.tx.trans h.tx, k.host.trans h.host,
    k.cfg.trans h.cfg, k.resp.trans h.resp, k.inputs.trans h.inputs⟩

@[refl] theorem Grows.refl (s : State) : Grows s s :=
  ⟨Nat.le_refl _, List.prefix_refl _, List.prefix_refl _, List.prefix_refl _, rfl⟩

theorem Grows.trans {s t u : State} (h : Grows s t) (k : Grows t u) : Grows s u :=
  ⟨Nat.le_trans h.now k.now, h.tx.trans k.tx, h.log.trans k.log, h.faults.trans k.faults, k.cfg.trans h.cfg⟩

/-- A step of the machine that moves nothing but what `Grows` does not look at, and time forward. -/
theorem Grows.of_eq {s t : State} (now : s.now ≤ t.now) (tx : t.tx = s.tx) (log : t.log = s.log)
    (faults : t.faults = s.faults) (cfg : t.cfg = s.cfg) : Grows s t :=
  ⟨now, by rw [tx], by rw [log], by rw [faults], cfg⟩

theorem setSeq_busFrame (s : State) (op : Op) (n : Nat) : BusFrame s (s.setSeq op n) :=
  ⟨rfl, rfl, rfl, rfl, rfl, rfl, rfl, rfl⟩

theorem setSeq_grows (s : State) (op : Op) (n : Nat) : Grows s (s.setSeq op n) :=
  Grows.of_eq (Nat.le_refl _) rfl rfl rfl rfl

theorem popAnswer_grows (s : State) : Grows s s.popAnswer := Grows.of_eq (Nat.le_refl _) rfl rfl rfl rfl

theorem popAnswer_busFrame (s : State) : BusFrame s s.popAnswer := ⟨rfl, rfl, rfl, rfl, rfl, rfl, rfl, rfl⟩

theorem setBus_busFrame (s : State) (b : Bus) : BusFrame s (s.setBus b) := ⟨rfl, rfl, rfl, rfl, rfl, rfl, rfl, rfl⟩

theorem setBus_grows (s : State) (b : Bus) : Grows s (s.setBus b) := Grows.of_eq (Nat.le_refl _) rfl rfl rfl rfl

theorem pointerIf_busFrame (s : State) (took : Bool) (a : Addr) (r : Byte) : BusFrame s (s.pointerIf took a r) := by
  cases took <;> exact ⟨rfl, rfl, rfl, rfl, rfl, rfl, rfl, rfl⟩

theorem pointerIf_grows (s : State) (took : Bool) (a : Addr) (r : Byte) : Grows s (s.pointerIf took a r) := by
  cases took <;> exact Grows.of_eq (Nat.le_refl _) rfl rfl rfl rfl

theorem advance_busFrame (s : State) (n : Nat) : BusFrame s (s.advance n) := ⟨rfl, rfl, rfl, rfl, rfl, rfl, rfl, rfl⟩

theorem advance_grows (s : State) (n : Nat) : Grows s (s.advance n) :=
  Grows.of_eq (Nat.le_add_right _ _) rfl rfl rfl rfl

theorem record_busFrame (s : State) (e : Event) : BusFrame s (s.record e) := ⟨rfl, rfl, rfl, rfl, rfl, rfl, rfl, rfl⟩

theorem record_grows (s : State) (e : Event) : Grows s (s.record e) :=
  ⟨Nat.le_refl _, List.prefix_refl _, List.prefix_append _ _, List.prefix_refl _, rfl⟩

theorem finish_grows (op : Op) (k : BitVec 24) (r : Result) (s : State) : Grows s (finish op k r s) :=
  Grows.of_eq (Nat.le_refl _) rfl rfl rfl rfl

theorem takeError_grows (op : Op) (e : BlockError) (s : State) : Grows s (takeError op e s) :=
  Grows.of_eq (Nat.le_refl _) rfl rfl rfl rfl

/-! ### The device contract -/

theorem noteOverlap_busFrame (s : State) (a : Addr) (r : Byte) (bs : List Byte) : BusFrame s (s.noteOverlap a r bs) := by
  unfold State.noteOverlap
  split
  · exact ⟨rfl, rfl, rfl, rfl, rfl, rfl, rfl, rfl⟩
  · rfl

theorem noteOverlap_grows (s : State) (a : Addr) (r : Byte) (bs : List Byte) : Grows s (s.noteOverlap a r bs) := by
  unfold State.noteOverlap
  split
  · exact ⟨Nat.le_refl _, List.prefix_refl _, List.prefix_refl _, List.prefix_append _ _, rfl⟩
  · rfl

theorem dacTakes_busFrame (s : State) (r : Byte) (bs : List Byte) : BusFrame s (s.dacTakes r bs) := by
  unfold State.dacTakes
  split
  · split
    · exact ⟨rfl, rfl, rfl, rfl, rfl, rfl, rfl, rfl⟩
    · rfl
  · rfl

theorem dacTakes_grows (s : State) (r : Byte) (bs : List Byte) : Grows s (s.dacTakes r bs) := by
  unfold State.dacTakes
  split
  · split
    · exact Grows.of_eq (Nat.le_refl _) rfl rfl rfl rfl
    · rfl
  · rfl

theorem deviceTakes_busFrame (s : State) (a : Addr) (r : Byte) (bs : List Byte) (ans : Answer) :
    BusFrame s (s.deviceTakes a r bs ans) := by
  unfold State.deviceTakes
  split
  · exact dacTakes_busFrame s r bs
  · exact (noteOverlap_busFrame s a r bs).trans ⟨rfl, rfl, rfl, rfl, rfl, rfl, rfl, rfl⟩

theorem deviceTakes_grows (s : State) (a : Addr) (r : Byte) (bs : List Byte) (ans : Answer) :
    Grows s (s.deviceTakes a r bs ans) := by
  unfold State.deviceTakes
  split
  · exact dacTakes_grows s r bs
  · exact (noteOverlap_grows s a r bs).trans (Grows.of_eq (Nat.le_refl _) rfl rfl rfl rfl)

theorem deviceTakesIf_busFrame (s : State) (took : Bool) (a : Addr) (r : Byte) (bs : List Byte) (ans : Answer) :
    BusFrame s (s.deviceTakesIf took a r bs ans) := by
  cases took
  · rfl
  · exact deviceTakes_busFrame s a r bs ans

theorem deviceTakesIf_grows (s : State) (took : Bool) (a : Addr) (r : Byte) (bs : List Byte) (ans : Answer) :
    Grows s (s.deviceTakesIf took a r bs ans) := by
  cases took
  · rfl
  · exact deviceTakes_grows s a r bs ans

/-! ### The primitives -/

theorem transfer_busFrame (s : State) (a : Addr) (k : Nat) : BusFrame s (s.transfer a k) :=
  (setBus_busFrame s _).trans ((advance_busFrame _ _).trans (setBus_busFrame _ _))

theorem transfer_grows (s : State) (a : Addr) (k : Nat) : Grows s (s.transfer a k) :=
  (setBus_grows s _).trans ((advance_grows _ _).trans (setBus_grows _ _))

theorem writeSent_busFrame (a : Addr) (r : Byte) (bs : List Byte) (s : State) : BusFrame s (writeSent a r bs s) :=
  (popAnswer_busFrame s).trans ((transfer_busFrame _ _ _).trans (record_busFrame _ _))

theorem writeSent_grows (a : Addr) (r : Byte) (bs : List Byte) (s : State) : Grows s (writeSent a r bs s) :=
  (popAnswer_grows s).trans ((transfer_grows _ _ _).trans (record_grows _ _))

theorem readSent_busFrame (a : Addr) (r : Byte) (n : Nat) (took : Bool) (s : State) : BusFrame s (readSent a r n took s) :=
  (popAnswer_busFrame s).trans ((transfer_busFrame _ _ _).trans (pointerIf_busFrame _ _ _ _))

theorem readSent_grows (a : Addr) (r : Byte) (n : Nat) (took : Bool) (s : State) : Grows s (readSent a r n took s) :=
  (popAnswer_grows s).trans ((transfer_grows _ _ _).trans (pointerIf_grows _ _ _ _))

/-- A register write leaves what BusFrame names, whatever the device answers. -/
theorem memWrite_busFrame (f : FailedWrite) (a : Addr) (r : Byte) (bs : List Byte) (s : State) :
    BusFrame s (memWrite f a r bs s).1 := by
  have hw := writeSent_busFrame a r bs s
  cases h : s.answerTo a with
  | ack => rw [memWrite_ack h]; exact hw.trans (deviceTakes_busFrame _ _ _ _ _)
  | nack => rw [memWrite_nack h]; exact hw.trans (deviceTakesIf_busFrame _ _ _ _ _ _)
  | silent =>
    cases ht : s.cfg.ackTimeoutUs with
    | none => rw [memWrite_silent h ht]; exact hw.trans (deviceTakesIf_busFrame _ _ _ _ _ _)
    | some d =>
      rw [memWrite_timeout h ht]
      exact (hw.trans (deviceTakesIf_busFrame _ _ _ _ _ _)).trans (advance_busFrame _ _)

/-- A register write only grows the histories. -/
theorem memWrite_grows (f : FailedWrite) (a : Addr) (r : Byte) (bs : List Byte) (s : State) :
    Grows s (memWrite f a r bs s).1 := by
  have hw := writeSent_grows a r bs s
  cases h : s.answerTo a with
  | ack => rw [memWrite_ack h]; exact hw.trans (deviceTakes_grows _ _ _ _ _)
  | nack => rw [memWrite_nack h]; exact hw.trans (deviceTakesIf_grows _ _ _ _ _ _)
  | silent =>
    cases ht : s.cfg.ackTimeoutUs with
    | none => rw [memWrite_silent h ht]; exact hw.trans (deviceTakesIf_grows _ _ _ _ _ _)
    | some d =>
      rw [memWrite_timeout h ht]
      exact (hw.trans (deviceTakesIf_grows _ _ _ _ _ _)).trans (advance_grows _ _)

/-- A register read leaves what BusFrame names, whatever the device answers. -/
theorem memRead_busFrame (a : Addr) (r : Byte) (n : Nat) (s : State) : BusFrame s (memRead a r n s).1 := by
  have hr := fun took => readSent_busFrame a r n took s
  cases h : s.answerTo a with
  | ack => rw [memRead_ack h]; exact (hr _).trans (record_busFrame _ _)
  | nack => rw [memRead_nack h]; exact (hr _).trans (record_busFrame _ _)
  | silent =>
    cases ht : s.cfg.ackTimeoutUs with
    | none => rw [memRead_silent h ht]; exact (hr _).trans (record_busFrame _ _)
    | some d =>
      rw [memRead_timeout h ht]
      exact ((hr _).trans (advance_busFrame _ _)).trans (record_busFrame _ _)

/-- A register read only grows the histories. -/
theorem memRead_grows (a : Addr) (r : Byte) (n : Nat) (s : State) : Grows s (memRead a r n s).1 := by
  have hr := fun took => readSent_grows a r n took s
  cases h : s.answerTo a with
  | ack => rw [memRead_ack h]; exact (hr _).trans (record_grows _ _)
  | nack => rw [memRead_nack h]; exact (hr _).trans (record_grows _ _)
  | silent =>
    cases ht : s.cfg.ackTimeoutUs with
    | none => rw [memRead_silent h ht]; exact (hr _).trans (record_grows _ _)
    | some d =>
      rw [memRead_timeout h ht]
      exact ((hr _).trans (advance_grows _ _)).trans (record_grows _ _)

theorem delay_busFrame (d : Nat) (s : State) : BusFrame s (delay d s) := ⟨rfl, rfl, rfl, rfl, rfl, rfl, rfl, rfl⟩

theorem delay_grows (d : Nat) (s : State) : Grows s (delay d s) :=
  ⟨Nat.le_add_right _ _, List.prefix_refl _, List.prefix_append _ _, List.prefix_refl _, rfl⟩

/-- Delay lasts at least what was asked (R68). -/
theorem delay_now_le (d : Nat) (s : State) : s.now + d ≤ (delay d s).now := by
  change s.now + d ≤ s.now + (d + s.nextAnswer.extra)
  omega

theorem txBytes_grows (bs : List Byte) (s : State) : Grows s (txBytes bs s) :=
  ⟨Nat.le_add_right _ _, List.prefix_append _ _, List.prefix_append _ _, List.prefix_refl _, rfl⟩

@[simp] theorem txBytes_tx (bs : List Byte) (s : State) : (txBytes bs s).tx = s.tx ++ bs := rfl

theorem waitFor_busFrame (d : Nat) (s : State) : BusFrame s (waitFor d s) := ⟨rfl, rfl, rfl, rfl, rfl, rfl, rfl, rfl⟩

theorem waitFor_grows (d : Nat) (s : State) : Grows s (waitFor d s) :=
  Grows.of_eq (Nat.le_add_right _ _) rfl rfl rfl rfl

/-! ### Parts of operations -/

theorem andThen_busFrame {α β : Type} {s : State} {x : Res α} {k : α → State → Res β} (hx : BusFrame s x.1)
    (hk : ∀ v t, BusFrame t (k v t).1) : BusFrame s (x.andThen k).1 := by
  rcases x with ⟨t, e | v⟩
  · exact hx
  · exact hx.trans (hk v t)

theorem andThen_grows {α β : Type} {s : State} {x : Res α} {k : α → State → Res β} (hx : Grows s x.1)
    (hk : ∀ v t, Grows t (k v t).1) : Grows s (x.andThen k).1 := by
  rcases x with ⟨t, e | v⟩
  · exact hx
  · exact hx.trans (hk v t)

theorem complete_grows {α : Type} {s : State} {x : Res α} (op : Op) (k : α → BitVec 24) (r : α → Result)
    (hx : Grows s x.1) : Grows s (complete op k r x) := by
  rcases x with ⟨t, e | v⟩
  · exact hx.trans (takeError_grows _ _ _)
  · exact hx.trans (finish_grows _ _ _ _)

/-! ### The canonical form of the device space -/

theorem AdcDev.upTo_addr (d : AdcDev) (t : Nat) : (d.upTo t).addr = d.addr := by
  unfold AdcDev.upTo
  split
  · rfl
  · split <;> rfl

theorem AdcDev.take_addr (d : AdcDev) (c : Cfg) (t : Nat) (m : Bool) (r : Byte) (bs : List Byte) (ans : Answer) :
    (d.take c t m r bs ans).addr = d.addr := by
  unfold AdcDev.take
  split
  · split
    · unfold AdcDev.takeConfig
      split
      · rfl
      · split <;> rfl
    · rfl
  · rfl

theorem advance_keeps_devices {s : State} (n : Nat) (h : Devices.wf s.cfg s.adc) :
    Devices.wf (s.advance n).cfg (s.advance n).adc := by
  simpa [Devices.wf, Function.comp_def, AdcDev.upTo_addr] using h

theorem mapAdc_keeps_devices {s : State} (a : Addr) {f : AdcDev → AdcDev} (hf : ∀ d, (f d).addr = d.addr)
    (h : Devices.wf s.cfg s.adc) : Devices.wf (s.mapAdc a f).cfg (s.mapAdc a f).adc := by
  have key : (AdcDev.addr ∘ fun d => if d.addr = a then f d else d) = AdcDev.addr := by
    funext d
    by_cases hd : d.addr = a <;> simp [hd, hf]
  simpa [Devices.wf, State.mapAdc, key] using h

theorem deviceTakes_keeps_devices {s : State} (a : Addr) (r : Byte) (bs : List Byte) (ans : Answer)
    (h : Devices.wf s.cfg s.adc) :
    Devices.wf (s.deviceTakes a r bs ans).cfg (s.deviceTakes a r bs ans).adc := by
  unfold State.deviceTakes
  split
  · unfold State.dacTakes
    split
    · split <;> exact h
    · exact h
  · refine mapAdc_keeps_devices a (fun d => AdcDev.take_addr d _ _ _ _ _ _) ?_
    unfold State.noteOverlap
    split <;> exact h

theorem deviceTakesIf_keeps_devices {s : State} (took : Bool) (a : Addr) (r : Byte) (bs : List Byte) (ans : Answer)
    (h : Devices.wf s.cfg s.adc) :
    Devices.wf (s.deviceTakesIf took a r bs ans).cfg (s.deviceTakesIf took a r bs ans).adc := by
  cases took
  · exact h
  · exact deviceTakes_keeps_devices a r bs ans h

theorem pointerIf_keeps_devices {s : State} (took : Bool) (a : Addr) (r : Byte) (h : Devices.wf s.cfg s.adc) :
    Devices.wf (s.pointerIf took a r).cfg (s.pointerIf took a r).adc := by
  cases took
  · exact h
  · exact mapAdc_keeps_devices a (fun _ => rfl) h

/-- A register write keeps the canonical form of the device space. -/
theorem memWrite_keeps_devices {s : State} (f : FailedWrite) (a : Addr) (r : Byte) (bs : List Byte)
    (h : Devices.wf s.cfg s.adc) :
    Devices.wf (memWrite f a r bs s).1.cfg (memWrite f a r bs s).1.adc := by
  have hw : Devices.wf (writeSent a r bs s).cfg (writeSent a r bs s).adc := advance_keeps_devices (s := s) _ h
  cases ho : s.answerTo a with
  | ack => rw [memWrite_ack ho]; exact deviceTakes_keeps_devices a r bs _ hw
  | nack => rw [memWrite_nack ho]; exact deviceTakesIf_keeps_devices _ a r bs _ hw
  | silent =>
    cases ht : s.cfg.ackTimeoutUs with
    | none => rw [memWrite_silent ho ht]; exact deviceTakesIf_keeps_devices _ a r bs _ hw
    | some d =>
      rw [memWrite_timeout ho ht]
      exact advance_keeps_devices _ (deviceTakesIf_keeps_devices _ a r bs _ hw)

/-- A register read keeps the canonical form of the device space. -/
theorem memRead_keeps_devices {s : State} (a : Addr) (r : Byte) (n : Nat) (h : Devices.wf s.cfg s.adc) :
    Devices.wf (memRead a r n s).1.cfg (memRead a r n s).1.adc := by
  have hr : ∀ took, Devices.wf (readSent a r n took s).cfg (readSent a r n took s).adc :=
    fun took => pointerIf_keeps_devices took a r (advance_keeps_devices (s := s) _ h)
  cases ho : s.answerTo a with
  | ack => rw [memRead_ack ho]; exact hr _
  | nack => rw [memRead_nack ho]; exact hr _
  | silent =>
    cases ht : s.cfg.ackTimeoutUs with
    | none => rw [memRead_silent ho ht]; exact hr _
    | some d => rw [memRead_timeout ho ht]; exact advance_keeps_devices _ (hr _)

/-- The devices right after reset are those of the address map. -/
theorem resetWith_devices (c : Cfg) : Devices.wf c (State.resetWith c).adc := by
  simp [Devices.wf, State.resetWith, Function.comp_def, AdcDev.atReset]

end Sys2Proof.Machine
end

