-- ==== Sys2Proof/Laws/Converters.lean ====
section
/-!
SUPPORT. Converters by address: what time, a write and a read leave of each (State.converter, OnlyAges).
-/

namespace Sys2Proof.Machine

theorem AdcDev.upTo_none {d : AdcDev} {t : Nat} (h : d.pending = none) : d.upTo t = d := by
  simp [AdcDev.upTo, h]

theorem AdcDev.upTo_some {d : AdcDev} {t : Nat} {k : Conversion} (h : d.pending = some k) :
    d.upTo t = if k.tDone ≤ t then { d with conv := k.result, pending := none } else d := by
  simp [AdcDev.upTo, h]

theorem AdcDev.upTo_upTo (d : AdcDev) {t u : Nat} (h : t ≤ u) : (d.upTo t).upTo u = d.upTo u := by
  cases hp : d.pending with
  | none => rw [AdcDev.upTo_none hp]
  | some k =>
    rw [AdcDev.upTo_some (t := t) hp, AdcDev.upTo_some (t := u) hp]
    split
    · rw [if_pos (by omega)]; rfl
    · exact AdcDev.upTo_some hp

theorem AdcDev.upTo_ptr (d : AdcDev) (t : Nat) : (d.upTo t).ptr = d.ptr := by
  unfold AdcDev.upTo; split
  · rfl
  · split <;> rfl

theorem AdcDev.withPtr_upTo (d : AdcDev) (p : Byte) (t : Nat) :
    ({ d with ptr := p } : AdcDev).upTo t = { d.upTo t with ptr := p } := by
  rcases d with ⟨a, c, v, q, _ | k⟩
  · rfl
  · simp only [AdcDev.upTo]
    split <;> rfl

theorem find_map_addr (ds : List AdcDev) (a : Addr) (f : AdcDev → AdcDev) (hf : ∀ d, (f d).addr = d.addr) :
    (ds.map f).find? (fun d => d.addr == a) = (ds.find? fun d => d.addr == a).map f := by
  induction ds with
  | nil => rfl
  | cons d ds ih =>
    rw [List.map_cons, List.find?_cons, List.find?_cons, hf]
    split
    · rfl
    · exact ih

theorem converter_addr {s : State} {a : Addr} {d : AdcDev} (h : s.converter a = some d) : d.addr = a := by
  simpa using List.find?_some h

theorem advance_converter (s : State) (n : Nat) (a : Addr) :
    (s.advance n).converter a = (s.converter a).map fun d => d.upTo (s.now + n) :=
  find_map_addr _ _ _ fun d => AdcDev.upTo_addr d _

theorem mapAdc_converter_other (s : State) {a b : Addr} {f : AdcDev → AdcDev} (hf : ∀ d, (f d).addr = d.addr)
    (h : b ≠ a) : (s.mapAdc a f).converter b = s.converter b := by
  unfold State.mapAdc State.converter
  rw [State.setAdc_adc, find_map_addr _ _ _ (fun d => by split <;> simp [hf])]
  cases hd : s.adc.find? (fun d => d.addr == b) with
  | none => rfl
  | some d =>
    have : d.addr = b := by simpa using List.find?_some hd
    simp [this, h]

theorem mapAdc_converter_same (s : State) {a : Addr} {f : AdcDev → AdcDev} (hf : ∀ d, (f d).addr = d.addr) :
    (s.mapAdc a f).converter a = (s.converter a).map f := by
  unfold State.mapAdc State.converter
  rw [State.setAdc_adc, find_map_addr _ _ _ (fun d => by split <;> simp [hf])]
  cases hd : s.adc.find? (fun d => d.addr == a) with
  | none => rfl
  | some d =>
    have : d.addr = a := by simpa using List.find?_some hd
    simp [this]


/-! ### OnlyAges: a converter that nothing but time touches -/

theorem OnlyAges.of_adc {s t : State} (h : t.adc = s.adc.map fun d => d.upTo t.now) (b : Addr) : OnlyAges s t b := by
  unfold OnlyAges State.converter
  rw [h, find_map_addr _ _ _ fun d => AdcDev.upTo_addr d _]

theorem OnlyAges.trans {s t u : State} {b : Addr} (h : OnlyAges s t b) (k : OnlyAges t u b) (le : t.now ≤ u.now) :
    OnlyAges s u b := by
  unfold OnlyAges at *
  rw [k, h, Option.map_map]
  congr 1
  funext d
  exact AdcDev.upTo_upTo d le

/-- An untouched converter in a state that shares devices and time with the first one after ageing. -/
theorem OnlyAges.congr {s t u : State} {b : Addr} (h : OnlyAges s t b) (hc : u.converter b = t.converter b)
    (hn : u.now = t.now) : OnlyAges s u b := by
  unfold OnlyAges at *
  rw [hc, hn, h]

theorem advance_onlyAges (s : State) (n : Nat) (b : Addr) : OnlyAges s (s.advance n) b := OnlyAges.of_adc rfl b

theorem delay_onlyAges (d : Nat) (s : State) (b : Addr) : OnlyAges s (delay d s) b := OnlyAges.of_adc rfl b

theorem txBytes_onlyAges (bs : List Byte) (s : State) (b : Addr) : OnlyAges s (txBytes bs s) b := OnlyAges.of_adc rfl b

theorem writeSent_onlyAges (a : Addr) (r : Byte) (bs : List Byte) (s : State) (b : Addr) :
    OnlyAges s (writeSent a r bs s) b := OnlyAges.of_adc rfl b

theorem noteOverlap_adc (s : State) (a : Addr) (r : Byte) (bs : List Byte) : (s.noteOverlap a r bs).adc = s.adc := by
  unfold State.noteOverlap
  split <;> rfl

theorem noteOverlap_now (s : State) (a : Addr) (r : Byte) (bs : List Byte) : (s.noteOverlap a r bs).now = s.now := by
  unfold State.noteOverlap
  split <;> rfl

theorem dacTakes_adc (s : State) (r : Byte) (bs : List Byte) : (s.dacTakes r bs).adc = s.adc := by
  unfold State.dacTakes
  split
  · split <;> rfl
  · rfl

theorem dacTakes_now (s : State) (r : Byte) (bs : List Byte) : (s.dacTakes r bs).now = s.now := by
  unfold State.dacTakes
  split
  · split <;> rfl
  · rfl

@[simp] theorem deviceTakes_now (s : State) (a : Addr) (r : Byte) (bs : List Byte) (ans : Answer) :
    (s.deviceTakes a r bs ans).now = s.now := by
  unfold State.deviceTakes
  split
  · exact dacTakes_now s r bs
  · exact noteOverlap_now s a r bs

@[simp] theorem deviceTakesIf_now (s : State) (took : Bool) (a : Addr) (r : Byte) (bs : List Byte) (ans : Answer) :
    (s.deviceTakesIf took a r bs ans).now = s.now := by
  cases took
  · rfl
  · exact deviceTakes_now s a r bs ans

/-- A write changes no converter but the one addressed. -/
theorem deviceTakes_converter_other (s : State) {a b : Addr} (r : Byte) (bs : List Byte) (ans : Answer) (h : b ≠ a) :
    (s.deviceTakes a r bs ans).converter b = s.converter b := by
  unfold State.deviceTakes
  split
  · unfold State.converter
    rw [dacTakes_adc]
  · rw [mapAdc_converter_other _ (fun d => AdcDev.take_addr d _ _ _ _ _ _) h]
    unfold State.converter
    rw [noteOverlap_adc]

/-- A write to the DAC changes no converter. -/
theorem deviceTakes_dac_adc (s : State) {a : Addr} (r : Byte) (bs : List Byte) (ans : Answer) (h : a = s.cfg.dacAddr) :
    (s.deviceTakes a r bs ans).adc = s.adc := by
  unfold State.deviceTakes
  rw [if_pos h, dacTakes_adc]

/-- What the addressed converter holds after it took a write. -/
theorem deviceTakes_converter_same (s : State) {a : Addr} (r : Byte) (bs : List Byte) (ans : Answer)
    (h : a ≠ s.cfg.dacAddr) :
    (s.deviceTakes a r bs ans).converter a =
      (s.converter a).map fun d => d.take s.cfg s.now (s.marked a) r bs ans := by
  unfold State.deviceTakes
  rw [if_neg h, mapAdc_converter_same _ (fun d => AdcDev.take_addr d _ _ _ _ _ _)]
  unfold State.converter
  rw [noteOverlap_adc]

theorem deviceTakesIf_converter_other (s : State) {a b : Addr} (took : Bool) (r : Byte) (bs : List Byte) (ans : Answer)
    (h : b ≠ a) : (s.deviceTakesIf took a r bs ans).converter b = s.converter b := by
  cases took
  · rfl
  · exact deviceTakes_converter_other s r bs ans h

/-- A write to a converter leaves the DAC alone. -/
theorem deviceTakes_dac (s : State) {a : Addr} (r : Byte) (bs : List Byte) (ans : Answer) (h : a ≠ s.cfg.dacAddr) :
    (s.deviceTakes a r bs ans).dac = s.dac := by
  unfold State.deviceTakes
  rw [if_neg h]
  change (s.noteOverlap a r bs).dac = s.dac
  unfold State.noteOverlap
  split <;> rfl

theorem deviceTakesIf_dac (s : State) {a : Addr} (took : Bool) (r : Byte) (bs : List Byte) (ans : Answer)
    (h : a ≠ s.cfg.dacAddr) : (s.deviceTakesIf took a r bs ans).dac = s.dac := by
  cases took
  · rfl
  · exact deviceTakes_dac s r bs ans h

/-- A register write lets every converter but the one addressed only age. -/
theorem memWrite_onlyAges (f : FailedWrite) {a b : Addr} (r : Byte) (bs : List Byte) (s : State) (hb : b ≠ a) :
    OnlyAges s (memWrite f a r bs s).1 b := by
  have hw := writeSent_onlyAges a r bs s b
  have hd := fun took => hw.congr (deviceTakesIf_converter_other (writeSent a r bs s) took r bs s.nextAnswer hb)
    (deviceTakesIf_now _ took a r bs s.nextAnswer)
  cases h : s.answerTo a with
  | ack => rw [memWrite_ack h]; exact hd true
  | nack => rw [memWrite_nack h]; exact hd _
  | silent =>
    cases ht : s.cfg.ackTimeoutUs with
    | none => rw [memWrite_silent h ht]; exact hd _
    | some d =>
      rw [memWrite_timeout h ht]
      exact (hd _).trans (advance_onlyAges _ _ b) (Nat.le_add_right _ _)

/-- A register write to a converter leaves the DAC alone. -/
theorem memWrite_dac (f : FailedWrite) {a : Addr} (r : Byte) (bs : List Byte) (s : State) (ha : a ≠ s.cfg.dacAddr) :
    (memWrite f a r bs s).1.dac = s.dac := by
  have hd : ∀ took, ((writeSent a r bs s).deviceTakesIf took a r bs s.nextAnswer).dac = s.dac :=
    fun took => deviceTakesIf_dac _ took r bs s.nextAnswer ha
  cases h : s.answerTo a with
  | ack => rw [memWrite_ack h]; exact hd true
  | nack => rw [memWrite_nack h]; exact hd _
  | silent =>
    cases ht : s.cfg.ackTimeoutUs with
    | none => rw [memWrite_silent h ht]; exact hd _
    | some d => rw [memWrite_timeout h ht]; exact hd _

/-- A register read leaves the DAC and the marks alone. -/
theorem memRead_dac_faults (a : Addr) (r : Byte) (n : Nat) (s : State) :
    (memRead a r n s).1.dac = s.dac ∧ (memRead a r n s).1.faults = s.faults := by
  have hr : ∀ took, (readSent a r n took s).dac = s.dac ∧ (readSent a r n took s).faults = s.faults := by
    intro took
    cases took <;> exact ⟨rfl, rfl⟩
  cases h : s.answerTo a with
  | ack => rw [memRead_ack h]; exact hr _
  | nack => rw [memRead_nack h]; exact hr _
  | silent =>
    cases ht : s.cfg.ackTimeoutUs with
    | none => rw [memRead_silent h ht]; exact hr _
    | some d => rw [memRead_timeout h ht]; exact hr _

theorem readSent_onlyAges {a b : Addr} (r : Byte) (n : Nat) (took : Bool) (s : State) (hb : b ≠ a) :
    OnlyAges s (readSent a r n took s) b := by
  have h0 : OnlyAges s (s.popAnswer.transfer a (2 + n)) b := OnlyAges.of_adc rfl b
  cases took
  · exact h0
  · exact h0.congr (mapAdc_converter_other _ (fun _ => rfl) hb) rfl

/-- A register read lets every converter but the one addressed only age. -/
theorem memRead_onlyAges {a b : Addr} (r : Byte) (n : Nat) (s : State) (hb : b ≠ a) :
    OnlyAges s (memRead a r n s).1 b := by
  have hr := fun took => readSent_onlyAges r n took s hb
  cases h : s.answerTo a with
  | ack => rw [memRead_ack h]; exact hr _
  | nack => rw [memRead_nack h]; exact hr _
  | silent =>
    cases ht : s.cfg.ackTimeoutUs with
    | none => rw [memRead_silent h ht]; exact hr _
    | some d =>
      rw [memRead_timeout h ht]
      exact (hr _).trans (advance_onlyAges _ _ b) (Nat.le_add_right _ _)

end Sys2Proof.Machine
end

