-- ==== Sys2Proof/Laws/Exec.lean ====
section
/-!
SUPPORT. exec, operation by operation, as one run of its body; and what an answered next state says at once.
-/

namespace Sys2Proof.Machine

theorem exec_wrreg (a : Addr) (r : Byte) (bs : List Byte) (s : State) :
    exec (.wrreg a r bs) s = run .wrreg (wrregStop s.cfg a r bs)
      (fun t => complete .wrreg (fun _ => 0) (fun _ => .empty) (memWrite .drawn a r bs t)) s := rfl

theorem exec_rdreg (a : Addr) (r : Byte) (len : BitVec 8) (s : State) :
    exec (.rdreg a r len) s = run .rdreg (rdregStop s.cfg a r len)
      (fun t => complete .rdreg (fun _ => 0) Result.bytes (memRead a r len.toNat t)) s := rfl

theorem exec_settle (dur : BitVec 24) (s : State) :
    exec (.settle dur) s = run .settle none (fun t => finish .settle 0 .empty (delay dur.toNat t)) s := rfl

theorem exec_rdch (a : Addr) (ch : BitVec 4) (g dr : BitVec 3) (cd : Bool) (s : State) :
    exec (.rdch a ch g dr cd) s = run .rdch (channelStop s.cfg ⟨a, ch, g, dr, cd⟩)
      (fun t => completeReading (readChannel ⟨a, ch, g, dr, cd⟩ t)) s := rfl

theorem exec_setcode (code : Half) (s : State) :
    exec (.setcode code) s = run .setcode none
      (fun t => complete .setcode codeSmall (fun _ => .empty) (writeCode (clampCode (toS16 code)) t)) s := rfl

theorem exec_seten (e : Bool) (s : State) :
    exec (.seten e) s = run .seten none (fun t => finish .seten 0 .empty (t.setEnabled e)) s := rfl

theorem exec_ctrl (s : State) :
    exec .ctrl s = run .ctrl (channelStop s.cfg s.cfg.refChannel)
      (fun t => complete .ctrl codeSmall (fun _ => .empty) (controlStep t)) s := rfl

theorem exec_fmtrec (fs : List Field) (s : State) :
    exec (.fmtrec fs) s = run .fmtrec (recordStop s.cfg fs)
      (fun t => finish .fmtrec 0 (.line (recordLine t.cfg fs)) t) s := rfl

theorem exec_txrec (fs : List Field) (s : State) :
    exec (.txrec fs) s = run .txrec (recordStop s.cfg fs) (fun t => finish .txrec 0 .empty (sendRecord fs t)) s := rfl

theorem exec_diagln (ps : List (Key × Field)) (s : State) :
    exec (.diagln ps) s = run .diagln (diagStop s.cfg ps)
      (fun t => finish .diagln 0 .empty (txBytes (diagLine t.cfg ps) t)) s := rfl

theorem exec_cycle (s : State) : exec .cycle s = run .cycle (cycleStop s.cfg) cycleBody s := rfl

/-- Every operation is one `run`: of its name, of what stops it in this configuration, of its body. -/
theorem exec_eq_run (i : Instr) (s : State) : ∃ op stop body, exec i s = run op stop body s := by
  cases i with
  | wrreg a r bs => exact ⟨_, _, _, exec_wrreg a r bs s⟩
  | rdreg a r len => exact ⟨_, _, _, exec_rdreg a r len s⟩
  | settle dur => exact ⟨_, _, _, exec_settle dur s⟩
  | rdch a ch g dr cd => exact ⟨_, _, _, exec_rdch a ch g dr cd s⟩
  | setcode code => exact ⟨_, _, _, exec_setcode code s⟩
  | seten e => exact ⟨_, _, _, exec_seten e s⟩
  | ctrl => exact ⟨_, _, _, exec_ctrl s⟩
  | fmtrec fs => exact ⟨_, _, _, exec_fmtrec fs s⟩
  | txrec fs => exact ⟨_, _, _, exec_txrec fs s⟩
  | diagln ps => exact ⟨_, _, _, exec_diagln ps s⟩
  | cycle => exact ⟨_, _, _, exec_cycle s⟩

/-- An operation answers a next state only in a ready block. -/
theorem ready_of_exec {i : Instr} {s t : State} (h : exec i s = .next t) : s.Ready := by
  obtain ⟨op, stop, body, hr⟩ := exec_eq_run i s
  rw [hr] at h
  exact (run_eq_next_iff.1 h).1

/-- A ready block's sequencer is idle and its bus free. -/
theorem State.Ready.rest {s : State} (h : s.Ready) : s.seq = ⟨.idle, 0⟩ ∧ s.bus = .free := by
  simpa [State.isIdle] using h.idle

end Sys2Proof.Machine
end

