-- ==== Sys2Proof/Laws/Operands.lean ====
section
/-!
SUPPORT. Bytes and 16-bit registers: what travels in two bytes is put together again (R70, R115). The numerics: how far a
quantity can be off, and that the vectors' quantities never are (R31, D7).
-/

namespace Sys2Proof

/-- The two bytes of a register, first byte most significant, make the register. -/
theorem u16_bytes (w : Half) : u16 (w.extractLsb' 8 8) (w.extractLsb' 0 8) = w := by
  apply BitVec.eq_of_getLsbD_eq
  intro i hi
  interval_cases i <;> simp [u16]

@[simp] theorem decodeRaw_halfBytes (w : Half) : decodeRaw (halfBytes w) = w := u16_bytes w

/-- Every numerics agrees with the reference on the quantities of the test vectors (D7). -/
theorem num_vector (c : Cfg) {q : Rat} (h : q ∈ vectorQuantities) : c.num q = q := by
  unfold Cfg.num
  cases c.numerics <;> simp [h]

/-- The exact numerics is exact. -/
theorem num_exact {c : Cfg} (h : c.numerics = .exact) (q : Rat) : c.num q = q := by simp [Cfg.num, h]

/-- No numerics is off by more than 2^-23 of the quantity (log 22). -/
theorem num_within (c : Cfg) (q : Rat) : |c.num q - q| ≤ |q| / 8388608 := by
  unfold Cfg.num
  have h0 : |q - q| ≤ |q| / 8388608 := by rw [sub_self, abs_zero]; positivity
  cases c.numerics with
  | exact => exact h0
  | floating id =>
    dsimp only
    split
    · exact h0
    · have he : |max (-1) (min 1 (Config.roundoff id q))| ≤ 1 :=
        abs_le.2 ⟨le_max_left _ _, max_le (by norm_num) (min_le_left _ _)⟩
      rw [show q * (1 + max (-1) (min 1 (Config.roundoff id q)) / 8388608) - q =
        q * max (-1) (min 1 (Config.roundoff id q)) / 8388608 by ring, abs_div, abs_mul,
        abs_of_pos (by norm_num : (0 : Rat) < 8388608)]
      exact div_le_div_of_nonneg_right (mul_le_of_le_one_right (abs_nonneg q) he) (by norm_num)

end Sys2Proof
end

