-- ==== Sys2Proof/Laws/Channel.lean ====
section
/-!
SUPPORT. What a channel read does: the whole of readChannel when both transactions are acknowledged, and where it ends when
one is not. Facts of a configuration in its domain that these need.
-/

namespace Sys2Proof.Machine

/-! ### A configuration in its domain -/

/-- A converter's address is not the DAC's. -/
theorem ne_dac_of_wf {c : Cfg} (h : c.wf = true) {a : Addr} (ha : a ∈ c.adcAddr) : a ≠ c.dacAddr := by
  simp only [Cfg.wf, Cfg.addressesOk, Bool.and_eq_true] at h
  rintro rfl
  simp [ha] at h

/-- A strictly positive rational is what `posQ` says. -/
theorem posQ_iff {q : Rat} : posQ q = true ↔ 0 < q := by simp [posQ, Rat.num_pos]

/-- The rate of a member of `RATE_SET` is positive. -/
theorem rateRow_pos {c : Cfg} {r : BitVec 3} {x : RateRow} (h : rateRow c r = some x) : 0 < x.sps := by
  rw [rateRow, Option.filter_eq_some_iff] at h
  exact posQ_iff.1 h.2

/-- The full scale of a member of `GAIN_SET` is positive. -/
theorem gainRow_pos {c : Cfg} {g : BitVec 3} {x : GainRow} (h : gainRow c g = some x) : 0 < x.fsUv := by
  rw [gainRow, Option.filter_eq_some_iff] at h
  exact posQ_iff.1 h.2

/-- The settle delay of every rate of `RATE_SET` is positive. -/
theorem settleUs_pos {c : Cfg} {r : BitVec 3} (h : (rateRow c r).isSome = true) : 0 < settleUs c r := by
  obtain ⟨x, hx⟩ := Option.isSome_iff_exists.1 h
  have hq : (0 : Rat) < 1000000 / x.sps := div_pos (by norm_num) (rateRow_pos hx)
  have hc : 0 < (1000000 / x.sps).ceil := Rat.lt_ceil_iff.2 (by simpa using hq)
  simp only [settleUs, hx]
  omega

/-- A rate a config word selects is in `RATE_SET`. -/
theorem wordRate_isSome {c : Cfg} {w : Half} {r : BitVec 3} (h : wordRate c w = some r) : (rateRow c r).isSome = true := by
  unfold wordRate theOnly at h
  split at h
  · rename_i x hx
    cases h
    have hm : r ∈ (rateSet c).filter fun r => ratePattern c r == w &&& rateMask c := by rw [hx]; exact List.mem_singleton_self _
    exact (List.mem_filter.1 (List.mem_filter.1 hm).1).2
  · cases h

/-- A converter of the map is in the address map. -/
theorem inMap_of_mem {c : Cfg} {a : Addr} (h : a ∈ c.adcAddr) : inMap c a = true := by simp [inMap, h]

/-- Nothing stops a legal channel read of a device that is not the DAC. -/
theorem channelStop_legal {c : Cfg} {x : ChannelConfig} (h : legalConfig c x = true) (hd : x.addr ≠ c.dacAddr) :
    channelStop c x = none := by
  simp only [legalConfig, Bool.and_eq_true] at h
  simp [channelStop, h.1.1.1, h.1.1.2, h.1.2, h.2, hd]

/-- The coming answers depend on what is lined up and on the number of draws made, and on nothing else. -/
theorem drawAt_congr {s t : State} (ha : t.answers = s.answers) (hd : t.draws = s.draws) (k : Nat) :
    t.drawAt k = s.drawAt k := by
  induction k generalizing s t with
  | zero => simp [State.drawAt, State.nextAnswer, ha, hd]
  | succ k ih => exact ih (by simp [State.popAnswer, ha]) (by simp [State.popAnswer, hd])

/-- After one draw every coming answer is one nearer. -/
theorem drawAt_drawn {s t : State} (ha : t.answers = s.answers.tail) (hd : t.draws = s.draws + 1) (k : Nat) :
    t.drawAt k = s.drawAt (k + 1) :=
  drawAt_congr (s := s.popAnswer) ha hd k

/-! ### The config write of a channel read -/

/-- What an acknowledged conversion-triggering write of the word `w` to the converter at `a` leaves. -/
structure ConfigWritten (a : Addr) (w : Half) (s : State) (d : AdcDev) (v : State) : Prop where
  frame     : BusFrame s v
  now       : v.now = s.now + Config.tXfer 3
  log       : v.log = s.log ++ [.busW s.now v.now a (s.cfg.regConfig :: halfBytes w) .ack]
  bus       : v.bus = .free
  dac       : v.dac = s.dac
  faults    : v.faults = s.faults
  answers   : v.answers = s.answers.tail
  draws     : v.draws = s.draws + 1
  converter : v.converter a = some
    { d.upTo v.now with
      ptr := s.cfg.regConfig, cfg := w, pending := some (startConversion s.cfg v.now w s.nextAnswer) }

theorem deviceTakes_rest (s : State) {a : Addr} (r : Byte) (bs : List Byte) (ans : Answer) (h : a ≠ s.cfg.dacAddr) :
    (s.deviceTakes a r bs ans).log = s.log ∧ (s.deviceTakes a r bs ans).bus = s.bus ∧
      (s.deviceTakes a r bs ans).answers = s.answers ∧ (s.deviceTakes a r bs ans).draws = s.draws := by
  unfold State.deviceTakes
  rw [if_neg h]
  unfold State.noteOverlap
  split <;> exact ⟨rfl, rfl, rfl, rfl⟩

theorem memWrite_config {a : Addr} {w : Half} {s : State} {d : AdcDev} (f : FailedWrite) (ha : a ≠ s.cfg.dacAddr)
    (hack : s.answerTo a = .ack) (hf : FreshlyReadable s a d) (hs : startBit s.cfg w = true) :
    ∃ v, memWrite f a s.cfg.regConfig (halfBytes w) s = (v, .ok ()) ∧ ConfigWritten a w s d v := by
  obtain ⟨hc, hm, hp⟩ := hf
  have hcu : (writeSent a s.cfg.regConfig (halfBytes w) s).converter a = some (d.upTo (s.now + Config.tXfer 3)) := by
    have := writeSent_onlyAges a s.cfg.regConfig (halfBytes w) s a
    unfold OnlyAges at this
    rwa [hc] at this
  refine ⟨_, memWrite_ack hack, ?_⟩
  generalize hu : writeSent a s.cfg.regConfig (halfBytes w) s = u at hcu ⊢
  have hucfg : u.cfg = s.cfg := by rw [← hu]; rfl
  have hunow : u.now = s.now + Config.tXfer 3 := by rw [← hu]; rfl
  have hum : u.marked a = false := by rw [← hu]; exact hm
  have had : a ≠ u.cfg.dacAddr := by rw [hucfg]; exact ha
  obtain ⟨hl, hb, hn, hdr⟩ := deviceTakes_rest u s.cfg.regConfig (halfBytes w) s.nextAnswer had
  have hvn : (u.deviceTakes a s.cfg.regConfig (halfBytes w) s.nextAnswer).now = s.now + Config.tXfer 3 := by
    rw [deviceTakes_now, hunow]
  refine ⟨?_, hvn, ?_, ?_, ?_, ?_, ?_, ?_, ?_⟩
  · rw [← hu]
    exact (writeSent_busFrame _ _ _ s).trans (deviceTakes_busFrame _ _ _ _ _)
  · rw [hl, hvn, ← hu]
    show s.log ++ [Event.busW _ _ _ _ (s.answerTo a)] = _
    rw [hack]
    rfl
  · rw [hb, ← hu]; rfl
  · rw [deviceTakes_dac u _ _ _ had, ← hu]; rfl
  · have : u.faults = s.faults := by rw [← hu]; rfl
    rw [← this]
    unfold State.deviceTakes
    rw [if_neg had]
    show (u.noteOverlap _ _ _).faults = _
    unfold State.noteOverlap
    rw [if_neg]
    rw [hcu]
    simp [halfBytes, AdcDev.overlaps, hp]
  · rw [hn, ← hu]; rfl
  · rw [hdr, ← hu]; rfl
  · rw [deviceTakes_converter_same u _ _ _ had, hcu, hum, hvn, hucfg, hunow]
    simp only [Option.map_some, halfBytes, AdcDev.take, if_true, u16_bytes]
    simp [AdcDev.takeConfig, hs, hp]

/-! ### The whole of an acknowledged channel read (R85, R171) -/

/-- What a good channel read leaves. -/
structure ChannelRead (x : ChannelConfig) (raw : Half) (s t : State) : Prop where
  frame   : BusFrame s t
  bus     : t.bus = .free
  dac     : t.dac = s.dac
  faults  : t.faults = s.faults
  draws   : ∀ k, t.drawAt k = s.drawAt (k + 3)
  log     : ∃ t1 t2, t1 + settleUs s.cfg x.rate ≤ t2 ∧ t2 ≤ t.now ∧ t.log = s.log ++
    [.busW s.now t1 x.addr (s.cfg.regConfig :: halfBytes (buildConfig s.cfg x)) .ack,
      .sleep t1 t2 (settleUs s.cfg x.rate),
      .busR t2 t.now x.addr s.cfg.regConversion 2 (halfBytes raw) .ack]

/-- Both transactions acknowledged, the converter fresh, the config word read back as what it was built from: the reading is
of the conversion just started. -/
theorem readChannel_acknowledged {x : ChannelConfig} {s : State} {d : AdcDev} (hw : s.cfg.wf = true)
    (hx : x.addr ∈ s.cfg.adcAddr) (hch : legalChannel x.ch = true) (hf : FreshlyReadable s x.addr d)
    (hwa : s.ackAt 0 x.addr = .ack) (hra : s.ackAt 2 x.addr = .ack)
    (hs : startBit s.cfg (buildConfig s.cfg x) = true) (hg : wordGain s.cfg (buildConfig s.cfg x) = some x.gain)
    (hr : wordRate s.cfg (buildConfig s.cfg x) = some x.rate) :
    ∃ t, readChannel x s =
        (t, .ok ⟨encodeVolts s.cfg (s.drawAt 0).sample x.gain, x.gain,
          toVolts s.cfg (encodeVolts s.cfg (s.drawAt 0).sample x.gain) x.gain⟩) ∧
      ChannelRead x (encodeVolts s.cfg (s.drawAt 0).sample x.gain) s t := by
  have hd := ne_dac_of_wf hw hx
  generalize hs1 : (s.setSeq .rdch 0).setSeq .rdch 1 = s1
  have hcfg1 : s1.cfg = s.cfg := by rw [← hs1]; rfl
  have hn1 : s1.nextAnswer = s.drawAt 0 := by rw [← hs1]; rfl
  have hack : s1.answerTo x.addr = .ack := by rw [State.answerTo, hn1, hcfg1]; exact hwa
  have hf1 : FreshlyReadable s1 x.addr d := by rw [← hs1]; exact hf
  have hfr1 : BusFrame s s1 := by rw [← hs1]; exact (setSeq_busFrame s _ _).trans (setSeq_busFrame _ _ _)
  obtain ⟨v, hv, hwr⟩ := memWrite_config .drawn (hcfg1 ▸ hd) hack hf1 (w := buildConfig s.cfg x) (hcfg1 ▸ hs)
  have hnow1 : s1.now = s.now := by rw [← hs1]; rfl
  have hvcfg : v.cfg = s.cfg := hwr.frame.cfg.trans hcfg1
  have hvd : ∀ k, v.drawAt k = s.drawAt (k + 1) := fun k =>
    drawAt_drawn (by rw [hwr.answers, ← hs1]; rfl) (by rw [hwr.draws, ← hs1]; rfl) k
  have hmain : readChannel x s = rdchAfterWrite x v := by
    unfold readChannel
    simp only [hch, if_true]
    rw [show (s.setSeq Op.rdch 0).cfg = s1.cfg from hcfg1.symm, hs1]
    rw [show buildConfig s1.cfg x = buildConfig s.cfg x by rw [hcfg1], hv, andThen_ok]
  -- the settle delay
  generalize hq : (delay (settleUs s.cfg x.rate) (v.setSeq .rdch 2)).setSeq .rdch 3 = q
  have hqcfg : q.cfg = s.cfg := by rw [← hq]; exact hvcfg
  have hqd : ∀ k, q.drawAt k = s.drawAt (k + 2) := fun k =>
    (drawAt_drawn (s := v) (by rw [← hq]; rfl) (by rw [← hq]; rfl) k).trans (hvd (k + 1))
  have hqn : q.now = v.now + (settleUs s.cfg x.rate + (v.setSeq .rdch 2).nextAnswer.extra) := by rw [← hq]; rfl
  have hqack : q.answerTo x.addr = .ack := by
    rw [State.answerTo, show q.nextAnswer = s.drawAt 2 from hqd 0, hqcfg]; exact hra
  have hqc : ∃ e, q.converter x.addr = some e ∧ e.conv = encodeVolts s.cfg (s.drawAt 0).sample x.gain ∧
      e.pending = none := by
    have hage := delay_onlyAges (settleUs s.cfg x.rate) (v.setSeq .rdch 2) x.addr
    unfold OnlyAges at hage
    rw [show (v.setSeq .rdch 2).converter x.addr = v.converter x.addr from rfl, hwr.converter, Option.map_some,
      AdcDev.upTo_some rfl, if_pos] at hage
    · rw [← hq]
      refine ⟨_, hage, ?_, rfl⟩
      show (startConversion s1.cfg v.now (buildConfig s.cfg x) s1.nextAnswer).result = _
      rw [hn1, hcfg1]
      simp only [startConversion, hg]
    · show (startConversion s1.cfg v.now (buildConfig s.cfg x) s1.nextAnswer).tDone ≤
        v.now + (settleUs s.cfg x.rate + (v.setSeq .rdch 2).nextAnswer.extra)
      rw [hcfg1]
      simp only [startConversion, hr]
      have hlt := Nat.mod_lt s1.nextAnswer.doneAfter (settleUs_pos (wordRate_isSome hr))
      generalize s1.nextAnswer.doneAfter % settleUs s.cfg x.rate = m at hlt ⊢
      omega
  have hqm : q.marked x.addr = false := by
    have : q.faults = s1.faults := by rw [← hq]; exact hwr.faults
    rw [State.marked, this]
    exact hf1.2.1
  have hread : q.deviceReads x.addr s.cfg.regConversion 2 q.nextAnswer =
      halfBytes (encodeVolts s.cfg (s.drawAt 0).sample x.gain) := by
    obtain ⟨e, he, hconv, hpend⟩ := hqc
    simp [State.deviceReads, he, AdcDev.readBytes, hqm, hqcfg, AdcDev.upTo_none hpend, hpend, hconv]
  have hmr := memRead_ack (r := s.cfg.regConversion) (n := 2) hqack
  rw [hread] at hmr
  have hqlog : q.log = v.log ++ [.sleep v.now q.now (settleUs s.cfg x.rate)] := by rw [← hq]; rfl
  refine ⟨((readSent x.addr s.cfg.regConversion 2 true q).record (.busR q.now (q.now + Config.tXfer (2 + 2)) x.addr
    s.cfg.regConversion 2 (halfBytes (encodeVolts s.cfg (s.drawAt 0).sample x.gain)) .ack)).setSeq .rdch 4, ?_, ?_⟩
  · rw [hmain]
    unfold rdchAfterWrite
    rw [hvcfg]
    show (memRead x.addr (delay (settleUs s.cfg x.rate) (v.setSeq .rdch 2)).cfg.regConversion 2
      ((delay (settleUs s.cfg x.rate) (v.setSeq .rdch 2)).setSeq .rdch 3)).andThen _ = _
    rw [hq, show (delay (settleUs s.cfg x.rate) (v.setSeq .rdch 2)).cfg = s.cfg from hvcfg, hmr, andThen_ok]
    refine Prod.ext rfl (congrArg Except.ok ?_)
    show readingOf q.cfg _ _ = _
    rw [hqcfg]
    simp [readingOf]
  · refine ⟨?_, rfl, ?_, ?_, ?_, v.now, q.now, ?_, Nat.le_add_right _ _, ?_⟩
    · have h1 : BusFrame v q := by
        rw [← hq]
        exact (setSeq_busFrame v _ _).trans ((delay_busFrame _ _).trans (setSeq_busFrame _ _ _))
      exact (hfr1.trans hwr.frame).trans (h1.trans ((readSent_busFrame _ _ _ _ _).trans
        ((record_busFrame _ _).trans (setSeq_busFrame _ _ _))))
    · show q.dac = _; rw [← hq]; show v.dac = _; rw [hwr.dac, ← hs1]; rfl
    · show q.faults = _; rw [← hq]; show v.faults = _; rw [hwr.faults, ← hs1]; rfl
    · exact fun k => (drawAt_drawn (s := q) rfl rfl k).trans (hqd (k + 1))
    · rw [hqn]; omega
    · show q.log ++ [_] = _
      rw [hqlog, hwr.log, hnow1, hcfg1, show s1.log = s.log by rw [← hs1]; rfl]
      simp

end Sys2Proof.Machine
end

