-- ==== Sys2Proof/Laws/Drivers.lean ====
section
/-!
SUPPORT. What a channel read and a DAC write can do, said once each: readChannel_frame (R171, R177) and writeCode_frame (R204).
-/

namespace Sys2Proof.Machine

/-- Where no conversion is overdue, a converter left alone for no time has only aged (R81). -/
theorem OnlyAges.of_untouched {s t : State} (h : s.Inv) (ha : t.adc = s.adc) (hn : t.now = s.now) (b : Addr) :
    OnlyAges s t b := by
  unfold OnlyAges State.converter
  rw [ha, hn]
  cases hf : s.adc.find? (fun d => d.addr == b) with
  | none => rfl
  | some d =>
    rw [Option.map_some]
    cases hp : d.pending with
    | none => rw [AdcDev.upTo_none hp]
    | some k =>
      have := (h.conversions d (List.mem_of_find?_eq_some hf) k hp).2.1
      rw [AdcDev.upTo_some hp, if_neg (by omega)]

/-! ### Marks: at most the overlap of the addressed converter is added (R83) -/

theorem noteOverlap_faults (s : State) (a : Addr) (r : Byte) (bs : List Byte) :
    (s.noteOverlap a r bs).faults = s.faults ∨ (s.noteOverlap a r bs).faults = s.faults ++ [.conversionOverlap a] := by
  unfold State.noteOverlap
  split
  · exact .inr rfl
  · exact .inl rfl

theorem dacTakes_faults (s : State) (r : Byte) (bs : List Byte) : (s.dacTakes r bs).faults = s.faults := by
  unfold State.dacTakes
  split
  · split <;> rfl
  · rfl

theorem deviceTakesIf_faults (s : State) (took : Bool) (a : Addr) (r : Byte) (bs : List Byte) (ans : Answer) :
    (s.deviceTakesIf took a r bs ans).faults = s.faults ∨
      (s.deviceTakesIf took a r bs ans).faults = s.faults ++ [.conversionOverlap a] := by
  cases took
  · exact .inl rfl
  · unfold State.deviceTakesIf State.deviceTakes
    rw [if_pos rfl]
    split
    · exact .inl (dacTakes_faults s r bs)
    · exact noteOverlap_faults s a r bs

theorem memWrite_faults (f : FailedWrite) (a : Addr) (r : Byte) (bs : List Byte) (s : State) :
    (memWrite f a r bs s).1.faults = s.faults ∨ (memWrite f a r bs s).1.faults = s.faults ++ [.conversionOverlap a] := by
  have hd := fun took => deviceTakesIf_faults (writeSent a r bs s) took a r bs s.nextAnswer
  cases h : s.answerTo a with
  | ack => rw [memWrite_ack h]; exact hd true
  | nack => rw [memWrite_nack h]; exact hd _
  | silent =>
    cases ht : s.cfg.ackTimeoutUs with
    | none => rw [memWrite_silent h ht]; exact hd _
    | some d => rw [memWrite_timeout h ht]; exact hd _

/-! ### A channel read -/

/-- All that a channel read of `x`, whatever it is answered, does to the rest of the machine (R171); on a bad channel no time
passes (R177; log 34). -/
structure ReadFrame (x : ChannelConfig) (s t : State) : Prop where
  frame  : BusFrame s t
  dac    : t.dac = s.dac
  faults : t.faults = s.faults ∨ t.faults = s.faults ++ [.conversionOverlap x.addr]
  grows  : Grows s t
  ages   : legalChannel x.ch = true → ∀ b, b ≠ x.addr → OnlyAges s t b
  bad    : legalChannel x.ch = false → t.adc = s.adc ∧ t.now = s.now

theorem ReadFrame.thenRead {x : ChannelConfig} {s u : State} (h : ReadFrame x s u) (hl : legalChannel x.ch = true) :
    ReadFrame x s (rdchAfterWrite x u).1 := by
  have hr : ∀ (r : Byte) (q : State), q = (delay (settleUs u.cfg x.rate) (u.setSeq .rdch 2)).setSeq .rdch 3 →
      ReadFrame x s (memRead x.addr r 2 q).1 := by
    intro r q hq
    have fq : BusFrame u q := hq ▸ (setSeq_busFrame u _ _).trans ((delay_busFrame _ _).trans (setSeq_busFrame _ _ _))
    have gq : Grows u q := hq ▸ (setSeq_grows u _ _).trans ((delay_grows _ _).trans (setSeq_grows _ _ _))
    have aq : ∀ b, OnlyAges u q b := fun b => hq ▸ delay_onlyAges _ (u.setSeq .rdch 2) b
    have dq : q.dac = u.dac ∧ q.faults = u.faults := hq ▸ ⟨rfl, rfl⟩
    obtain ⟨hd, hf⟩ := memRead_dac_faults x.addr r 2 q
    have gr := memRead_grows x.addr r 2 q
    exact ⟨h.frame.trans (fq.trans (memRead_busFrame _ _ _ _)), (hd.trans dq.1).trans h.dac,
      by rw [hf, dq.2]; exact h.faults, h.grows.trans (gq.trans gr),
      fun _ b hb => ((h.ages hl b hb).trans (aq b) gq.now).trans (memRead_onlyAges r 2 q hb) gr.now, by simp [hl]⟩
  have k := hr (delay (settleUs u.cfg x.rate) (u.setSeq .rdch 2)).cfg.regConversion _ rfl
  show ReadFrame x s ((memRead x.addr (delay (settleUs u.cfg x.rate) (u.setSeq .rdch 2)).cfg.regConversion 2
    ((delay (settleUs u.cfg x.rate) (u.setSeq .rdch 2)).setSeq .rdch 3)).andThen _).1
  generalize memRead x.addr (delay (settleUs u.cfg x.rate) (u.setSeq .rdch 2)).cfg.regConversion 2
    ((delay (settleUs u.cfg x.rate) (u.setSeq .rdch 2)).setSeq .rdch 3) = y at k
  obtain ⟨t, e | bs⟩ := y
  · exact k
  · exact ⟨k.frame.trans (setSeq_busFrame _ _ _), k.dac, k.faults, k.grows.trans (setSeq_grows _ _ _), k.ages, by simp [hl]⟩

/-- A channel read not aimed at the DAC keeps its frame. -/
theorem readChannel_frame (x : ChannelConfig) (s : State) (hd : legalChannel x.ch = true → x.addr ≠ s.cfg.dacAddr) :
    ReadFrame x s (readChannel x s).1 := by
  unfold readChannel
  cases hl : legalChannel x.ch with
  | false => exact ⟨setSeq_busFrame _ _ _, rfl, .inl rfl, setSeq_grows _ _ _, by simp [hl], fun _ => ⟨rfl, rfl⟩⟩
  | true =>
    have hw : ∀ (r : Byte) (bs : List Byte) (q : State), q = (s.setSeq .rdch 0).setSeq .rdch 1 →
        ReadFrame x s (memWrite .drawn x.addr r bs q).1 := by
      rintro r bs q rfl
      exact ⟨((setSeq_busFrame s _ _).trans (setSeq_busFrame _ _ _)).trans (memWrite_busFrame _ _ _ _ _),
        memWrite_dac _ r bs _ (hd hl), memWrite_faults _ _ _ _ _,
        ((setSeq_grows s _ _).trans (setSeq_grows _ _ _)).trans (memWrite_grows _ _ _ _ _),
        fun _ b hb => memWrite_onlyAges .drawn r bs ((s.setSeq .rdch 0).setSeq .rdch 1) hb, by simp [hl]⟩
    have k := hw (s.setSeq .rdch 0).cfg.regConfig (halfBytes (buildConfig (s.setSeq .rdch 0).cfg x)) _ rfl
    dsimp only
    rw [if_pos rfl]
    generalize memWrite .drawn x.addr (s.setSeq .rdch 0).cfg.regConfig
      (halfBytes (buildConfig (s.setSeq .rdch 0).cfg x)) ((s.setSeq .rdch 0).setSeq .rdch 1) = y at k
    obtain ⟨u, e | v⟩ := y
    · exact k
    · exact ReadFrame.thenRead k hl

/-- A channel read that is not refused is not aimed at the DAC, unless its channel is bad (log 14). -/
theorem channelStop_none_dac {c : Cfg} {x : ChannelConfig} (h : channelStop c x = none) (hl : legalChannel x.ch = true) :
    x.addr ≠ c.dacAddr := by
  intro hd
  unfold channelStop at h
  rw [if_pos hl, if_pos hd] at h
  split at h
  · split at h <;> cases h
  · cases h

/-! ### The write of a code to the DAC -/

/-- All that SETCODE's micro-steps, whatever they are answered, do to the rest of the machine (R204, R206). -/
structure CodeFrame (s t : State) : Prop where
  enabled : t.enabled = s.enabled
  tx      : t.tx = s.tx
  host    : HostFrame s t
  faults  : t.faults = s.faults
  dac     : t.dac = s.dac ∨ t.dac = t.dacCode
  ages    : ∀ b, OnlyAges s t b
  now     : s.now ≤ t.now

/-- The DAC reads the code back from the frame made of it (R84, R117). -/
theorem dacCodeOf_dacBytes (k : BitVec 12) : dacCodeOf ((k >>> 4).setWidth 8) ((k &&& 0xF).setWidth 8 <<< 4) = k := by
  apply BitVec.eq_of_getLsbD_eq
  intro i hi
  interval_cases i <;> simp [dacCodeOf]

/-- The DAC takes a code frame, or not. -/
theorem deviceTakesIf_code (s : State) (took : Bool) (k : BitVec 12) (ans : Answer) {a : Addr} (ha : a = s.cfg.dacAddr) :
    s.deviceTakesIf took a dacCmd (dacBytes k) ans = if took then s.setDac k else s := by
  cases took
  · rfl
  · show s.deviceTakes a dacCmd (dacBytes k) ans = s.setDac k
    unfold State.deviceTakes
    rw [if_pos ha]
    show (if dacCmd = dacCmd then s.setDac (dacCodeOf _ _) else s) = _
    rw [if_pos rfl, dacCodeOf_dacBytes]

/-- The DAC write of a code keeps its frame. -/
theorem writeCode_frame (k : BitVec 12) (s : State) : CodeFrame s (writeCode k s).1 := by
  have hq : ∀ q, q = ((s.setSeq .setcode 0).setDacCode k).setSeq .setcode 1 →
      CodeFrame s (settleCode s.dacCode k (memWrite .untouched s.cfg.dacAddr dacCmd (dacBytes k) q)).1 := by
    intro q hq
    have hc : s.cfg.dacAddr = q.cfg.dacAddr := by rw [hq]; rfl
    have hn : q.now = s.now := by rw [hq]; rfl
    have hs : CodeFrame s (writeSent s.cfg.dacAddr dacCmd (dacBytes k) q) := by
      have f := writeSent_busFrame s.cfg.dacAddr dacCmd (dacBytes k) q
      have g := writeSent_grows s.cfg.dacAddr dacCmd (dacBytes k) q
      refine ⟨by rw [f.enabled, hq]; rfl, by rw [f.tx, hq]; rfl,
        ⟨by rw [f.host, hq]; rfl, by rw [f.cfg, hq]; rfl, by rw [f.inputs, hq]; rfl⟩, by rw [hq]; rfl,
        .inl (by rw [hq]; rfl), fun b => ?_, hn ▸ g.now⟩
      have := writeSent_onlyAges s.cfg.dacAddr dacCmd (dacBytes k) q b
      unfold OnlyAges at *
      rw [this, show q.converter b = s.converter b by rw [hq]; rfl]
    have hk : (writeSent s.cfg.dacAddr dacCmd (dacBytes k) q).dacCode = k := by rw [hq]; rfl
    have hd := deviceTakesIf_code (writeSent s.cfg.dacAddr dacCmd (dacBytes k) q) (k := k) (ans := q.nextAnswer) (ha := hc)
    generalize hv : writeSent s.cfg.dacAddr dacCmd (dacBytes k) q = v at hs hk hd
    have hs0 : v.dac = s.dac := by rw [← hv, hq]; rfl
    have taken : CodeFrame s (v.setDac k) :=
      ⟨hs.enabled, hs.tx, ⟨hs.host.host, hs.host.cfg, hs.host.inputs⟩, hs.faults, .inr hk.symm, hs.ages, hs.now⟩
    cases h : q.answerTo s.cfg.dacAddr with
    | ack =>
      rw [memWrite_ack h, hv, show v.deviceTakes s.cfg.dacAddr dacCmd (dacBytes k) q.nextAnswer = v.setDac k from hd true]
      exact taken
    | nack =>
      rw [memWrite_nack h, hv]
      exact ⟨hs.enabled, hs.tx, ⟨hs.host.host, hs.host.cfg, hs.host.inputs⟩, hs.faults, .inl hs0, hs.ages, hs.now⟩
    | silent =>
      cases ht : q.cfg.ackTimeoutUs with
      | none => rw [memWrite_silent h ht, hv, hd]; cases q.nextAnswer.took <;> assumption
      | some d =>
        rw [memWrite_timeout h ht, hv]
        exact ⟨hs.enabled, hs.tx, ⟨hs.host.host, hs.host.cfg, hs.host.inputs⟩, hs.faults, .inl hs0,
          fun b => (hs.ages b).trans (advance_onlyAges _ _ b) (Nat.le_add_right _ _), hs.now.trans (Nat.le_add_right _ _)⟩
  exact hq _ rfl

end Sys2Proof.Machine
end

