-- ==== Sys2Proof/Laws/HostSide.lean ====
section
/-!
SUPPORT. The samples a calibration keeps (R286, U7), and how many it took.
-/

namespace Sys2Proof.Machine

/-- Without an outlier rejection every sample is kept, "the plain-mean behavior as the default" (R286). -/
theorem keptSamples_default {k : Calibration} (h : k.rejection = none) (xs : List Rat) : keptSamples k xs = xs := by
  simp [keptSamples, h]

/-- A rejection only drops samples (log 37). -/
theorem keptSamples_sublist (k : Calibration) (xs : List Rat) : (keptSamples k xs).Sublist xs := by
  unfold keptSamples
  cases k.rejection with
  | none => exact List.Sublist.refl xs
  | some id => exact List.filter_sublist

/-- A calibration whose samples all succeed took as many as it was asked for (R286). -/
theorem takeSamples_length (k : Calibration) (n : Nat) (s : State) {xs : List Rat} (h : (takeSamples k n s).2 = .ok xs) :
    xs.length = n := by
  induction n generalizing s xs with
  | zero => cases h; rfl
  | succ n ih =>
    simp only [takeSamples] at h
    split at h
    · cases h
    · dsimp only at h
      generalize hr : takeSamples k n (waitFor k.gapUs (completeReading (readChannel k.channel s))) = rest at h
      obtain ⟨t, e | ys⟩ := rest
      · cases h
      · cases h
        simp [ih _ (congrArg Prod.snd hr)]

end Sys2Proof.Machine
end

