-- ==== Sys2Proof/Laws/Logarithm.lean ====
section
/-!
SUPPORT. The host's logarithm: strictly increasing, and between two bounds that hold of the logarithm itself (R282; log 25).
-/

namespace Sys2Proof.Machine

theorem lnSteps_pos : (0 : Rat) < lnSteps := by norm_num [lnSteps]

/-- The midpoint strips grow with `y`. -/
theorem lnMidpoint_strictMono {y z : Rat} (hy : 0 ≤ y) (h : y < z) : lnMidpoint y < lnMidpoint z := by
  have hn := lnSteps_pos
  refine Finset.sum_lt_sum_of_nonempty (by simp [lnSteps]) fun i _ => ?_
  have hi : (0 : Rat) ≤ i := Nat.cast_nonneg i
  rw [div_lt_div_iff₀ (by positivity) (by have := hy.trans_lt h; positivity)]
  nlinarith

/-- The trapezoid strips grow with `y`. -/
theorem lnTrapezoid_strictMono {y z : Rat} (hy : 0 ≤ y) (h : y < z) : lnTrapezoid y < lnTrapezoid z := by
  have hn := lnSteps_pos
  have hz : 0 < z := hy.trans_lt h
  have key : ∀ k : Rat, 0 ≤ k → y / (lnSteps + k * y) < z / (lnSteps + k * z) := fun k hk => by
    rw [div_lt_div_iff₀ (by positivity) (by positivity)]
    nlinarith
  refine Finset.sum_lt_sum_of_nonempty (by simp [lnSteps]) fun i _ => ?_
  have hi : (0 : Rat) ≤ i := Nat.cast_nonneg i
  have split : ∀ t : Rat, t / 2 * (1 / (lnSteps + i * t) + 1 / (lnSteps + (i + 1) * t)) =
      (t / (lnSteps + i * t) + t / (lnSteps + (i + 1) * t)) / 2 := fun t => by ring
  rw [split, split]
  linarith [key i hi, key (i + 1) (by positivity)]

theorem lnMidpoint_zero : lnMidpoint 0 = 0 := by simp [lnMidpoint]

theorem lnTrapezoid_zero : lnTrapezoid 0 = 0 := by simp [lnTrapezoid]

theorem lnMidpoint_nonneg {y : Rat} (hy : 0 ≤ y) : 0 ≤ lnMidpoint y := by
  have hn := lnSteps_pos
  exact Finset.sum_nonneg fun i _ => by positivity

theorem lnTrapezoid_pos {y : Rat} (hy : 0 < y) : 0 < lnTrapezoid y := by
  simpa [lnTrapezoid_zero] using lnTrapezoid_strictMono le_rfl hy

theorem lnMidpoint_pos {y : Rat} (hy : 0 < y) : 0 < lnMidpoint y := by
  simpa [lnMidpoint_zero] using lnMidpoint_strictMono le_rfl hy

/-! ### Octaves -/

/-- From 1 on, `x` lies between its power of two and the next. -/
theorem octaves_spec {x : Rat} (hx : 1 ≤ x) : 2 ^ octaves x ≤ x ∧ x < 2 ^ (octaves x + 1) := by
  have hf : (1 : Int) ≤ x.floor := Rat.le_floor_iff.2 (by exact_mod_cast hx)
  have hn : x.floor.toNat ≠ 0 := by omega
  have hc : ((x.floor.toNat : Nat) : Rat) = (x.floor : Rat) := by
    have : ((x.floor.toNat : Nat) : Int) = x.floor := Int.toNat_of_nonneg (by omega)
    exact_mod_cast congrArg (Int.cast : Int → Rat) this
  constructor
  · have h : (2 : Rat) ^ octaves x ≤ (x.floor.toNat : Rat) := by exact_mod_cast Nat.log2_self_le hn
    exact (h.trans_eq hc).trans (Rat.floor_le x)
  · have h : x.floor.toNat + 1 ≤ 2 ^ (octaves x + 1) := Nat.lt_log2_self
    have h' : (x.floor.toNat : Rat) + 1 ≤ 2 ^ (octaves x + 1) := by exact_mod_cast h
    rw [hc] at h'
    linarith [Rat.lt_floor (x := x)]

/-- What is left of `x` in its octave. -/
theorem octaves_rest {x : Rat} (hx : 1 ≤ x) : 0 ≤ x / 2 ^ octaves x - 1 ∧ x / 2 ^ octaves x - 1 < 1 := by
  obtain ⟨h1, h2⟩ := octaves_spec hx
  have hp : (0 : Rat) < 2 ^ octaves x := by positivity
  rw [pow_succ] at h2
  exact ⟨by rw [sub_nonneg, le_div_iff₀ hp]; linarith, by rw [sub_lt_iff_lt_add, div_lt_iff₀ hp]; linarith⟩

theorem octaves_mono {x y : Rat} (hx : 1 ≤ x) (h : x ≤ y) : octaves x ≤ octaves y := by
  have h1 := (octaves_spec hx).1.trans_lt (h.trans_lt (octaves_spec (hx.trans h)).2)
  have := (pow_lt_pow_iff_right₀ (by norm_num : (1 : Rat) < 2)).1 h1
  omega

theorem octaves_one : octaves 1 = 0 := by decide

theorem lnByOctaves_one {f : Rat → Rat} (f0 : f 0 = 0) : lnByOctaves f 1 = 0 := by simp [lnByOctaves, octaves_one, f0]

/-- Strictly increasing strips make a strictly increasing bound. -/
theorem lnByOctaves_strictMono {f : Rat → Rat} (hf : ∀ y z, 0 ≤ y → y < z → f y < f z) (f0 : f 0 = 0) {x y : Rat}
    (hx : 1 ≤ x) (h : x < y) : lnByOctaves f x < lnByOctaves f y := by
  have hk := octaves_mono hx h.le
  obtain ⟨hx0, hx1⟩ := octaves_rest hx
  obtain ⟨hy0, -⟩ := octaves_rest (hx.trans h.le)
  have f1 : 0 < f 1 := by simpa [f0] using hf 0 1 le_rfl one_pos
  rcases hk.eq_or_lt with hk | hk
  · have : x / 2 ^ octaves x - 1 < y / 2 ^ octaves y - 1 := by
      rw [hk]
      exact sub_lt_sub_right (div_lt_div_of_pos_right h (by positivity)) 1
    have := hf _ _ hx0 this
    unfold lnByOctaves
    rw [hk] at this ⊢
    linarith
  · have hlt := hf _ _ hx0 hx1
    have hge : 0 ≤ f (y / 2 ^ octaves y - 1) := by
      rcases hy0.eq_or_lt with h0 | h0
      · rw [← h0, f0]
      · have := hf _ _ le_rfl h0; linarith
    have hkr : (octaves x : Rat) + 1 ≤ octaves y := by exact_mod_cast hk
    unfold lnByOctaves
    nlinarith

/-- Two bounds that start at 0 and strictly increase from 1 on make one that strictly increases on positive numbers. -/
theorem lnBySides_strictMono {f g : Rat → Rat} (hf : ∀ {x y}, 1 ≤ x → x < y → f x < f y) (hg : ∀ {x y}, 1 ≤ x → x < y → g x < g y)
    (f1 : f 1 = 0) (g1 : g 1 = 0) {x y : Rat} (hx : 0 < x) (h : x < y) : lnBySides f g x < lnBySides f g y := by
  have below : ∀ {t : Rat}, 0 < t → ¬ 1 ≤ t → 1 < 1 / t := fun ht h1 => by rw [lt_div_iff₀ ht]; linarith
  have hy : 0 < y := hx.trans h
  unfold lnBySides
  by_cases h1 : 1 ≤ x
  · rw [if_pos h1, if_pos (h1.trans h.le)]
    exact hf h1 h
  · rw [if_neg h1]
    by_cases h2 : 1 ≤ y
    · rw [if_pos h2]
      have hgx := hg le_rfl (below hx h1)
      rcases h2.eq_or_lt with h0 | h0
      · rw [← h0, f1]; linarith
      · have := hf le_rfl h0; linarith
    · rw [if_neg h2]
      linarith [hg (below hy h2).le (one_div_lt_one_div_of_lt hx h)]

/-- The host's logarithm is strictly increasing on positive numbers. -/
theorem hostLn_strictMono {x y : Rat} (hx : 0 < x) (h : x < y) : hostLn x < hostLn y := by
  have hm : ∀ {x y : Rat}, 1 ≤ x → x < y → lnByOctaves lnMidpoint x < lnByOctaves lnMidpoint y :=
    lnByOctaves_strictMono (fun _ _ => lnMidpoint_strictMono) lnMidpoint_zero
  have ht : ∀ {x y : Rat}, 1 ≤ x → x < y → lnByOctaves lnTrapezoid x < lnByOctaves lnTrapezoid y :=
    lnByOctaves_strictMono (fun _ _ => lnTrapezoid_strictMono) lnTrapezoid_zero
  have hm1 := lnByOctaves_one lnMidpoint_zero
  have ht1 := lnByOctaves_one lnTrapezoid_zero
  have ho : (if 1 ≤ x then x - 1 else 1 - 1 / x) < if 1 ≤ y then y - 1 else 1 - 1 / y := by
    have := lnBySides_strictMono (f := fun t => t - 1) (g := fun t => t - 1) (fun _ h => sub_lt_sub_right h 1)
      (fun _ h => sub_lt_sub_right h 1) (sub_self 1) (sub_self 1) hx h
    simpa [lnBySides] using this
  exact max_lt_max (lnBySides_strictMono hm ht hm1 ht1 hx h)
    (min_lt_min (lnBySides_strictMono ht hm ht1 hm1 hx h) (Config.lnOrder.lt_iff_lt.2 ho))

/-! ### The bounds hold of the logarithm -/

/-- One midpoint strip is below the logarithm's growth over it. -/
theorem midpoint_le_log {a y : ℝ} (ha : 0 < a) (hy : 0 ≤ y) : 2 * y / (2 * a + y) ≤ Real.log (a + y) - Real.log a := by
  rw [← Real.log_div (by positivity) ha.ne', show (a + y) / a = 1 + y / a by field_simp]
  refine le_trans (le_of_eq ?_) (Real.le_log_one_add_of_nonneg (div_nonneg hy ha.le))
  field_simp
  ring

/-- One trapezoid strip is above the logarithm's growth over it. -/
theorem log_le_trapezoid {a y : ℝ} (ha : 0 < a) (hy : 0 ≤ y) :
    Real.log (a + y) - Real.log a ≤ y / 2 * (1 / a + 1 / (a + y)) := by
  have hb : 0 < a + y := by positivity
  rw [← Real.log_div hb.ne' ha.ne']
  have hq : 1 ≤ (a + y) / a := by rw [le_div_iff₀ ha]; linarith
  have hs := Real.self_le_sinh_iff.2 (Real.log_nonneg hq)
  rw [Real.sinh_eq, Real.exp_neg, Real.exp_log (by positivity)] at hs
  refine hs.trans (le_of_eq ?_)
  field_simp
  ring

/-- The growths of the logarithm over the strips add up. -/
theorem log_strips {y : ℝ} (hy : 0 ≤ y) :
    ((Finset.range lnSteps).sum fun i => Real.log (lnSteps + i * y + y) - Real.log (lnSteps + i * y)) = Real.log (1 + y) := by
  have hn : (0 : ℝ) < lnSteps := by norm_num [lnSteps]
  have step : ∀ i : Nat, Real.log (lnSteps + i * y + y) - Real.log (lnSteps + i * y) =
      (fun k : Nat => Real.log (lnSteps + k * y)) (i + 1) - (fun k : Nat => Real.log (lnSteps + k * y)) i := fun i => by
    have : (lnSteps : ℝ) + i * y + y = lnSteps + ((i + 1 : Nat) : ℝ) * y := by push_cast; ring
    simp only [this]
  rw [Finset.sum_congr rfl fun i _ => step i, Finset.sum_range_sub (fun k : Nat => Real.log (lnSteps + k * y))]
  rw [← Real.log_div (by positivity) (by simpa using hn.ne')]
  congr 1
  field_simp
  simp

theorem lnMidpoint_le_log {y : Rat} (hy : 0 ≤ y) : (lnMidpoint y : ℝ) ≤ Real.log (1 + y) := by
  have hn : (0 : ℝ) < lnSteps := by norm_num [lnSteps]
  have hyr : (0 : ℝ) ≤ y := by exact_mod_cast hy
  rw [← log_strips hyr, lnMidpoint, Rat.cast_sum]
  refine Finset.sum_le_sum fun i _ => ?_
  have := midpoint_le_log (a := lnSteps + i * y) (by positivity) hyr
  refine le_trans (le_of_eq ?_) this
  push_cast
  congr 1
  ring

theorem log_le_lnTrapezoid {y : Rat} (hy : 0 ≤ y) : Real.log (1 + y) ≤ (lnTrapezoid y : ℝ) := by
  have hn : (0 : ℝ) < lnSteps := by norm_num [lnSteps]
  have hyr : (0 : ℝ) ≤ y := by exact_mod_cast hy
  rw [← log_strips hyr, lnTrapezoid, Rat.cast_sum]
  refine Finset.sum_le_sum fun i _ => ?_
  have := log_le_trapezoid (a := lnSteps + i * y) (by positivity) hyr
  refine le_trans this (le_of_eq ?_)
  push_cast
  rw [show (lnSteps : ℝ) + (i + 1) * y = lnSteps + i * y + y by ring]

/-- The logarithm of `x` by its octave. -/
theorem log_octaves {x : Rat} (hx : 1 ≤ x) :
    Real.log x = octaves x * Real.log (1 + 1) + Real.log (1 + ((x / 2 ^ octaves x - 1 : Rat) : ℝ)) := by
  have hxr : (0 : ℝ) < x := by exact_mod_cast one_pos.trans_le hx
  push_cast
  rw [add_sub_cancel, one_add_one_eq_two, Real.log_div hxr.ne' (by positivity), Real.log_pow]
  ring

theorem lnByOctaves_le_log {f : Rat → Rat} (hf : ∀ {y : Rat}, 0 ≤ y → (f y : ℝ) ≤ Real.log (1 + y)) {x : Rat} (hx : 1 ≤ x) :
    (lnByOctaves f x : ℝ) ≤ Real.log x := by
  rw [log_octaves hx, lnByOctaves]
  have h1 := hf zero_le_one
  rw [Rat.cast_one] at h1
  push_cast
  exact add_le_add (mul_le_mul_of_nonneg_left h1 (Nat.cast_nonneg _)) (by simpa using hf (octaves_rest hx).1)

theorem log_le_lnByOctaves {f : Rat → Rat} (hf : ∀ {y : Rat}, 0 ≤ y → Real.log (1 + y) ≤ (f y : ℝ)) {x : Rat} (hx : 1 ≤ x) :
    Real.log x ≤ (lnByOctaves f x : ℝ) := by
  rw [log_octaves hx, lnByOctaves]
  have h1 := hf zero_le_one
  rw [Rat.cast_one] at h1
  push_cast
  exact add_le_add (mul_le_mul_of_nonneg_left h1 (Nat.cast_nonneg _)) (by simpa using hf (octaves_rest hx).1)

/-- The logarithm lies within the bounds of the host's. -/
theorem log_within {x : Rat} (hx : 0 < x) : (lnLow x : ℝ) ≤ Real.log x ∧ Real.log x ≤ (lnHigh x : ℝ) := by
  have hxr : (0 : ℝ) < x := by exact_mod_cast hx
  unfold lnLow lnHigh lnBySides
  by_cases h : 1 ≤ x
  · rw [if_pos h, if_pos h]
    exact ⟨lnByOctaves_le_log lnMidpoint_le_log h, log_le_lnByOctaves log_le_lnTrapezoid h⟩
  · rw [if_neg h, if_neg h]
    have hy : 1 ≤ 1 / x := by rw [le_div_iff₀ hx]; linarith
    have hl := lnByOctaves_le_log lnMidpoint_le_log hy
    have hh := log_le_lnByOctaves log_le_lnTrapezoid hy
    push_cast at hl hh
    rw [one_div (x : ℝ), Real.log_inv] at hl hh
    push_cast
    constructor <;> linarith

/-- The two bounds are in order. -/
theorem lnLow_le_lnHigh {x : Rat} (hx : 0 < x) : lnLow x ≤ lnHigh x := by
  exact_mod_cast (log_within hx).1.trans (log_within hx).2

/-- The host's logarithm lies within the same bounds. -/
theorem hostLn_within {x : Rat} (hx : 0 < x) : lnLow x ≤ hostLn x ∧ hostLn x ≤ lnHigh x :=
  ⟨le_max_left _ _, max_le (lnLow_le_lnHigh hx) (min_le_left _ _)⟩

end Sys2Proof.Machine
end

