-- ==== Sys2Proof/Laws/Members.lean ====
section
/-!
SUPPORT. What an operation is as a member of another: no primitive and no part of an operation reads the error code or the
last response, so a member leaves the same whatever these were before it.
-/

namespace Sys2Proof.Machine

@[simp] theorem reporting_reporting (s : State) (e e' : ErrCode) (p p' : Option Response) :
    (s.reporting e p).reporting e' p' = s.reporting e' p' := rfl

@[simp] theorem reporting_self (s : State) : s.reporting s.err s.resp = s := rfl

/-- What a part of an operation leaves, under another error code and response. -/
def Res.reporting {α : Type} (x : Res α) (e : ErrCode) (p : Option Response) : Res α := (x.1.reporting e p, x.2)

theorem dacTakes_reporting (s : State) (e : ErrCode) (p : Option Response) (r : Byte) (bs : List Byte) :
    (s.reporting e p).dacTakes r bs = (s.dacTakes r bs).reporting e p := by
  unfold State.dacTakes
  split
  · split <;> rfl
  · rfl

theorem noteOverlap_reporting (s : State) (e : ErrCode) (p : Option Response) (a : Addr) (r : Byte) (bs : List Byte) :
    (s.reporting e p).noteOverlap a r bs = (s.noteOverlap a r bs).reporting e p := by
  unfold State.noteOverlap
  rw [show (s.reporting e p).marked a = s.marked a from rfl, show (s.reporting e p).converter a = s.converter a from rfl,
    show (s.reporting e p).cfg = s.cfg from rfl]
  split <;> rfl

theorem deviceTakes_reporting (s : State) (e : ErrCode) (p : Option Response) (a : Addr) (r : Byte) (bs : List Byte)
    (ans : Answer) : (s.reporting e p).deviceTakes a r bs ans = (s.deviceTakes a r bs ans).reporting e p := by
  unfold State.deviceTakes
  rw [show (s.reporting e p).cfg = s.cfg from rfl, dacTakes_reporting, noteOverlap_reporting]
  split <;> rfl

theorem deviceTakesIf_reporting (s : State) (e : ErrCode) (p : Option Response) (took : Bool) (a : Addr) (r : Byte)
    (bs : List Byte) (ans : Answer) :
    (s.reporting e p).deviceTakesIf took a r bs ans = (s.deviceTakesIf took a r bs ans).reporting e p := by
  cases took
  · rfl
  · exact deviceTakes_reporting s e p a r bs ans

theorem memWrite_reporting (f : FailedWrite) (a : Addr) (r : Byte) (bs : List Byte) (s : State) (e : ErrCode)
    (p : Option Response) : memWrite f a r bs (s.reporting e p) = (memWrite f a r bs s).reporting e p := by
  have hs : writeSent a r bs (s.reporting e p) = (writeSent a r bs s).reporting e p := rfl
  cases h : s.answerTo a with
  | ack => rw [memWrite_ack h, memWrite_ack (s := s.reporting e p) h, hs, deviceTakes_reporting]; rfl
  | nack => rw [memWrite_nack h, memWrite_nack (s := s.reporting e p) h, hs, deviceTakesIf_reporting]; rfl
  | silent =>
    cases ht : s.cfg.ackTimeoutUs with
    | none => rw [memWrite_silent h ht, memWrite_silent (s := s.reporting e p) h ht, hs, deviceTakesIf_reporting]; rfl
    | some d => rw [memWrite_timeout h ht, memWrite_timeout (s := s.reporting e p) h ht, hs, deviceTakesIf_reporting]; rfl

theorem memRead_reporting (a : Addr) (r : Byte) (n : Nat) (s : State) (e : ErrCode) (p : Option Response) :
    memRead a r n (s.reporting e p) = (memRead a r n s).reporting e p := by
  have hs : ∀ took, readSent a r n took (s.reporting e p) = (readSent a r n took s).reporting e p := by
    intro took
    cases took <;> rfl
  cases h : s.answerTo a with
  | ack => rw [memRead_ack h, memRead_ack (s := s.reporting e p) h, hs]; rfl
  | nack => rw [memRead_nack h, memRead_nack (s := s.reporting e p) h, hs]; rfl
  | silent =>
    cases ht : s.cfg.ackTimeoutUs with
    | none => rw [memRead_silent h ht, memRead_silent (s := s.reporting e p) h ht, hs]; rfl
    | some d => rw [memRead_timeout h ht, memRead_timeout (s := s.reporting e p) h ht, hs]; rfl

theorem andThen_reporting {α β : Type} (x : Res α) (k : α → State → Res β) (e : ErrCode) (p : Option Response)
    (hk : ∀ v t, k v (t.reporting e p) = (k v t).reporting e p) : (x.reporting e p).andThen k = (x.andThen k).reporting e p := by
  rcases x with ⟨t, err | v⟩
  · rfl
  · exact hk v t

/-- A channel read leaves the same whatever operation it is part of. -/
theorem readChannel_setSeq (x : ChannelConfig) (s : State) (op : Op) (n : Nat) :
    readChannel x (s.setSeq op n) = readChannel x s := rfl

theorem readChannel_reporting (x : ChannelConfig) (s : State) (e : ErrCode) (p : Option Response) :
    readChannel x (s.reporting e p) = (readChannel x s).reporting e p := by
  unfold readChannel
  by_cases h : legalChannel x.ch = true
  · simp only [h, if_true]
    rw [← andThen_reporting _ _ e p, ← memWrite_reporting]
    · rfl
    · intro _ t
      unfold rdchAfterWrite
      rw [← andThen_reporting _ _ e p, ← memRead_reporting]
      · rfl
      · intro _ _; rfl
  · simp only [h]
    rfl

/-- A DAC write leaves the same whatever operation it is part of. -/
theorem writeCode_setSeq (k : BitVec 12) (s : State) (op : Op) (n : Nat) :
    writeCode k (s.setSeq op n) = writeCode k s := rfl

theorem settleCode_reporting (old k : BitVec 12) (x : Res Unit) (e : ErrCode) (p : Option Response) :
    settleCode old k (x.reporting e p) = (settleCode old k x).reporting e p := by
  rcases x with ⟨t, err | v⟩ <;> rfl

theorem writeCode_reporting (k : BitVec 12) (s : State) (e : ErrCode) (p : Option Response) :
    writeCode k (s.reporting e p) = (writeCode k s).reporting e p := by
  unfold writeCode
  rw [← settleCode_reporting, ← memWrite_reporting]
  rfl

/-- A control step is the channel read and then the DAC write of the gated code. -/
theorem controlStep_eq (s : State) :
    controlStep s = (readChannel s.cfg.refChannel s).andThen fun v t => writeCode (gatedCode t v) t := rfl

theorem controlStep_reporting (s : State) (e : ErrCode) (p : Option Response) :
    controlStep (s.reporting e p) = (controlStep s).reporting e p := by
  rw [controlStep_eq, controlStep_eq, ← andThen_reporting, ← readChannel_reporting]
  · rfl
  · intro v t
    exact writeCode_reporting _ _ _ _

/-- The gate does not look at what a member before it reported. -/
theorem controlStep_setSeq (s : State) (op : Op) (n : Nat) : controlStep (s.setSeq op n) = controlStep s := rfl

end Sys2Proof.Machine
end

