-- ==== Sys2Proof/Laws/PerInstr.lean ====
section
/-!
SUPPORT. Per-instruction families: TableRow says that an operation's encoded word matches its row of
spec/opcode_table.json (its OP and its reserved zeros), whatever its operands are.
-/

namespace Sys2Proof.Laws.TableRow

/-- The encoded word matches the operation's row: mask and match of spec/opcode_table.json (R101 to R108). -/
def Statement (i : Instr) : Prop := encodeWord i &&& tableMask i = tableMatch i

/-- Two words are equal if all 32 bits are. -/
theorem word_ext {x y : Word} (h : ∀ i : Fin 32, x.getLsbD i = y.getLsbD i) : x = y :=
  BitVec.eq_of_getLsbD_eq fun i hi => h ⟨i, hi⟩

theorem wrreg (a : Addr) (r : Byte) (bs : List Byte) : Statement (.wrreg a r bs) := by
  refine word_ext fun i => ?_
  fin_cases i <;> simp [encodeWord, tableMask, tableMatch, put]

theorem rdreg (a : Addr) (r : Byte) (len : BitVec 8) : Statement (.rdreg a r len) := by
  refine word_ext fun i => ?_
  fin_cases i <;> simp [encodeWord, tableMask, tableMatch, put]

theorem settle (dur : BitVec 24) : Statement (.settle dur) := by
  refine word_ext fun i => ?_
  fin_cases i <;> simp [encodeWord, tableMask, tableMatch, put]

theorem rdch (a : Addr) (ch : BitVec 4) (g dr : BitVec 3) (cd : Bool) : Statement (.rdch a ch g dr cd) := by
  refine word_ext fun i => ?_
  fin_cases i <;> simp [encodeWord, tableMask, tableMatch, put]

theorem setcode (code : Half) : Statement (.setcode code) := by
  refine word_ext fun i => ?_
  fin_cases i <;> simp [encodeWord, tableMask, tableMatch, put]

theorem seten (e : Bool) : Statement (.seten e) := by cases e <;> rfl

theorem ctrl : Statement .ctrl := rfl

theorem fmtrec (fs : List Field) : Statement (.fmtrec fs) :=
  (by decide : put 8#4 28 &&& 0xFFFFFFFF = 0x80000000)

theorem txrec (fs : List Field) : Statement (.txrec fs) :=
  (by decide : put 9#4 28 &&& 0xFFFFFFFF = 0x90000000)

theorem diagln (ps : List (Key × Field)) : Statement (.diagln ps) :=
  (by decide : put 10#4 28 &&& 0xFFFFFFFF = 0xA0000000)

theorem cycle : Statement .cycle := rfl

end Sys2Proof.Laws.TableRow
end

