-- ==== Sys2Proof/Machine/Wire.lean ====
section
/-!
DEFINITION. The wire framing of a register transaction (R120, from general knowledge; log 29). No rule depends on it and no
operation reads it: the block is modelled at the level of transactions.
-/

namespace Sys2Proof.Machine

/-- What is seen on the bus: conditions, bytes the master sends with the acknowledge bit the device drives after each, and
places where the device sends a byte with the acknowledge bit the master drives after it. -/
inductive WireItem where
  | start
  | stop
  | sent (b : Byte) (deviceAcks : Bool)
  | received (masterAcks : Bool)
  deriving DecidableEq, Repr, Inhabited

/-- How the two halves of a register read are joined, which the spec leaves open (U20). -/
inductive ReadJoin where
  | repeatedStart
  | stopStart
  deriving DecidableEq, Repr, Inhabited

/-- The address byte `(a << 1) | rw` (R120). -/
def wireAddress (a : Addr) (read : Bool) : Byte := a.setWidth 8 <<< 1 ||| (BitVec.ofBool read).setWidth 8

/-- A byte the master sends and the device acknowledges. -/
def WireItem.taken (b : Byte) : WireItem := .sent b true

/-- The bytes of a register write in the order they travel: address, register, data (R64, R120). -/
def wireBytes (a : Addr) (r : Byte) (bs : List Byte) : List Byte := wireAddress a false :: r :: bs

/-- A register write on the wire, each byte acknowledged by the device (R120). -/
def wireWrite (a : Addr) (r : Byte) (bs : List Byte) : List WireItem :=
  .start :: ((wireBytes a r bs).map .taken ++ [.stop])

/-- A register write in which the device acknowledges `k` bytes and misses the next: the NACK of R66 (R120). That the master
then sends STOP at once is the model's choice (log 29). -/
def wireNack (a : Addr) (r : Byte) (bs : List Byte) (k : Nat) : List WireItem :=
  .start :: (((wireBytes a r bs).take k).map .taken ++
    ((((wireBytes a r bs).drop k).take 1).map fun b => .sent b false) ++ [.stop])

/-- The `n` bytes a device sends, the master acknowledging each but the last (R120). -/
def wireReceived : Nat → List WireItem
  | 0 => []
  | 1 => [.received false]
  | n + 2 => .received true :: wireReceived (n + 1)

/-- What stands between the two halves of a read (U20). -/
def ReadJoin.items : ReadJoin → List WireItem
  | .repeatedStart => [.start]
  | .stopStart => [.stop, .start]

/-- A register read of `n` bytes on the wire (R120). -/
def wireRead (join : ReadJoin) (a : Addr) (r : Byte) (n : Nat) : List WireItem :=
  .start :: .taken (wireAddress a false) :: .taken r ::
    (join.items ++ .taken (wireAddress a true) :: (wireReceived n ++ [WireItem.stop]))

end Sys2Proof.Machine
end

