-- ==== Sys2Proof/Tests/Slice0.lean ====
section
/-!
SUPPORT. Tests: WellFormed refuses ill-formed terms, words written out from spec/30_encoding.md decode, single steps give the
values of spec/95_test_vectors.md, and every statement with hypotheses has a state and operands that meet them (witness_*).
-/

namespace Sys2Proof.Tests

open Sys2Proof Sys2Proof.Machine

/-! ### WellFormed: one ill-formed term for each check -/

/-- LEN is one byte (R103): 256 data bytes do not fit, 255 do. -/
theorem test_wf_wrreg_length : Instr.wf (.wrreg 0x48 0x01 (List.replicate 256 0)) = false ∧
    Instr.wf (.wrreg 0x48 0x01 (List.replicate 255 0)) = true := by decide +kernel

/-- RDREG has n >= 1 (R142). -/
theorem test_wf_rdreg_zero : Instr.wf (.rdreg 0x48 0x00 0) = false ∧ Instr.wf (.rdreg 0x48 0x00 1) = true := by decide

/-- A diagnostic line has a pair, and no `:`, `,`, newline or non-ASCII byte in a key (R119, R234). -/
theorem test_wf_diagln : Instr.wf (.diagln []) = false ∧ Instr.wf (.diagln [([0x3A], .num 0)]) = false ∧
    Instr.wf (.diagln [([0x2C], .num 0)]) = false ∧ Instr.wf (.diagln [([0x0A], .num 0)]) = false ∧
    Instr.wf (.diagln [([0x80], .num 0)]) = false ∧ Instr.wf (.diagln [([0x56], .num 0), ([0x3A], .num 0)]) = false ∧
    Instr.wf (.diagln [([0x7F], .num 0)]) = true := by decide

/-! ### Decode: words written out from the layouts R103 to R108, field by field -/

/-- Layout B: OP 0001, a 1001000, r 00000001, LEN 00000010, 00000 (V1). -/
theorem test_decode_wrreg : decode 0b00011001000000000010000001000000 (.bytes [0xC3, 0x83]) =
    .ok (.wrreg 0x48 0x01 [0xC3, 0x83]) := by decide

/-- Layout B: OP 0010, a 1001000, r 00000000, LEN 00000010, 00000 (V3). -/
theorem test_decode_rdreg : decode 0b00101001000000000000000001000000 .none = .ok (.rdreg 0x48 0x00 2) := by decide

/-- Layout T: OP 0011, 0000, DUR 8813 in 24 bits (V6). -/
theorem test_decode_settle : decode 0b00110000000000000010001001101101 .none = .ok (.settle 8813) := by decide

/-- Layout C: OP 0100, a 1001000, ch 0011, g 001, dr 100, cd 1, ten zeros. -/
theorem test_decode_rdch : decode 0b01001001000001100110010000000000 .none = .ok (.rdch 0x48 3 1 4 true) := by decide

/-- Layout D: OP 0101, twelve zeros, CODE -10 in two's complement (V23). -/
theorem test_decode_setcode : decode 0b01010000000000001111111111110110 .none = .ok (.setcode (-10)) := by decide

/-- Layout E: OP 0110, 27 zeros, EN (V26). -/
theorem test_decode_seten : decode 0b01100000000000000000000000000001 .none = .ok (.seten true) ∧
    decode 0b01100000000000000000000000000000 .none = .ok (.seten false) := by decide

/-- Layout N: OP 0111 and 28 zeros (V27). -/
theorem test_decode_ctrl : decode 0b01110000000000000000000000000000 .none = .ok .ctrl := by decide

/-- Layout N: OP 1000 and 28 zeros, a field list (V30). -/
theorem test_decode_fmtrec : decode 0b10000000000000000000000000000000 (.fields [.num 12, .outOfRange]) =
    .ok (.fmtrec [.num 12, .outOfRange]) := by decide

/-- Layout N: OP 1001 and 28 zeros, a field list (V31). -/
theorem test_decode_txrec : decode 0b10010000000000000000000000000000 (.fields [.outOfRange]) =
    .ok (.txrec [.outOfRange]) := by decide

/-- Layout N: OP 1010 and 28 zeros, a list of pairs (V34). -/
theorem test_decode_diagln : decode 0b10100000000000000000000000000000 (.pairs [([0x56], .num 12)]) =
    .ok (.diagln [([0x56], .num 12)]) := by decide

/-- Layout N: OP 1011 and 28 zeros (V36). -/
theorem test_decode_cycle : decode 0b10110000000000000000000000000000 .none = .ok .cycle := by decide

/-- V5, V8, V9: RDREG with LEN 0, a reserved bit, no such operation. -/
theorem test_decode_refuses : decode 0x29000000 .none = .error .zeroLength ∧
    decode 0x19002041 (.bytes [0xC3, 0x83]) = .error .reservedBits ∧ decode 0 .none = .error .noOperation ∧
    decode 0xC0000000 .none = .error .noOperation := by decide

/-- The encoder gives the words of V1, V3, V6, V11, V20, V23 (spec/95_test_vectors.md). -/
theorem test_encode : encodeWord (.wrreg 0x48 0x01 [0xC3, 0x83]) = 0x19002040 ∧ encodeWord (.rdreg 0x48 0x00 2) = 0x29000040 ∧
    encodeWord (.settle 8813) = 0x3000226D ∧ encodeWord (.rdch 0x48 0 1 4 true) = 0x49006400 ∧
    encodeWord (.setcode 2748) = 0x50000ABC ∧ encodeWord (.setcode (-10)) = 0x5000FFF6 := by decide

/-- decodeTableWord reads a table word with its payload of zeros. -/
theorem test_decodeTableWord : decodeTableWord 32 0x19002040 = some (.wrreg 0x48 0x01 [0, 0]) ∧
    decodeTableWord 32 0x29000000 = none ∧ decodeTableWord 32 0xB0000000 = some .cycle := by decide

/-! ### The pure functions (spec/95_test_vectors.md, 2.2 to 2.4) -/

/-- The config words of the driver. -/
theorem test_buildConfig :
    buildConfig exampleDeployment ⟨0x48, 0, 1, 4, true⟩ = 0xC383 ∧
    buildConfig exampleDeployment ⟨0x48, 3, 1, 4, true⟩ = 0xF383 ∧
    buildConfig exampleDeployment ⟨0x48, 1, 5, 4, true⟩ = 0xDB83 ∧
    buildConfig exampleDeployment ⟨0x48, 3, 0, 7, true⟩ = 0xF1E3 := by decide

/-- The settle delays of rates 0 to 7. -/
theorem test_settleUs : (List.range 8).map (fun r => settleUs exampleDeployment (BitVec.ofNat 3 r)) =
    [126000, 63500, 32250, 16625, 8813, 5000, 3106, 2163] := by decide +kernel

/-- Decoding and scaling: `4E 20`, `80 00`, `FF FF` at gain 1, `03 20` at gain 5. -/
theorem test_toVolts :
    toVolts exampleDeployment (decodeRaw [0x4E, 0x20]) 1 = 5 / 2 ∧
    toVolts exampleDeployment (decodeRaw [0x80, 0x00]) 1 = -512 / 125 ∧
    toVolts exampleDeployment (decodeRaw [0xFF, 0xFF]) 1 = -1 / 8000 ∧
    toVolts exampleDeployment (decodeRaw [0x03, 0x20]) 5 = 1 / 160 := by decide +kernel

/-- MAPCODE with both tie rules, the clamped ends and the exact top. -/
theorem test_mapCode :
    mapCode exampleDeployment (-1 / 10) = 0 ∧ mapCode exampleDeployment (11 / 27300) = 0 ∧
    mapCode { exampleDeployment with roundTie := .away } (11 / 27300) = 1 ∧ mapCode exampleDeployment (11 / 9100) = 2 ∧
    mapCode exampleDeployment 1 = 1241 ∧ mapCode exampleDeployment (33 / 20) = 2048 ∧
    mapCode exampleDeployment (33 / 10) = 4095 ∧ mapCode exampleDeployment 5 = 4095 := by decide +kernel

/-- V38 and P3 under every numerics: `33 90` at gain 1 is 33/20 V, a tie, and maps to 2048 (D7). -/
theorem test_numerics (n : Numerics) :
    mapCode { exampleDeployment with numerics := n } (toVolts { exampleDeployment with numerics := n } 0x3390 1) = 2048 := by
  have hv : toVolts { exampleDeployment with numerics := n } 0x3390 1 = 33 / 20 := by
    unfold toVolts
    rw [show (toS16 0x3390 : Rat) * lsbVolts { exampleDeployment with numerics := n } 1 = 33 / 20 from
      show (toS16 0x3390 : Rat) * lsbVolts exampleDeployment 1 = 33 / 20 by decide +kernel]
    exact num_vector _ (by decide +kernel)
  rw [hv]
  exact show mapCode exampleDeployment (33 / 20) = 2048 by decide +kernel

/-- fmt3: 0.11, 999.9996, -0.0004, 0.0025, -1.2345 and -1.2345 with ties away from zero. -/
theorem test_fmt3 :
    fmt3 exampleDeployment (.num (11 / 100)) = [0x30, 0x2E, 0x31, 0x31, 0x30] ∧
    fmt3 exampleDeployment (.num (9999996 / 10000)) = [0x31, 0x30, 0x30, 0x30, 0x2E, 0x30, 0x30, 0x30] ∧
    fmt3 exampleDeployment (.num (-4 / 10000)) = [0x2D, 0x30, 0x2E, 0x30, 0x30, 0x30] ∧
    fmt3 exampleDeployment (.num (25 / 10000)) = [0x30, 0x2E, 0x30, 0x30, 0x32] ∧
    fmt3 exampleDeployment (.num (-12345 / 10000)) = [0x2D, 0x31, 0x2E, 0x32, 0x33, 0x34] ∧
    fmt3 { exampleDeployment with roundTie := .away } (.num (-12345 / 10000)) = [0x2D, 0x31, 0x2E, 0x32, 0x33, 0x35] := by
  decide +kernel

/-- The thermistor of S8 and S12. -/
def s12 (o : Orientation) : Thermistor := ⟨4990, 12000, 29815 / 100, 3950, 43 / 10, o⟩

/-- The thermistor's resistance of S12 in both orientations: 3592.8 ohm and 4990 × 2.5 / 1.8 ohm. -/
theorem test_thermistor_resistance :
    Thermistor.resistance (s12 .first) (5 / 2) = 35928 / 10 ∧
    Thermistor.resistance (s12 .dual) (5 / 2) = 4990 * 25 / 18 := by decide +kernel

/-- The temperatures of S12, 54.858 and 37.888 degrees: the two bounds of the logarithm give them within 0.01 degrees;
and at 4.299 V, first form, the 713.177 of the formula (computed by hand in double precision) within 0.1. -/
theorem test_thermistor_celsius :
    let celsius (ln : Rat) := 1 / (100 / 29815 + ln / 3950) - 27315 / 100
    |celsius (lnLow (35928 / 120000)) - 54858 / 1000| < 1 / 100 ∧ |celsius (lnHigh (35928 / 120000)) - 54858 / 1000| < 1 / 100 ∧
    |celsius (lnLow (4990 * 25 / 216000)) - 37888 / 1000| < 1 / 100 ∧
    |celsius (lnHigh (4990 * 25 / 216000)) - 37888 / 1000| < 1 / 100 ∧
    |celsius (lnLow (Thermistor.resistance (s12 .first) (4299 / 1000) / 12000)) - 713177 / 1000| < 1 / 10 ∧
    |celsius (lnHigh (Thermistor.resistance (s12 .first) (4299 / 1000) / 12000)) - 713177 / 1000| < 1 / 10 := by decide +kernel

/-- S8: out of range at 0 and at the supply, and for a negative `R_fixed`. -/
theorem test_thermistor_field :
    Thermistor.field exampleDeployment (s12 .first) 0 = .outOfRange ∧
    Thermistor.field exampleDeployment (s12 .first) (43 / 10) = .outOfRange ∧
    Thermistor.field exampleDeployment { s12 .first with rFixed := -4990 } (5 / 2) = .outOfRange := by decide +kernel

/-- The wire bytes of a register write and read (R120): the address byte is `(a << 1) | rw`, the device acknowledges each byte
it takes, the master each but the last it receives. -/
theorem test_wire : wireWrite 0x48 0x01 [0xC3] = [.start, .sent 0x90 true, .sent 0x01 true, .sent 0xC3 true, .stop] ∧
    wireRead .repeatedStart 0x48 0x00 2 =
      [.start, .sent 0x90 true, .sent 0x00 true, .start, .sent 0x91 true, .received true, .received false, .stop] ∧
    wireNack 0x48 0x01 [0xC3] 0 = [.start, .sent 0x90 false, .stop] := by decide

/-! ### Single steps -/

/-- An answer: ACK, no extra time, the given sample. -/
def answer (v : Rat) : Answer := ⟨.ack, false, 0, 0, v, false, [], 0, 0, .kept, false⟩

/-- The answer NACK. -/
def nack : Answer := { answer 0 with ack := .nack }

/-- The answer SILENT, with the bytes a read gets. -/
def silent (bs : List Byte) : Answer := { answer 0 with ack := .silent, fill := bs }

/-- The example deployment on the bench: idle, two converters with known registers, the DAC at code 5, dacCode 7. -/
def bench (as : List Answer) : State :=
  { State.reset with
    dacCode := 7
    adc := [⟨0x48, 0x8583, 0x4E20, 0, none⟩, ⟨0x49, 0x8583, 0x1F40, 0, none⟩]
    dac := 5
    answers := as }

/-- The bench under another configuration. -/
def benchWith (c : Cfg) (as : List Answer) : State := { bench as with cfg := c }

/-- The example deployment with an acknowledgment timeout. -/
def timed : Cfg := { exampleDeployment with ackTimeoutUs := some 500 }

/-- The configuration of V36: one channel, no control step. -/
def oneChannel : Cfg :=
  { exampleDeployment with
    schedule := [⟨0x48, 0, 1, 4, true⟩]
    ctrlInCycle := false
    fields := [⟨.testVoltage, .volts 0⟩, ⟨.testCurrent, .const 0⟩, ⟨.power, .const 0⟩, ⟨.auxCurrent, .const 0⟩,
      ⟨.sinkTemp, .const 0⟩, ⟨.battTemp, .const 0⟩, ⟨.potVoltage, .const 0⟩] }

/-- A value read off the next state. -/
def after {α : Type} (o : Host.Outcome State Fault Refusal) (f : State → α) : Option α :=
  match o with
  | .next t => some (f t)
  | .fault _ => none
  | .refused _ => none

/-- The response word. -/
def rw (s : State) : Option Word := s.resp.map Response.rw

/-- The stop of an outcome, if it is a refusal. -/
def refusalOf (o : Host.Outcome State Fault Refusal) : Option Refusal :=
  match o with
  | .next _ => none
  | .fault _ => none
  | .refused r => some r

/-- V1: the config register takes 0xC383 and a conversion of channel 0 at gain 1, rate 4 is pending. -/
theorem test_wrreg_config :
    after (exec (.wrreg 0x48 0x01 [0xC3, 0x83]) (bench [answer 0])) (fun t =>
      (rw t, t.adc.map AdcDev.cfg)) = some (some 0x10000000, [0xC383, 0x8583]) ∧
    after (exec (.wrreg 0x48 0x01 [0xC3, 0x83]) (bench [answer 0])) (fun t =>
      (t.adc.filterMap AdcDev.pending).map fun k => (k.ch, k.gain, k.rate)) = some [(some 0, some 1, some 4)] := by
  decide

/-- V7: the register byte alone starts nothing; two bytes to the read-only conversion register leave it as it was (R41). -/
theorem test_wrreg_conversion :
    after (exec (.wrreg 0x48 0x01 []) (bench [answer 0])) (fun t => (rw t, t.adc.map AdcDev.pending)) =
      some (some 0x10000000, [none, none]) ∧
    after (exec (.wrreg 0x48 0x00 [0xAB, 0xCD]) (bench [answer 0])) (fun t => t.adc.map AdcDev.conv) =
      some [0x4E20, 0x1F40] := by decide

/-- V2: no device, NACK. -/
theorem test_wrreg_nack :
    after (exec (.wrreg 0x48 0x01 [0xC3, 0x83]) (bench [nack])) (fun t => (rw t, t.err, t.bus, t.log.length)) =
    some (some 0x12000000, .busError, .free, 1) := by decide

/-- V3: the conversion register's bytes, most significant first. -/
theorem test_rdreg_conversion :
    after (exec (.rdreg 0x48 0x00 2) (bench [answer 0])) (fun t => (rw t, t.resp.map Response.result)) =
    some (some 0x20000000, some (.bytes [0x4E, 0x20])) := by decide

/-- A silent device with a timeout: BusTimeout, no bytes (R66, R324). -/
theorem test_rdreg_timeout :
    after (exec (.rdreg 0x48 0x00 2) (benchWith timed [silent [1, 2]])) (fun t => (rw t, t.err, t.resp.map Response.result)) =
    some (some 0x23000000, .busTimeout, some .empty) := by decide

/-- V6: SETTLE 8813 from 1000 ends at 9813 or later; here at 9813. -/
theorem test_settle :
    after (exec (.settle 8813) { bench [answer 0] with now := 1000 }) (fun t => (t.now, t.log)) =
    some (9813, [.sleep 1000 9813 8813]) := by decide

/-- V11: the converter returns `4E 20`: RW = 0x40014E20, RESULT = 5/2. The sample of 5/2 V is raw 20000 at gain 1. -/
theorem test_rdch :
    after (exec (.rdch 0x48 0 1 4 true) (bench [answer (5 / 2), answer 0, answer 0])) (fun t =>
      (rw t, t.resp.map Response.result, t.log.length)) = some (some 0x40014E20, some (.volts (5 / 2)), 3) := by
  have hr : (bench [answer (5 / 2), answer 0, answer 0]).Ready := ⟨by decide, by decide⟩
  obtain ⟨t, he, hc⟩ := readChannel_acknowledged (x := ⟨0x48, 0, 1, 4, true⟩)
    (s := (bench [answer (5 / 2), answer 0, answer 0]).setSeq .rdch 0) (d := ⟨0x48, 0x8583, 0x4E20, 0, none⟩)
    hr.cfg (by decide) (by decide) ⟨rfl, by decide, rfl⟩ rfl rfl (by decide) (by decide) (by decide)
  rw [exec_rdch, run_ready hr (by decide), he]
  obtain ⟨_, _, _, _, hl⟩ := hc.log
  have hraw : encodeVolts exampleDeployment (5 / 2) 1 = 0x4E20 := by decide +kernel
  have hv : toVolts exampleDeployment 0x4E20 1 = 5 / 2 := by decide +kernel
  show some (some (responseWord .rdch .none (readingSmall 1 (encodeVolts exampleDeployment (5 / 2) 1))),
    some (Result.volts (toVolts exampleDeployment (encodeVolts exampleDeployment (5 / 2) 1) 1)), t.log.length) = _
  rw [hl, hraw, hv]
  rfl

/-- V12, V14: a bad channel raises before any bus access; an absent device ends the read in phase 1. -/
theorem test_rdch_errors :
    after (exec (.rdch 0x48 4 1 4 true) (bench [])) (fun t => (rw t, t.log)) = some (some 0x41000000, []) ∧
    after (exec (.rdch 0x4B 0 1 4 true) (bench [answer 0])) (fun t => (rw t, t.log.length)) =
      some (some 0x42000000, 1) := by decide

/-- V20 and V21: the code written, and the clamp; the bytes after the address. -/
theorem test_setcode :
    after (exec (.setcode 2748) (bench [answer 0])) (fun t => (rw t, t.dacCode, t.dac)) =
      some (some 0x50000ABC, 2748, 2748) ∧
    after (exec (.setcode 5000) (bench [answer 0])) (fun t => (rw t, t.dacCode, t.dac)) =
      some (some 0x50000FFF, 4095, 4095) ∧
    dacBytes 2748 = [0xAB, 0xC0] ∧ dacBytes 4095 = [0xFF, 0xF0] := by decide

/-- V25: no DAC: the DAC is untouched and dacCode is the new value or, as drawn, the old 7. -/
theorem test_setcode_nack :
    after (exec (.setcode 5000) (bench [nack, answer 0])) (fun t => (rw t, t.dacCode, t.dac)) =
      some (some 0x52000000, 4095, 5) ∧
    after (exec (.setcode 5000) (bench [nack, { answer 0 with keepsOld := true }])) (fun t => (rw t, t.dacCode, t.dac)) =
      some (some 0x52000000, 7, 5) := by decide

/-- V26: the gate is opened, no bus event. -/
theorem test_seten :
    after (exec (.seten true) (bench [])) (fun t => (t.enabled, rw t, t.log)) = some (true, some 0x60000000, []) := by
  decide

/-- V27 and V28, the reading `4E 20` coming from a silent reference: code 0xC1E with the gate open, 0 with it closed. -/
theorem test_ctrl :
    after (exec .ctrl { bench [silent [], answer 0, silent [0x4E, 0x20], answer 0] with enabled := true })
      (fun t => (rw t, t.dacCode, t.dac, t.log.length)) = some (some 0x70000C1E, 3102, 3102, 4) ∧
    after (exec .ctrl (bench [silent [], answer 0, silent [0x4E, 0x20], answer 0]))
      (fun t => (rw t, t.dacCode, t.dac, t.log.length)) = some (some 0x70000000, 0, 0, 4) := by decide +kernel

/-- V29: the reference is absent: no DAC write. -/
theorem test_ctrl_absent :
    after (exec .ctrl (bench [nack])) (fun t => (rw t, t.dacCode, t.dac, t.log.length)) =
      some (some 0x72000000, 7, 5, 1) := by decide

/-- V30: the 51 bytes, and nothing on the serial link. -/
theorem test_fmtrec :
    after (exec (.fmtrec [.num 12, .num (3 / 2), .num 18, .num (1 / 4), .num (281 / 8), .num (49 / 2), .num (33 / 20)])
      (bench [])) (fun t => (t.resp.map Response.result, t.tx)) =
    some (some (.line
      [0x44, 0x41, 0x54, 0x41, 0x2C, 0x31, 0x32, 0x2E, 0x30, 0x30, 0x30, 0x2C, 0x31, 0x2E, 0x35, 0x30, 0x30, 0x2C, 0x31,
        0x38, 0x2E, 0x30, 0x30, 0x30, 0x2C, 0x30, 0x2E, 0x32, 0x35, 0x30, 0x2C, 0x33, 0x35, 0x2E, 0x31, 0x32, 0x35, 0x2C,
        0x32, 0x34, 0x2E, 0x35, 0x30, 0x30, 0x2C, 0x31, 0x2E, 0x36, 0x35, 0x30, 0x0A]), []) := by decide +kernel

/-- V33: three fields where seven are asked. -/
theorem test_fmtrec_count : refusalOf (exec (.fmtrec [.num 1, .num 2, .num 3]) (bench [])) = some .fieldCount := by decide

/-- V32: 43 bytes, `nan` for a field out of range. -/
theorem test_txrec :
    after (exec (.txrec [.num 0, .num 0, .num 0, .num 0, .outOfRange, .outOfRange, .num 0]) (bench [answer 0]))
      (fun t => (t.tx.length, (t.tx.drop 29).take 4, rw t)) =
    some (43, [0x6E, 0x61, 0x6E, 0x2C], some 0x90000000) := by decide +kernel

/-- V34: `V:12.000, I:1.500` and a line feed. -/
theorem test_diagln :
    after (exec (.diagln [([0x56], .num 12), ([0x49], .num (3 / 2))]) (bench [answer 0])) State.tx =
    some [0x56, 0x3A, 0x31, 0x32, 0x2E, 0x30, 0x30, 0x30, 0x2C, 0x20, 0x49, 0x3A, 0x31, 0x2E, 0x35, 0x30, 0x30, 0x0A] := by
  decide +kernel

/-- V36, the reading coming from a silent converter: `DATA,2.500,...`, 47 bytes, five events, RW = 0xB0000000. -/
theorem test_cycle :
    after (exec .cycle (benchWith oneChannel [silent [], answer 0, silent [0x4E, 0x20], answer 0, answer 0]))
      (fun t => (rw t, t.tx.length, t.tx.take 11, t.log.length)) =
    some (some 0xB0000000, 47, [0x44, 0x41, 0x54, 0x41, 0x2C, 0x32, 0x2E, 0x35, 0x30, 0x30, 0x2C], 5) := by decide +kernel

/-- V37: the second converter answers NACK: its field is `nan`, the cycle goes on, RW = 0xB2000000. -/
theorem test_cycle_absent :
    after (exec .cycle (benchWith { exampleDeployment with ctrlInCycle := false }
      [silent [], answer 0, silent [0x4E, 0x20], nack, answer 0, answer 0]))
      (fun t => (rw t, t.tx.length, (t.tx.drop 11).take 4, t.log.length)) =
    some (some 0xB2000000, 45, [0x6E, 0x61, 0x6E, 0x2C], 6) := by decide +kernel

/-- S10: the mean of 0.10, 0.12, 0.11, 0.09, 0.13 is 0.11. -/
theorem test_mean : mean exampleDeployment [1 / 10, 12 / 100, 11 / 100, 9 / 100, 13 / 100] = 11 / 100 := by decide +kernel

/-- S11: an edge starts Logging, one within the hold is ignored, one after it goes back to Idle. -/
theorem test_button :
    let press (h : HostSide) (t : Nat) := (h.pressed exampleDeployment t true).pressed exampleDeployment (t + 1) false
    let h0 := HostSide.atReset exampleDeployment
    let h1 := press h0 1000
    let h2 := press h1 200000
    let h3 := press h2 400000
    h0.mode = .idle ∧ h1.mode = .logging ∧ h2.mode = .logging ∧ h3.mode = .idle := by decide

/-! ### Witnesses: a state and operands for the hypotheses of each statement -/

/-- The bench is ready, under every configuration in its domain. -/
theorem bench_ready (as : List Answer) : (bench as).Ready := ⟨show exampleDeployment.wf = true by decide, rfl⟩

theorem benchWith_ready {c : Cfg} (h : c.wf = true) (as : List Answer) : (benchWith c as).Ready := ⟨h, rfl⟩

theorem timed_wf : timed.wf = true := by decide

theorem oneChannel_wf : oneChannel.wf = true := by decide

/-- The converter at 0x48 on the bench. -/
def converter48 : AdcDev := ⟨0x48, 0x8583, 0x4E20, 0, none⟩

/-- The bench with a conversion in flight at 0x48 that ends after a write that starts now. -/
def converting (as : List Answer) : State :=
  { bench as with
    adc := [⟨0x48, 0xC383, 0x1234, 1, some ⟨some 0, some 1, some 4, 0, Config.tXfer 3 + 1, 0x4E20⟩⟩,
      ⟨0x49, 0x8583, 0x1F40, 0, none⟩] }

theorem bench_fresh (as : List Answer) : FreshlyReadable (bench as) 0x48 converter48 := ⟨rfl, rfl, rfl⟩

/-- The outcome is a next state. -/
def answered (o : Host.Outcome State Fault Refusal) : Bool :=
  match o with
  | .next _ => true
  | .fault _ => false
  | .refused _ => false

theorem next_of_answered {o : Host.Outcome State Fault Refusal} (h : answered o = true) : ∃ t, o = .next t :=
  match o, h with
  | .next t, _ => ⟨t, rfl⟩

theorem witness_DecodeOfEncodeIsTheOperation : Instr.wf (.wrreg 0x7F 0xFF (List.replicate 255 0xFF)) = true ∧
    Instr.wf (.rdreg 0x7F 0xFF 1) = true ∧ Instr.wf (.setcode 0x8000) = true := by decide +kernel

theorem witness_EncodeOfDecodeIsTheCommand : decode 0x19002000 .none = .ok (.wrreg 0x48 0x01 []) ∧
    decode 0x19002000 (.bytes []) = .ok (.wrreg 0x48 0x01 []) ∧ decode 0x4FFFFC00 .none = .ok (.rdch 0x7F 15 7 7 true) := by
  decide

/-- A command word for each clause, at the ends of its range. -/
theorem witness_ReservedCommandsAreRefused :
    opField 0x0FFFFFFF = 0 ∧ 12 ≤ (opField 0xC0000000).toNat ∧ 12 ≤ (opField 0xFFFFFFFF).toNat ∧
    (opField 0x10000001 = 1 ∧ BitVec.extractLsb' 0 5 (0x10000001 : Word) ≠ 0) ∧
    (opField 0x20000010 = 2 ∧ BitVec.extractLsb' 0 5 (0x20000010 : Word) ≠ 0) ∧
    (opField 0x31000000 = 3 ∧ BitVec.extractLsb' 24 4 (0x31000000 : Word) ≠ 0) ∧
    (opField 0x40000200 = 4 ∧ BitVec.extractLsb' 0 10 (0x40000200 : Word) ≠ 0) ∧
    (opField 0x50010000 = 5 ∧ BitVec.extractLsb' 16 12 (0x50010000 : Word) ≠ 0) ∧
    (opField 0x60000002 = 6 ∧ BitVec.extractLsb' 1 27 (0x60000002 : Word) ≠ 0) ∧
    (opField 0x70000001 = 7 ∧ BitVec.extractLsb' 0 28 (0x70000001 : Word) ≠ 0) ∧
    (opField 0xB8000000 = 11 ∧ BitVec.extractLsb' 0 28 (0xB8000000 : Word) ≠ 0) ∧
    (opField 0x19002040 = 1 ∧ BitVec.extractLsb' 0 5 (0x19002040 : Word) = 0 ∧
      ([0xC3] : List Byte).length ≠ (lenField 0x19002040).toNat) ∧
    (opField 0x10000000 ≠ 0 ∧ (opField 0x70000000).toNat ≤ 7) ∧
    (opField 0x80000000 = 8 ∧ opField 0x90000000 = 9 ∧ opField 0xA0000000 = 10 ∧ opField 0xB0000000 = 11) ∧
    lenField 0x10000020 ≠ 0 ∧ (opField 0x29000000 = 2 ∧ lenField 0x29000000 = 0 ∧
      BitVec.extractLsb' 0 5 (0x29000000 : Word) = 0) := by decide

theorem witness_StepRunsTheDecodedOperation :
    (bench [] |>.setInputs [.command 0x60000001 .none]).inputs = .command 0x60000001 .none :: [] ∧
    decode 0x60000001 .none = .ok (.seten true) := by decide

theorem witness_StepRefusesReservedCommands :
    (bench [] |>.setInputs [.command 0 .none]).inputs = .command 0 .none :: [] ∧
    decode 0 .none = .error .noOperation := by decide

/-- The bench meets the invariant. -/
theorem bench_inv (as : List Answer) : (bench as).Inv where
  idleFree := fun _ => rfl
  devices := rfl
  conversions := by
    intro d hd k hk
    have : d.pending = none := by
      simp only [bench, List.mem_cons, List.not_mem_nil, or_false] at hd
      rcases hd with rfl | rfl <;> rfl
    rw [this] at hk
    cases hk
  ordered := ⟨List.Pairwise.nil, fun _ h => nomatch h⟩
  offsets := rfl

/-- A command, a press of the button and a turn of the main loop. -/
theorem witness_StepKeepsTheInvariant :
    (bench []).Inv ∧ (∃ t, step (bench []) = .next t) ∧
    (∃ t, step ((bench []).setInputs [.command 0x19002040 (.bytes [0xC3, 0x83])]) = .next t) ∧
    (∃ t, step ((bench []).setInputs [.button true]) = .next t) ∧ ∃ t, step ((bench []).setInputs [.poll]) = .next t :=
  ⟨bench_inv [], next_of_answered (by decide), next_of_answered (by decide),
    next_of_answered (by decide), next_of_answered (by decide)⟩

theorem witness_StepOnlyGrows : ∃ t, step ((bench []).setInputs [.command 0x3000226D .none]) = .next t :=
  next_of_answered (by decide)

/-- Every operation answers a next state on the bench. -/
theorem witness_OperationsEndIdleWithAResponse :
    (∃ t, exec (.wrreg 0x48 0x01 [0xC3, 0x83]) (benchWith exampleDeployment []) = .next t) ∧
    (∃ t, exec (.rdreg 0x48 0x00 2) (benchWith exampleDeployment []) = .next t) ∧
    (∃ t, exec (.settle 0) (benchWith exampleDeployment []) = .next t) ∧
    (∃ t, exec (.rdch 0x48 0 1 4 true) (benchWith exampleDeployment []) = .next t) ∧
    (∃ t, exec (.setcode 0x8000) (benchWith exampleDeployment []) = .next t) ∧
    (∃ t, exec (.seten false) (benchWith exampleDeployment []) = .next t) ∧
    (∃ t, exec .ctrl (benchWith exampleDeployment []) = .next t) ∧
    (∃ t, exec (.fmtrec (List.replicate 7 .outOfRange)) (benchWith exampleDeployment []) = .next t) ∧
    (∃ t, exec (.txrec (List.replicate 7 .outOfRange)) (benchWith exampleDeployment []) = .next t) ∧
    (∃ t, exec (.diagln [([0x56], .num 12)]) (benchWith exampleDeployment []) = .next t) ∧
    ∃ t, exec .cycle (benchWith exampleDeployment []) = .next t :=
  ⟨next_of_answered (by decide), next_of_answered (by decide), next_of_answered (by decide), next_of_answered (by decide),
    next_of_answered (by decide), next_of_answered (by decide), next_of_answered (by decide), next_of_answered (by decide),
    next_of_answered (by decide), next_of_answered (by decide), next_of_answered (by decide)⟩

theorem witness_BusyBlockTakesNoStep :
    ({ bench [] with bus := .busy 0x48 } : State).cfg.wf = true ∧
    ({ bench [] with bus := .busy 0x48 } : State).isIdle = false ∧
    ({ bench [] with seq := ⟨.rdch, 2⟩ } : State).isIdle = false := by decide

/-- One configuration outside the domain for each ground named. -/
theorem witness_ConfigurationsOutsideTheDomainAreRefused :
    (benchWith { exampleDeployment with sentinelText := [] } []).cfg.wf = false ∧
    ({ exampleDeployment with vFullscale := 0 } : Cfg).wf = false ∧
    ({ exampleDeployment with sentinelText := [0x6E, 0x2C] } : Cfg).wf = false ∧
    ({ exampleDeployment with sentinelText := [0x6E, 0x0A] } : Cfg).wf = false ∧
    ({ exampleDeployment with adcAddr := [0x48, 0x48] } : Cfg).wf = false ∧
    ({ exampleDeployment with dacAddr := 0x48 } : Cfg).wf = false ∧
    ({ exampleDeployment with schedule := [⟨0x48, 4, 1, 4, true⟩] } : Cfg).wf = false ∧ exampleDeployment.wf = true := by
  decide

/-- A converter, a DAC and the bare pointer write. -/
theorem witness_WrregAcknowledgedCompletes :
    (bench [answer 0]).Ready ∧ wrregStop (bench [answer 0]).cfg 0x48 0x01 [0xC3, 0x83] = none ∧
    wrregStop (bench [answer 0]).cfg 0x48 0x01 [] = none ∧ wrregStop (bench [answer 0]).cfg 0x60 0x40 [0xAB, 0xC0] = none ∧
    (bench [answer 0]).answerTo 0x48 = .ack ∧ (bench [answer 0]).answerTo 0x60 = .ack ∧
    0x60 = (bench [answer 0]).cfg.dacAddr :=
  ⟨bench_ready _, by decide, by decide, by decide, by decide, by decide, rfl⟩

/-- Each outcome, with and without a timeout; an absent device takes any number of bytes. -/
theorem witness_WrregFailuresAreReported :
    ((bench [nack]).Ready ∧ wrregStop (bench [nack]).cfg 0x4B 0x01 (List.replicate 255 0) = none ∧
      (bench [nack]).answerTo 0x4B = .nack) ∧
    ((bench [silent []]).Ready ∧ wrregStop (bench [silent []]).cfg 0x48 0x01 [0xC3, 0x83] = none ∧
      (bench [silent []]).answerTo 0x48 = .silent ∧ (bench [silent []]).cfg.ackTimeoutUs = none) ∧
    ((benchWith timed [silent []]).Ready ∧ wrregStop (benchWith timed [silent []]).cfg 0x48 0x01 [0xC3, 0x83] = none ∧
      (benchWith timed [silent []]).answerTo 0x48 = .silent ∧ (benchWith timed [silent []]).cfg.ackTimeoutUs = some 500) :=
  ⟨⟨bench_ready _, by decide +kernel, by decide⟩, ⟨bench_ready _, by decide, by decide, rfl⟩,
    ⟨benchWith_ready timed_wf _, by decide, by decide, rfl⟩⟩

theorem witness_ConfigWriteStartsAConversion :
    (bench [answer 0]).Ready ∧ 0x48 ∈ (bench [answer 0]).cfg.adcAddr ∧ (bench [answer 0]).answerTo 0x48 = .ack ∧
    FreshlyReadable (bench [answer 0]) 0x48 converter48 ∧ startBit (bench [answer 0]).cfg (u16 0xC3 0x83) = true :=
  ⟨bench_ready _, by decide, by decide, bench_fresh _, by decide⟩

theorem witness_OtherConverterWritesStartNothing :
    (bench [answer 0]).Ready ∧ 0x48 ∈ (bench [answer 0]).cfg.adcAddr ∧ (bench [answer 0]).answerTo 0x48 = .ack ∧
    (bench [answer 0]).marked 0x48 = false ∧ (bench [answer 0]).converter 0x48 = some converter48 ∧
    startBit (bench [answer 0]).cfg (u16 0x43 0x83) = false ∧
    (bench [answer 0]).cfg.regConversion ≠ (bench [answer 0]).cfg.regConfig :=
  ⟨bench_ready _, by decide, by decide, by decide, rfl, by decide, by decide⟩

theorem witness_OverlappingConversionIsMarked :
    (converting [answer 0]).Ready ∧ 0x48 ∈ (converting [answer 0]).cfg.adcAddr ∧ (converting [answer 0]).answerTo 0x48 = .ack ∧
    (∃ d, (converting [answer 0]).converter 0x48 = some d ∧
      (d.upTo ((converting [answer 0]).now + Config.tXfer 3)).pending ≠ none) ∧
    startBit (converting [answer 0]).cfg (u16 0xC3 0x83) = true := by
  refine ⟨⟨by decide, rfl⟩, by decide, by decide, ⟨_, rfl, ?_⟩, by decide⟩
  rw [AdcDev.upTo_some rfl, if_neg]
  · exact Option.some_ne_none _
  · show ¬ Config.tXfer 3 + 1 ≤ 0 + Config.tXfer 3
    omega

/-- A converter and the DAC. -/
theorem witness_WrregFrame :
    (∃ t, exec (.wrreg 0x48 0x01 [0xC3, 0x83]) (benchWith exampleDeployment []) = .next t) ∧
    (∃ t, exec (.wrreg 0x60 0x40 [0xAB, 0xC0]) (benchWith exampleDeployment []) = .next t) :=
  ⟨next_of_answered (by decide), next_of_answered (by decide)⟩

theorem witness_RdregReturnsTheConversion :
    (bench [answer 0]).Ready ∧ 0x48 ∈ (bench [answer 0]).cfg.adcAddr ∧ (bench [answer 0]).answerTo 0x48 = .ack ∧
    (bench [answer 0]).marked 0x48 = false ∧ (bench [answer 0]).converter 0x48 = some converter48 ∧
    (converter48.upTo (bench [answer 0]).now).pending = none :=
  ⟨bench_ready _, by decide, by decide, by decide, rfl, rfl⟩

theorem witness_EarlyReadIsStaleOrZero :
    (converting [answer 0]).Ready ∧ 0x48 ∈ (converting [answer 0]).cfg.adcAddr ∧ (converting [answer 0]).answerTo 0x48 = .ack ∧
    (converting [answer 0]).marked 0x48 = false ∧
    ∃ d k, (converting [answer 0]).converter 0x48 = some d ∧ d.pending = some k ∧ (converting [answer 0]).now < k.tDone :=
  ⟨⟨by decide, rfl⟩, by decide, by decide, by decide, _, _, rfl, rfl, Nat.succ_pos _⟩

/-- An acknowledged read of the config register; silence without a timeout and with one; NACK of the longest read. -/
theorem witness_RdregCompletesByItsAnswer :
    ((bench [answer 0]).Ready ∧ rdregStop (bench [answer 0]).cfg 0x48 0x01 2 = none ∧ (bench [answer 0]).answerTo 0x48 = .ack) ∧
    ((bench [silent []]).Ready ∧ rdregStop (bench [silent []]).cfg 0x48 0x00 2 = none ∧
      (bench [silent []]).answerTo 0x48 = .silent ∧ (bench [silent []]).cfg.ackTimeoutUs = none) ∧
    ((bench [nack]).Ready ∧ rdregStop (bench [nack]).cfg 0x4B 0xFF 255 = none ∧ (bench [nack]).answerTo 0x4B = .nack) ∧
    ((benchWith timed [silent []]).Ready ∧ rdregStop (benchWith timed [silent []]).cfg 0x48 0x00 2 = none ∧
      (benchWith timed [silent []]).answerTo 0x48 = .silent ∧ (benchWith timed [silent []]).cfg.ackTimeoutUs = some 500) :=
  ⟨⟨bench_ready _, by decide, by decide⟩, ⟨bench_ready _, by decide, by decide, rfl⟩, ⟨bench_ready _, by decide, by decide⟩,
    ⟨benchWith_ready timed_wf _, by decide, by decide, rfl⟩⟩

theorem witness_RdregFrame :
    (∃ t, exec (.rdreg 0x48 0x00 2) (benchWith exampleDeployment []) = .next t) ∧
    (benchWith exampleDeployment []).converter 0x48 = some converter48 :=
  ⟨next_of_answered (by decide), rfl⟩

theorem witness_SettleSleepsAtLeast : (bench []).Ready := bench_ready []

/-- Each clause at its boundary. -/
theorem witness_UndescribedAccessesAreRefused :
    (bench []).Ready ∧ ([] : List Byte).length ≤ 255 ∧ (0x48 : Addr) ∈ (bench []).cfg.adcAddr ∧
    ((0x02 : Byte) ≠ (bench []).cfg.regConfig ∧ (0x02 : Byte) ≠ (bench []).cfg.regConversion) ∧
    (([0] : List Byte).length ≠ 2 ∧ ([0] : List Byte).length ≠ 0) ∧ (0x60 : Addr) = (bench []).cfg.dacAddr ∧
    (0x41 : Byte) ≠ dacCmd ∧ ([0] : List Byte).length ≠ 2 ∧ (1 : BitVec 8) ≠ 0 ∧ (1 : BitVec 8) ≠ 2 :=
  ⟨bench_ready [], by decide, by decide, by decide, by decide, rfl, by decide, by decide, by decide, by decide⟩

theorem witness_AbsentDeviceNeverAcknowledges : (0x4B : Addr) ∉ (bench []).cfg.adcAddr ∧ (0x4B : Addr) ≠ (bench []).cfg.dacAddr := by
  decide

theorem witness_RdchBadChannelRaisesFirst : (bench []).Ready ∧ 4 ≤ (4 : BitVec 4).toNat ∧ 4 ≤ (15 : BitVec 4).toNat :=
  ⟨bench_ready [], by decide, by decide⟩

/-- Gain 6 is outside the set, a rate is outside one where it is taken out; the last legal channel. -/
theorem witness_RdchRefusals :
    (bench []).Ready ∧ (3 : BitVec 4).toNat < 4 ∧ gainRow (bench []).cfg 6 = none ∧
    (benchWith { exampleDeployment with rates := defaultRates.take 5, schedule := [], refChannel := ⟨0x48, 3, 1, 4, true⟩ }
      []).Ready ∧ rateRow { exampleDeployment with rates := defaultRates.take 5 } 5 = none ∧
    gainRow (bench []).cfg 5 ≠ none ∧ rateRow (bench []).cfg 7 ≠ none :=
  ⟨bench_ready [], by decide, by decide, benchWith_ready (by decide) [], by decide, by decide, by decide⟩

/-- With the answers lined up, and with the free ones a run from reset meets. -/
theorem witness_RdchReturnsTheConversionItStarted :
    (bench [answer (5 / 2), answer 0, answer 0]).Ready ∧ (bench [answer (5 / 2), answer 0, answer 0]).cfg.readable = true ∧
    legalConfig (bench [answer (5 / 2), answer 0, answer 0]).cfg ⟨0x48, 0, 1, 4, true⟩ = true ∧
    (0x48 : Addr) ∈ (bench [answer (5 / 2), answer 0, answer 0]).cfg.adcAddr ∧
    FreshlyReadable (bench [answer (5 / 2), answer 0, answer 0]) 0x48 converter48 ∧
    (bench [answer (5 / 2), answer 0, answer 0]).ackAt 0 0x48 = .ack ∧
    (bench [answer (5 / 2), answer 0, answer 0]).ackAt 2 0x48 = .ack :=
  ⟨bench_ready _, by decide, by decide, by decide, bench_fresh _, rfl, rfl⟩

/-- Not acknowledged by an absent device, and timed out. -/
theorem witness_RdchEndsAtAFailedWrite :
    ((bench [nack]).Ready ∧ legalConfig (bench [nack]).cfg ⟨0x4B, 0, 1, 4, true⟩ = true ∧
      (0x4B : Addr) ≠ (bench [nack]).cfg.dacAddr ∧ (bench [nack]).answerTo 0x4B = .nack) ∧
    ((benchWith timed [silent []]).Ready ∧ legalConfig timed ⟨0x48, 3, 5, 7, true⟩ = true ∧ (0x48 : Addr) ≠ timed.dacAddr ∧
      (benchWith timed [silent []]).answerTo 0x48 = .silent ∧ (benchWith timed [silent []]).cfg.ackTimeoutUs = some 500) :=
  ⟨⟨bench_ready _, by decide, by decide, by decide⟩, benchWith_ready timed_wf _, by decide, by decide, by decide, rfl⟩

/-- Each answer to the read: not acknowledged, timed out, acknowledged, and silent all through. -/
theorem witness_RdchOutcomesOfTheRead :
    legalConfig exampleDeployment ⟨0x49, 3, 5, 7, true⟩ = true ∧ (0x49 : Addr) ≠ exampleDeployment.dacAddr ∧
    ((bench [answer 0, answer 0, nack]).Ready ∧ (bench [answer 0, answer 0, nack]).passesAt 0 0x49 ∧
      (bench [answer 0, answer 0, nack]).ackAt 2 0x49 = .nack) ∧
    ((benchWith timed [answer 0, answer 0, silent []]).Ready ∧ (benchWith timed [answer 0, answer 0, silent []]).passesAt 0 0x49 ∧
      (benchWith timed [answer 0, answer 0, silent []]).ackAt 2 0x49 = .silent ∧
      (benchWith timed [answer 0, answer 0, silent []]).cfg.ackTimeoutUs = some 500) ∧
    ((bench [silent [], answer 0, silent []]).passesAt 0 0x49 ∧ (bench [silent [], answer 0, silent []]).passesAt 2 0x49) :=
  ⟨by decide, by decide, ⟨bench_ready _, .inl rfl, rfl⟩, ⟨benchWith_ready timed_wf _, .inl rfl, rfl, rfl⟩,
    .inr ⟨rfl, rfl⟩, .inr ⟨rfl, rfl⟩⟩

/-- A good channel, and one outside 0..3, on which no time passes. -/
theorem witness_RdchFrame :
    (∃ t, exec (.rdch 0x48 0 1 4 true) (benchWith exampleDeployment []) = .next t) ∧
    (∃ t, exec (.rdch 0x48 4 1 4 true) (benchWith exampleDeployment []) = .next t) ∧
    (benchWith exampleDeployment []).Inv :=
  ⟨next_of_answered (by decide), next_of_answered (by decide), bench_inv []⟩

theorem witness_OnlyRawAccessesCanBreakTheSettleHazard :
    (benchWith exampleDeployment []).cfg.readable = true ∧
    SettleKept (benchWith exampleDeployment []).cfg (benchWith exampleDeployment []).log ∧
    NoOpenTrigger (benchWith exampleDeployment []).cfg (benchWith exampleDeployment []).log ∧
    (∃ t, exec .cycle (benchWith exampleDeployment []) = .next t) ∧
    (∀ a r bs, Instr.cycle ≠ .wrreg a r bs) ∧ ∀ a r len, Instr.cycle ≠ .rdreg a r len :=
  ⟨by decide, fun pre w mid b post h => by simp [benchWith, bench, State.reset, State.resetWith] at h,
    fun pre w post h => by simp [benchWith, bench, State.reset, State.resetWith] at h, next_of_answered (by decide), nofun, nofun⟩

theorem witness_ConfigWordReadsBack :
    exampleDeployment.readable = true ∧ legalConfig exampleDeployment ⟨0x7F, 3, 5, 7, true⟩ = true := by decide

/-- The exact numerics, and a floating-point one. -/
theorem witness_EncodeVoltsRecoversRaw : (gainRow exampleDeployment 5).isSome = true ∧
    (gainRow { exampleDeployment with numerics := .floating 0 } 5).isSome = true := by decide

/-- Each clause at its end of the range. -/
theorem witness_MapcodeEndsAndIsMonotone :
    exampleDeployment.wf = true ∧ (0 : Rat) ≤ 0 ∧ exampleDeployment.vFullscale ≤ 33 / 10 ∧ (0 : Rat) ≤ 33 / 10 := by
  decide +kernel

/-- Acknowledged, and silent without a timeout. -/
theorem witness_SetcodeWritesTheClampedCode :
    ((bench [answer 0]).Ready ∧ (bench [answer 0]).ackAt 0 (bench [answer 0]).cfg.dacAddr = .ack) ∧
    (bench [silent []]).Ready ∧ (bench [silent []]).passesAt 0 (bench [silent []]).cfg.dacAddr :=
  ⟨⟨bench_ready _, rfl⟩, bench_ready _, .inr ⟨rfl, rfl⟩⟩

theorem witness_SetcodeFailedWriteKeepsTheDac :
    ((bench [nack]).Ready ∧ (bench [nack]).answerTo (bench [nack]).cfg.dacAddr = .nack) ∧
    ((benchWith timed [silent []]).Ready ∧
      (benchWith timed [silent []]).answerTo (benchWith timed [silent []]).cfg.dacAddr = .silent ∧
      (benchWith timed [silent []]).cfg.ackTimeoutUs = some 500) :=
  ⟨⟨bench_ready _, by decide⟩, benchWith_ready timed_wf _, by decide, rfl⟩

theorem witness_SetenWritesOnlyTheGate : (bench []).Ready := bench_ready []

theorem witness_CtrlDrivesTheGatedCode :
    (bench [answer (5 / 2), answer 0, answer 0, answer 0]).Ready ∧ exampleDeployment.readable = true ∧
    legalConfig exampleDeployment exampleDeployment.refChannel = true ∧
    exampleDeployment.refChannel.addr ∈ exampleDeployment.adcAddr ∧
    FreshlyReadable (bench [answer (5 / 2), answer 0, answer 0, answer 0]) exampleDeployment.refChannel.addr converter48 ∧
    (bench [answer (5 / 2), answer 0, answer 0, answer 0]).ackAt 0 exampleDeployment.refChannel.addr = .ack ∧
    (bench [answer (5 / 2), answer 0, answer 0, answer 0]).ackAt 2 exampleDeployment.refChannel.addr = .ack ∧
    (bench [answer (5 / 2), answer 0, answer 0, answer 0]).ackAt 3 exampleDeployment.dacAddr = .ack :=
  ⟨bench_ready _, by decide, by decide, by decide, bench_fresh _, rfl, rfl, rfl⟩

/-- The deployment whose reference has no such channel; it is no ground of U22, CTRL raises. -/
def badReference : Cfg := { exampleDeployment with refChannel := ⟨0x48, 4, 1, 4, true⟩ }

/-- Each way the reference read fails. -/
theorem witness_CtrlKeepsTheDacWhenTheReferenceFails :
    ((benchWith badReference []).Ready ∧ channelStop badReference badReference.refChannel = none ∧
      4 ≤ badReference.refChannel.ch.toNat) ∧
    ((bench [nack]).Ready ∧ channelStop exampleDeployment exampleDeployment.refChannel = none ∧
      exampleDeployment.refChannel.ch.toNat < 4 ∧ (bench [nack]).answerTo exampleDeployment.refChannel.addr = .nack) ∧
    ((benchWith timed [silent []]).Ready ∧ channelStop timed timed.refChannel = none ∧
      (benchWith timed [silent []]).answerTo timed.refChannel.addr = .silent ∧ timed.ackTimeoutUs = some 500) ∧
    ((bench [answer 0, answer 0, nack]).passesAt 0 exampleDeployment.refChannel.addr ∧
      (bench [answer 0, answer 0, nack]).ackAt 2 exampleDeployment.refChannel.addr = .nack) ∧
    ((benchWith timed [answer 0, answer 0, silent []]).passesAt 0 timed.refChannel.addr ∧
      (benchWith timed [answer 0, answer 0, silent []]).ackAt 2 timed.refChannel.addr = .silent) ∧
    ∃ u, exec (rdchOf (benchWith exampleDeployment [nack]).cfg.refChannel) (benchWith exampleDeployment [nack]) = .next u ∧
      u.raised = some (.busError 0x48) :=
  ⟨⟨benchWith_ready (by decide) _, by decide, by decide⟩, ⟨bench_ready _, by decide, by decide, rfl⟩,
    ⟨benchWith_ready timed_wf _, by decide, rfl, rfl⟩, ⟨.inl rfl, rfl⟩, ⟨.inl rfl, rfl⟩, _, rfl, rfl⟩

theorem witness_ControlFrame :
    (∃ t, exec .ctrl (benchWith exampleDeployment []) = .next t) ∧
    (∃ t, exec (.setcode 5000) (benchWith exampleDeployment []) = .next t) ∧ (benchWith exampleDeployment []).Inv :=
  ⟨next_of_answered (by decide), next_of_answered (by decide), bench_inv []⟩

/-- An operation that meets all four clauses, and a CYCLE without a control step. -/
theorem witness_WritersOfEachPlace :
    (∃ t, exec (.rdch 0x48 0 1 4 true) (benchWith exampleDeployment []) = .next t) ∧
    (∃ t, exec .cycle (benchWith oneChannel []) = .next t) ∧ (benchWith oneChannel []).cfg.ctrlInCycle = false :=
  ⟨next_of_answered (by decide), next_of_answered (by decide), rfl⟩

theorem witness_RecordLineShape :
    exampleDeployment.wf = true ∧ 0 < exampleDeployment.nFields ∧ (List.replicate 7 Field.outOfRange).length = exampleDeployment.nFields := by decide

theorem witness_FmtrecReturnsTheLine :
    (bench []).Ready ∧ (List.replicate 7 Field.outOfRange).length = (bench []).cfg.nFields := ⟨bench_ready [], by decide⟩

theorem witness_TxrecSendsTheLine :
    (bench []).Ready ∧ (List.replicate 7 (Field.num 0)).length = (bench []).cfg.nFields := ⟨bench_ready [], by decide⟩

theorem witness_WrongFieldCountIsRefused :
    (bench []).Ready ∧ (List.replicate 6 Field.outOfRange).length ≠ (bench []).cfg.nFields ∧
    (List.replicate 8 Field.outOfRange).length ≠ (bench []).cfg.nFields := ⟨bench_ready [], by decide, by decide⟩

/-- The keys free, and the keys fixed by the deployment. -/
theorem witness_DiaglnSendsItsText :
    ((bench []).Ready ∧ pairsOk [([0x44, 0x41, 0x54, 0x41], .num 12)] = true ∧
      diagKeysOk (bench []).cfg [([0x44, 0x41, 0x54, 0x41], .num 12)] = true) ∧
    ((benchWith { exampleDeployment with diagKeys := some [[0x56]] } []).Ready ∧
      diagKeysOk (benchWith { exampleDeployment with diagKeys := some [[0x56]] } []).cfg [([0x56], .num 12)] = true) :=
  ⟨⟨bench_ready [], by decide, rfl⟩, benchWith_ready (by decide) [], by decide⟩

theorem witness_CycleAlwaysEmitsOneRecord : (bench []).Ready ∧ cycleStop (bench []).cfg = none := ⟨bench_ready [], by decide⟩

/-- A converter outside schedule and reference, and a cycle without a control step. -/
theorem witness_CycleFrame :
    (∃ t, exec .cycle (benchWith oneChannel []) = .next t) ∧
    (∀ x ∈ (benchWith oneChannel []).cfg.schedule, (0x49 : Addr) ≠ x.addr) ∧
    ((benchWith oneChannel []).cfg.ctrlInCycle = true → (0x49 : Addr) ≠ (benchWith oneChannel []).cfg.refChannel.addr) ∧
    (benchWith oneChannel []).cfg.ctrlInCycle = false :=
  ⟨next_of_answered (by decide), by decide, by decide, rfl⟩

/-- An absent input, one past the end, a missing offset; two cycles that agree where a Hall source reads. -/
theorem witness_AbsentInputsAreOutOfRange :
    voltsAt [⟨none, 1⟩, ⟨some 1, 5⟩] 0 = none ∧ voltsAt [⟨none, 1⟩, ⟨some 1, 5⟩] 2 = none ∧ offsetAt [none] 0 = none ∧
    0 ∈ placesOf (.hall 0 1 1 true) ∧ 1 ∈ offsetsOf (.hall 0 1 1 true) ∧
    (∀ i ∈ placesOf (.hall 0 1 1 true), ([⟨some 1, 5⟩, ⟨none, 1⟩] : List Input)[i]? = [⟨some 1, 5⟩][i]?) ∧
    (∀ k ∈ offsetsOf (.hall 0 1 1 true), offsetAt [none, some 1] k = offsetAt [some 2, some 1] k) ∧
    exampleDeployment.fields[0]? = some ⟨.testVoltage, .volts 0⟩ := by decide

/-- The boundaries of S8; voltages within 0.001 of them and between in each orientation, with the constants of S12. -/
theorem witness_ThermistorBoundaries :
    (0 : Rat) ≤ 0 ∧ (s12 .first).vSupply ≤ 43 / 10 ∧ exampleDeployment.numerics = .exact ∧ 0 < (s12 .dual).rFixed ∧
    0 < (s12 .dual).r0 ∧ 0 < (s12 .dual).t0 ∧ 0 < (s12 .dual).beta ∧ (0 : Rat) < 1 / 1000 ∧ (1 / 1000 : Rat) < 4299 / 1000 ∧
    4299 / 1000 < (s12 .dual).vSupply ∧
    (∀ o, ∀ v ∈ [(1 / 1000 : Rat), 5 / 2, 4299 / 1000], 0 < Thermistor.inverseKelvin (s12 o) (Thermistor.resistance (s12 o) v)) := by
  have low : ∀ o, ∀ v ∈ [(1 / 1000 : Rat), 5 / 2, 4299 / 1000], 0 < Thermistor.resistance (s12 o) v / (s12 o).r0 ∧
      0 < 1 / (s12 o).t0 + lnLow (Thermistor.resistance (s12 o) v / (s12 o).r0) / (s12 o).beta := by
    intro o
    cases o <;> decide +kernel
  refine ⟨le_rfl, by decide +kernel, rfl, by decide +kernel, by decide +kernel, by decide +kernel, by decide +kernel,
    by decide +kernel, by decide +kernel, by decide +kernel, fun o v hv => ?_⟩
  obtain ⟨hp, hl⟩ := low o v hv
  exact hl.trans_le (add_le_add_right (div_le_div_of_nonneg_right (hostLn_within hp).1 (by cases o <;> decide)) _)

/-- Armed exactly at the re-arm time, within the hold one microsecond before it, and held down. -/
theorem witness_ButtonTogglesOncePerHold :
    ((⟨.idle, false, 300, [], false⟩ : HostSide).buttonLow = false ∧ (⟨.idle, false, 300, [], false⟩ : HostSide).rearmAt ≤ 300) ∧
    299 < (⟨.idle, false, 300, [], false⟩ : HostSide).rearmAt ∧ (⟨.idle, true, 300, [], false⟩ : HostSide).buttonLow = true := by
  decide

/-- The deployment with one calibrated sensor of two samples. -/
def calibrated : Cfg := { exampleDeployment with calibrations := [⟨⟨0x48, 0, 1, 4, true⟩, 2, 1000, none⟩] }

/-- The bench under `calibrated` with this host side and one input in the host's queue. -/
def benchHost (h : HostSide) (i : HostInput) : State := { benchWith calibrated [] with host := h, inputs := [i] }

/-- After a failed boot no calibration runs, and no cycle while an offset is missing (R281, R364). -/
theorem test_boot :
    after (step (benchHost ⟨.idle, false, 0, [none], true⟩ (.calibrate 0))) (fun t => (t.log, t.host.offsets)) =
      some ([], [none]) ∧
    after (step (benchHost ⟨.logging, false, 0, [none], false⟩ .poll)) State.log = some [] := by decide

/-- A turn of the loop in each mode, after a failed boot and before every offset is there. -/
theorem witness_MainLoopIsGatedByTheMode :
    (∀ h, (benchHost h .poll).inputs = .poll :: []) ∧ (benchHost ⟨.idle, false, 0, [some 1], false⟩ .poll).host.mode = .idle ∧
    (benchHost ⟨.logging, false, 0, [some 1], true⟩ .poll).host.bootFailed = true ∧
    none ∈ (benchHost ⟨.logging, false, 0, [none], false⟩ .poll).host.offsets ∧
    (benchHost ⟨.logging, false, 0, [some 1], false⟩ .poll).host.mode = .logging ∧
    (benchHost ⟨.logging, false, 0, [some 1], false⟩ .poll).host.bootFailed = false ∧
    none ∉ (benchHost ⟨.logging, false, 0, [some 1], false⟩ .poll).host.offsets :=
  ⟨fun _ => rfl, rfl, rfl, by decide, rfl, rfl, by decide⟩

/-- A boot that runs, one that has failed, and a sensor whose offset is there. -/
theorem witness_CalibrationKeepsTheMeanOrFails :
    (benchHost ⟨.idle, false, 0, [none], false⟩ (.calibrate 0)).inputs = .calibrate 0 :: [] ∧
    calibrated.calibrations[0]? = some ⟨⟨0x48, 0, 1, 4, true⟩, 2, 1000, none⟩ ∧
    (benchHost ⟨.idle, false, 0, [none], false⟩ (.calibrate 0)).Ready ∧
    channelStop calibrated ⟨0x48, 0, 1, 4, true⟩ = none ∧ offsetAt [none] 0 = none ∧ offsetAt [some 1] 0 ≠ none ∧
    (benchHost ⟨.idle, false, 0, [none], true⟩ (.calibrate 0)).host.bootFailed = true :=
  ⟨rfl, rfl, ⟨by decide, rfl⟩, by decide, rfl, by decide, rfl⟩

/-- The DAC's address in a channel read, and one reference for each ground of R180 and R181. -/
theorem witness_ChannelReadsWithoutAMeaningAreRefused :
    (bench []).Ready ∧ legalConfig exampleDeployment ⟨0x60, 0, 1, 4, true⟩ = true ∧ (0x60 : Addr) = exampleDeployment.dacAddr ∧
    (benchWith { exampleDeployment with refChannel := ⟨0x60, 0, 1, 4, true⟩ } []).Ready ∧
    (benchWith { exampleDeployment with schedule := [⟨0x48, 0, 1, 4, true⟩, ⟨0x60, 0, 1, 4, true⟩] } []).Ready ∧
    scheduleStop exampleDeployment [⟨0x48, 0, 1, 4, true⟩] = none ∧
    (gainRow exampleDeployment 7 = none ∧ (3 : BitVec 4).toNat < 4 ∧
      (benchWith { exampleDeployment with refChannel := ⟨0x48, 3, 7, 4, true⟩ } []).Ready) ∧
    (gainRow exampleDeployment 5 ≠ none ∧ rateRow exampleDeployment 7 ≠ none ∧
      (benchWith { exampleDeployment with refChannel := ⟨0x48, 3, 5, 7, false⟩ } []).Ready) ∧
    exampleDeployment.ctrlInCycle = true ∧ scheduleStop exampleDeployment exampleDeployment.schedule = none ∧
    exec .ctrl (benchWith { exampleDeployment with refChannel := ⟨0x60, 0, 1, 4, true⟩ } []) = .refused .dacAccess :=
  ⟨bench_ready _, by decide, rfl, benchWith_ready (by decide) _, benchWith_ready (by decide) _, by decide,
    ⟨by decide, by decide, benchWith_ready (by decide) _⟩, ⟨by decide, by decide, benchWith_ready (by decide) _⟩,
    rfl, by decide, by rw [exec_ctrl]; rfl⟩

/-- A reference that raises, and one that answers. -/
theorem witness_CtrlIsReadMapGateSetcode :
    (∃ u, exec (rdchOf (benchWith exampleDeployment [nack]).cfg.refChannel) (benchWith exampleDeployment [nack]) = .next u ∧
      u.raised = some (.busError 0x48)) ∧
    ∃ u v, exec (rdchOf (benchWith exampleDeployment [silent [], answer 0, silent []]).cfg.refChannel)
      (benchWith exampleDeployment [silent [], answer 0, silent []]) = .next u ∧ u.volts = some v :=
  ⟨⟨_, rfl, rfl⟩, _, _, rfl, rfl⟩

end Sys2Proof.Tests
end

section
/-!
PROOFS. Every operation as a run of micro-steps, each of which names the place it writes. What an operation keeps or leaves
alone is then proved once per micro-step, and follows for whole operations, for samples of a calibration and for steps.
-/

namespace Sys2Proof.Machine

/-! ### Places and micro-steps -/

/-- What a micro-step can write beside time, the histories, the sequencer and the report of an operation: the gate (R22), the
stored code (R23), the serial stream (R29), the DAC (R84) and a converter (R37). -/
inductive Place where
  | gate
  | code
  | serial
  | dac
  | converter (a : Addr)

/-- The device a register write to `a` reaches: the DAC or a converter (R61). -/
def Place.ofAddr (c : Cfg) (a : Addr) : Place := if a = c.dacAddr then .dac else .converter a

/-- One micro-step that writes no place outside `W`: a primitive of the bus, of time or of the serial stream, or an update of
one register of the block (R26, R64 to R69). -/
inductive MicroStep (W : Set Place) : State → State → Prop
  | setSeq (s : State) (op : Op) (n : Nat) : MicroStep W s (s.setSeq op n)
  | freeBus (s : State) : MicroStep W s (s.setBus .free)
  | report (s : State) (e : ErrCode) (p : Option Response) : MicroStep W s (s.reporting e p)
  | draw (s : State) : MicroStep W s s.popAnswer
  | gate (s : State) (e : Bool) (h : .gate ∈ W) : MicroStep W s (s.setEnabled e)
  | code (s : State) (k : BitVec 12) (h : .code ∈ W) : MicroStep W s (s.setDacCode k)
  | write (s : State) (f : FailedWrite) (a : Addr) (r : Byte) (bs : List Byte) (h : Place.ofAddr s.cfg a ∈ W) :
      MicroStep W s (memWrite f a r bs s).1
  | read (s : State) (a : Addr) (r : Byte) (n : Nat) (h : .converter a ∈ W) : MicroStep W s (memRead a r n s).1
  | sleep (s : State) (d : Nat) : MicroStep W s (delay d s)
  | send (s : State) (bs : List Byte) (h : .serial ∈ W) : MicroStep W s (txBytes bs s)
  | wait (s : State) (d : Nat) : MicroStep W s (waitFor d s)

/-- Micro-steps in a row, none of which writes a place outside `W`. -/
abbrev Runs (W : Set Place) : State → State → Prop := Relation.ReflTransGen (MicroStep W)

variable {W : Set Place}

/-- No micro-step changes the configuration (R363). -/
theorem MicroStep.cfg {s t : State} (h : MicroStep W s t) : t.cfg = s.cfg := by
  cases h with
  | write f a r bs _ => exact (memWrite_busFrame f a r bs s).cfg
  | read a r n _ => exact (memRead_busFrame a r n s).cfg
  | _ => rfl

/-- No row of micro-steps changes the configuration (R363). -/
theorem Runs.cfg {s t : State} (h : Runs W s t) : t.cfg = s.cfg := by
  induction h with
  | refl => rfl
  | tail _ k ih => exact k.cfg.trans ih

/-! ### The ends of an operation -/

theorem finish_runs (op : Op) (k : BitVec 24) (r : Result) (s : State) : Runs W s (finish op k r s) :=
  .tail (.single (.setSeq s .idle 0)) (.report _ .none (some ⟨responseWord op .none k, r, none⟩))

theorem takeError_runs (op : Op) (e : BlockError) (s : State) : Runs W s (takeError op e s) :=
  .tail (.tail (.single (.freeBus s)) (.setSeq _ .idle 0)) (.report _ e.code (some ⟨responseWord op e.code 0, .empty, some e⟩))

theorem complete_runs {α : Type} {s : State} {x : Res α} (op : Op) (k : α → BitVec 24) (r : α → Result)
    (hx : Runs W s x.1) : Runs W s (complete op k r x) := by
  obtain ⟨t, e | v⟩ := x
  · exact hx.trans (takeError_runs op e t)
  · exact hx.trans (finish_runs op (k v) (r v) t)

theorem finishCycle_runs (last : Option BlockError) (fs : List Field) (s : State) : Runs W s (finishCycle last fs s) :=
  .tail (.single (.setSeq s .idle 0)) (.report _ _ _)

theorem andThen_runs {α β : Type} {s : State} {x : Res α} {k : α → State → Res β} (hx : Runs W s x.1)
    (hk : ∀ v, Runs W x.1 (k v x.1).1) : Runs W s (x.andThen k).1 := by
  obtain ⟨t, e | v⟩ := x
  · exact hx
  · exact hx.trans (hk v)

/-! ### The parts of operations -/

/-- The places a channel read writes: none on a bad channel, which raises before any bus access (R177). -/
def channelPlaces (x : ChannelConfig) : Set Place := {p | legalChannel x.ch = true ∧ p = .converter x.addr}

/-- The places a control step writes (R206). -/
def controlPlaces (c : Cfg) : Set Place := {.code, .dac} ∪ channelPlaces c.refChannel

theorem rdchAfterWrite_runs {x : ChannelConfig} (hx : .converter x.addr ∈ W) (s : State) :
    Runs W s (rdchAfterWrite x s).1 :=
  andThen_runs (.tail (.tail (.tail (.single (.setSeq s .rdch 2)) (.sleep _ _)) (.setSeq _ .rdch 3)) (.read _ _ _ _ hx))
    fun _ => .single (.setSeq _ .rdch 4)

theorem readChannel_runs {x : ChannelConfig} {s : State} (hx : channelPlaces x ⊆ W)
    (hd : legalChannel x.ch = true → x.addr ≠ s.cfg.dacAddr) : Runs W s (readChannel x s).1 := by
  unfold readChannel
  dsimp only
  split
  · next hl =>
    have hc : .converter x.addr ∈ W := hx ⟨hl, rfl⟩
    have hw : Place.ofAddr s.cfg x.addr ∈ W := by rwa [Place.ofAddr, if_neg (hd hl)]
    exact andThen_runs (.tail (.tail (.single (.setSeq s .rdch 0)) (.setSeq _ .rdch 1)) (.write _ _ _ _ _ hw))
      fun _ => rdchAfterWrite_runs hc _
  · exact .single (.setSeq s .rdch 0)

theorem completeReading_runs {s : State} {x : Res Reading} (hx : Runs W s x.1) : Runs W s (completeReading x) :=
  complete_runs _ _ _ hx

theorem settleCode_runs {s : State} {x : Res Unit} (old k : BitVec 12) (hc : .code ∈ W) (hx : Runs W s x.1) :
    Runs W s (settleCode old k x).1 := by
  obtain ⟨t, e | v⟩ := x
  · exact .tail (.tail hx (.draw t)) (.code _ _ hc)
  · exact hx

theorem writeCode_runs (k : BitVec 12) (s : State) (hc : .code ∈ W) (hd : .dac ∈ W) : Runs W s (writeCode k s).1 := by
  have hw : Place.ofAddr s.cfg s.cfg.dacAddr ∈ W := by rwa [Place.ofAddr, if_pos rfl]
  exact settleCode_runs _ _ hc
    (.tail (.tail (.tail (.single (.setSeq s .setcode 0)) (.code _ k hc)) (.setSeq _ .setcode 1)) (.write _ _ _ _ _ hw))

theorem controlStep_runs {s : State} (hW : controlPlaces s.cfg ⊆ W)
    (hs : channelStop s.cfg s.cfg.refChannel = none) : Runs W s (controlStep s).1 := by
  rw [controlStep_eq]
  exact andThen_runs (readChannel_runs (fun _ h => hW (.inr h)) (channelStop_none_dac hs))
    fun v => writeCode_runs _ _ (hW (.inl (.inl rfl))) (hW (.inl (.inr rfl)))

/-- The sweep of a schedule is the channel read of its first entry and the sweep of the others (R261). -/
theorem sweep_cons_state (x : ChannelConfig) (xs : List ChannelConfig) (i : Nat) (s : State) :
    (sweep (x :: xs) i s).state = (sweep xs (i + 1) (readChannel x s).1).state := by
  rw [← readChannel_setSeq x s .cycle i]
  simp only [sweep]
  split <;> rfl

/-- A schedule that is not stopped has no entry that is. -/
theorem channelStop_of_scheduleStop {c : Cfg} {xs : List ChannelConfig} (h : scheduleStop c xs = none) :
    ∀ x ∈ xs, channelStop c x = none := by
  induction xs with
  | nil => simp
  | cons x xs ih =>
    rw [scheduleStop] at h
    split at h
    · cases h
    · next hx => simpa [hx] using ih h

theorem sweep_runs {xs : List ChannelConfig} {i : Nat} {s : State} (hW : ∀ x ∈ xs, channelPlaces x ⊆ W)
    (hs : ∀ x ∈ xs, channelStop s.cfg x = none) : Runs W s (sweep xs i s).state := by
  induction xs generalizing i s with
  | nil => exact .refl
  | cons x xs ih =>
    rw [sweep_cons_state]
    obtain ⟨hWx, hWxs⟩ := List.forall_mem_cons.1 hW
    obtain ⟨hsx, hsxs⟩ := List.forall_mem_cons.1 hs
    have hr : Runs W s (readChannel x s).1 := readChannel_runs hWx (channelStop_none_dac hsx)
    exact hr.trans (ih hWxs (by rwa [hr.cfg]))

theorem cycleControl_runs {s : State} (last : Option BlockError)
    (hW : s.cfg.ctrlInCycle = true → controlPlaces s.cfg ⊆ W)
    (hs : s.cfg.ctrlInCycle = true → channelStop s.cfg s.cfg.refChannel = none) :
    Runs W s (cycleControl s last).1 := by
  unfold cycleControl
  split
  · next hc => exact controlStep_runs (hW hc) (hs hc)
  · exact .refl

/-- The places a cycle writes (R261). -/
def cyclePlaces (c : Cfg) : Set Place :=
  {p | p = .serial ∨ (∃ x ∈ c.schedule, p ∈ channelPlaces x) ∨ (c.ctrlInCycle = true ∧ p ∈ controlPlaces c)}

/-- A cycle that is not stopped reads no channel without a meaning. -/
theorem channelStops_of_cycleStop {c : Cfg} (h : cycleStop c = none) :
    (∀ x ∈ c.schedule, channelStop c x = none) ∧ (c.ctrlInCycle = true → channelStop c c.refChannel = none) := by
  rw [cycleStop] at h
  split at h
  · cases h
  · next hs => exact ⟨channelStop_of_scheduleStop hs, fun hc => by rwa [if_pos hc] at h⟩

/-- The state of a cycle after its sweep. -/
def sweptState (s : State) : State :=
  ((sweep s.cfg.schedule 0 s).state.setSeq .cycle s.cfg.schedule.length).setSeq .cycle (s.cfg.schedule.length + 1)

/-- The state of a cycle after its control step, if it has one. -/
def controlledState (s : State) : State := (cycleControl (sweptState s) (sweep s.cfg.schedule 0 s).last).1

theorem sweptState_runs {s : State} (hs : ∀ x ∈ s.cfg.schedule, channelStop s.cfg x = none)
    (hW : ∀ x ∈ s.cfg.schedule, channelPlaces x ⊆ W) : Runs W s (sweptState s) :=
  .tail (.tail (sweep_runs hW hs) (.setSeq _ .cycle _)) (.setSeq _ .cycle _)

theorem controlledState_runs {s : State} (hs : cycleStop s.cfg = none) (hW : cyclePlaces s.cfg ⊆ W) :
    Runs W s (controlledState s) := by
  obtain ⟨hsched, href⟩ := channelStops_of_cycleStop hs
  have hw : Runs W s (sweptState s) := sweptState_runs hsched fun x hx p hp => hW (.inr (.inl ⟨x, hx, hp⟩))
  exact hw.trans (cycleControl_runs _ (by rw [hw.cfg]; exact fun hc p hp => hW (.inr (.inr ⟨hc, hp⟩)))
    (by rwa [hw.cfg]))

/-- After its control step a cycle sends its record, waits for the period's end and reports (R261, R264). -/
theorem cycleBody_eq (s : State) : ∃ n k fs d last,
    cycleBody s = finishCycle last fs (delay d ((sendRecord fs ((controlledState s).setSeq .cycle n)).setSeq .cycle k)) :=
  ⟨_, _, _, _, _, rfl⟩

/-- A cycle is a run that ends with a delay, and the report. -/
theorem cycleBody_eq_delay {s : State} (hs : cycleStop s.cfg = none) (hW : cyclePlaces s.cfg ⊆ W) :
    ∃ m d last fs, Runs W s m ∧ cycleBody s = finishCycle last fs (delay d m) := by
  obtain ⟨n, k, fs, d, last, he⟩ := cycleBody_eq s
  exact ⟨_, d, last, fs, .tail (.tail (.tail (controlledState_runs hs hW) (.setSeq _ .cycle n))
    (.send _ _ (hW (.inl rfl)))) (.setSeq _ .cycle k), he⟩

theorem cycleBody_runs {s : State} (hs : cycleStop s.cfg = none) (hW : cyclePlaces s.cfg ⊆ W) :
    Runs W s (cycleBody s) := by
  obtain ⟨m, d, last, fs, hm, he⟩ := cycleBody_eq_delay hs hW
  rw [he]
  exact .trans (.tail hm (.sleep m d)) (finishCycle_runs last fs _)

/-! ### Whole operations -/

/-- The places an operation writes: "who writes what" (R22, R23, R29, R37, R84). -/
def instrPlaces (c : Cfg) : Instr → Set Place
  | .wrreg a _ _ => {Place.ofAddr c a}
  | .rdreg a _ _ => {.converter a}
  | .settle _ => ∅
  | .rdch a ch g dr cd => channelPlaces ⟨a, ch, g, dr, cd⟩
  | .setcode _ => {.code, .dac}
  | .seten _ => {.gate}
  | .ctrl => controlPlaces c
  | .fmtrec _ => ∅
  | .txrec _ => {.serial}
  | .diagln _ => {.serial}
  | .cycle => cyclePlaces c

/-- An operation runs once its body does, from the state `run` hands to it. -/
theorem run_runs {op : Op} {stop : Option Refusal} {body : State → State} {s t : State}
    {o : Host.Outcome State Fault Refusal} (ho : o = run op stop body s) (h : o = .next t)
    (hb : stop = none → Runs W (s.setSeq op 0) (body (s.setSeq op 0))) : Runs W s t := by
  obtain ⟨_, hs, rfl⟩ := run_eq_next_iff.1 (ho.symm.trans h)
  exact .head (.setSeq s op 0) (hb hs)

/-- Every operation that answers a next state is a run of micro-steps that write its own places. -/
theorem exec_runs {i : Instr} {s t : State} (h : exec i s = .next t) : Runs (instrPlaces s.cfg i) s t := by
  cases i with
  | wrreg a r bs => exact run_runs (exec_wrreg a r bs s) h fun _ => complete_runs _ _ _ (.single (.write _ _ _ _ _ rfl))
  | rdreg a r len => exact run_runs (exec_rdreg a r len s) h fun _ => complete_runs _ _ _ (.single (.read _ _ _ _ rfl))
  | settle dur => exact run_runs (exec_settle dur s) h fun _ => .head (.sleep _ _) (finish_runs _ _ _ _)
  | rdch a ch g dr cd =>
    exact run_runs (exec_rdch a ch g dr cd s) h fun hs =>
      completeReading_runs (readChannel_runs subset_rfl (channelStop_none_dac hs))
  | setcode code =>
    exact run_runs (exec_setcode code s) h fun _ => complete_runs _ _ _ (writeCode_runs _ _ (.inl rfl) (.inr rfl))
  | seten e => exact run_runs (exec_seten e s) h fun _ => .head (.gate _ e rfl) (finish_runs _ _ _ _)
  | ctrl => exact run_runs (exec_ctrl s) h fun hs => complete_runs _ _ _ (controlStep_runs subset_rfl hs)
  | fmtrec fs => exact run_runs (exec_fmtrec fs s) h fun _ => finish_runs _ _ _ _
  | txrec fs => exact run_runs (exec_txrec fs s) h fun _ => .head (.send _ _ rfl) (finish_runs _ _ _ _)
  | diagln ps => exact run_runs (exec_diagln ps s) h fun _ => .head (.send _ _ rfl) (finish_runs _ _ _ _)
  | cycle => exact run_runs (exec_cycle s) h fun hs => cycleBody_runs hs subset_rfl

/-- The samples of a calibration are a run that writes the sensor's converter (R286). -/
theorem takeSamples_runs {k : Calibration} {n : Nat} {s : State} (hW : channelPlaces k.channel ⊆ W)
    (hs : channelStop s.cfg k.channel = none) : Runs W s (takeSamples k n s).1 := by
  induction n generalizing s with
  | zero => exact .refl
  | succ n ih =>
    have hr : Runs W s (readChannel k.channel s).1 := readChannel_runs hW (channelStop_none_dac hs)
    have hw : Runs W s (waitFor k.gapUs (completeReading (readChannel k.channel s))) :=
      .tail (completeReading_runs hr) (.wait _ _)
    simp only [takeSamples]
    split
    · exact completeReading_runs hr
    · exact hw.trans (ih (by rwa [hw.cfg]))

end Sys2Proof.Machine
end

section
/-!
PROOFS. What a row of micro-steps leaves alone (RunFrame), and that it keeps the invariant from a state with a free bus.
-/

namespace Sys2Proof.Machine

variable {W : Set Place}

/-! ### What a register write and a register read leave, said once -/

/-- Whatever holds of the state after the transfer, the bytes taken or not, and of every later time, holds after a register
write (R64, R66). -/
theorem memWrite_induction {P : State → Prop} {f : FailedWrite} {a : Addr} {r : Byte} {bs : List Byte} {s : State}
    (sent : ∀ took, P ((writeSent a r bs s).deviceTakesIf took a r bs s.nextAnswer))
    (advance : ∀ t n, P t → P (t.advance n)) : P (memWrite f a r bs s).1 := by
  cases h : s.answerTo a with
  | ack => rw [memWrite_ack h]; exact sent true
  | nack => rw [memWrite_nack h]; exact sent _
  | silent =>
    cases ht : s.cfg.ackTimeoutUs with
    | none => rw [memWrite_silent h ht]; exact sent _
    | some d => rw [memWrite_timeout h ht]; exact advance _ _ (sent _)

/-- A register read ends with its event, which spans the time it took; before it are the transfer and perhaps the wait for
a silent device (R65, R66). -/
theorem memRead_eq_record (a : Addr) (r : Byte) (n : Nat) (s : State) :
    ∃ took u e, (u = readSent a r n took s ∨ ∃ d, u = (readSent a r n took s).advance d) ∧
      (memRead a r n s).1 = u.record e ∧ e.begins = s.now ∧ e.ends = u.now := by
  have hn := fun took => (readSent_now a r n took s).symm
  cases h : s.answerTo a with
  | ack => rw [memRead_ack h]; exact ⟨_, _, _, .inl rfl, rfl, rfl, hn _⟩
  | nack => rw [memRead_nack h]; exact ⟨_, _, _, .inl rfl, rfl, rfl, hn _⟩
  | silent =>
    cases ht : s.cfg.ackTimeoutUs with
    | none => rw [memRead_silent h ht]; exact ⟨_, _, _, .inl rfl, rfl, rfl, hn _⟩
    | some d =>
      rw [memRead_timeout h ht]
      exact ⟨_, _, _, .inr ⟨_, rfl⟩, rfl, rfl, congrArg (· + (d + s.nextAnswer.extra)) (hn _)⟩

/-- A device that takes a write changes neither the history nor the bus. -/
theorem deviceTakesIf_log_bus (s : State) (took : Bool) (a : Addr) (r : Byte) (bs : List Byte) (ans : Answer) :
    (s.deviceTakesIf took a r bs ans).log = s.log ∧ (s.deviceTakesIf took a r bs ans).bus = s.bus := by
  cases took with
  | false => exact ⟨rfl, rfl⟩
  | true =>
    show (s.deviceTakes a r bs ans).log = s.log ∧ (s.deviceTakes a r bs ans).bus = s.bus
    by_cases ha : a = s.cfg.dacAddr
    · unfold State.deviceTakes State.dacTakes
      rw [if_pos ha]
      split
      · split <;> exact ⟨rfl, rfl⟩
      · exact ⟨rfl, rfl⟩
    · obtain ⟨hlog, hbus, _, _⟩ := deviceTakes_rest s r bs ans ha
      exact ⟨hlog, hbus⟩

theorem pointerIf_bus (s : State) (took : Bool) (a : Addr) (r : Byte) : (s.pointerIf took a r).bus = s.bus := by
  cases took <;> rfl

theorem memWrite_bus (f : FailedWrite) (a : Addr) (r : Byte) (bs : List Byte) (s : State) :
    (memWrite f a r bs s).1.bus = .free :=
  memWrite_induction (P := fun t => t.bus = .free) (fun _ => (deviceTakesIf_log_bus _ _ _ _ _ _).2) fun _ _ h => h

theorem memRead_bus (a : Addr) (r : Byte) (n : Nat) (s : State) : (memRead a r n s).1.bus = .free := by
  obtain ⟨took, u, e, hu, hr, -, -⟩ := memRead_eq_record a r n s
  have hb : (readSent a r n took s).bus = .free := pointerIf_bus _ _ _ _
  rw [hr]
  obtain rfl | ⟨d, rfl⟩ := hu <;> exact hb

/-! ### Converters that nothing but time touches, over no time too -/

/-- Seen at the time of `t`, the converter at `b` is in `s` and in `t` the same: between them it only aged (R81). -/
def AgesAlike (s t : State) (b : Addr) : Prop :=
  (t.converter b).map (fun d => d.upTo t.now) = (s.converter b).map fun d => d.upTo t.now

theorem AgesAlike.of_eq {s t : State} (h : t.adc = s.adc) (b : Addr) : AgesAlike s t b := by
  unfold AgesAlike State.converter
  rw [h]

/-- A converter seen at a time and then at a later one is seen at the later one. -/
theorem map_upTo_upTo (o : Option AdcDev) {t u : Nat} (h : t ≤ u) :
    (o.map fun d => d.upTo t).map (fun d => d.upTo u) = o.map fun d => d.upTo u := by
  simp [Function.comp_def, AdcDev.upTo_upTo _ h]

theorem AgesAlike.trans {s t u : State} {b : Addr} (h : AgesAlike s t b) (k : AgesAlike t u b) (le : t.now ≤ u.now) :
    AgesAlike s u b := by
  unfold AgesAlike at *
  rw [k, ← map_upTo_upTo (t.converter b) le, h, map_upTo_upTo _ le]

theorem OnlyAges.agesAlike {s t : State} {b : Addr} (h : OnlyAges s t b) : AgesAlike s t b := by
  unfold OnlyAges at h
  unfold AgesAlike
  rw [h, map_upTo_upTo _ (Nat.le_refl _)]

/-- What only aged until a wait or a delay begins has only aged when it ends. -/
theorem AgesAlike.thenOnlyAges {s t u : State} {b : Addr} (h : AgesAlike s t b) (k : OnlyAges t u b) (le : t.now ≤ u.now) :
    OnlyAges s u b := by
  unfold OnlyAges AgesAlike at *
  rw [k, ← map_upTo_upTo (t.converter b) le, h, map_upTo_upTo _ le]

/-- A write to the DAC touches no converter (R61, R84). -/
theorem memWrite_dac_onlyAges (f : FailedWrite) {a : Addr} (r : Byte) (bs : List Byte) (s : State)
    (ha : a = s.cfg.dacAddr) (b : Addr) : OnlyAges s (memWrite f a r bs s).1 b := by
  refine memWrite_induction (P := fun t => OnlyAges s t b) (fun took => ?_)
    fun t n h => h.trans (advance_onlyAges t n b) (Nat.le_add_right _ _)
  refine (writeSent_onlyAges a r bs s b).congr ?_ (deviceTakesIf_now _ _ _ _ _ _)
  cases took with
  | false => rfl
  | true => exact congrArg (List.find? _) (deviceTakes_dac_adc (writeSent a r bs s) r bs _ ha)

/-! ### The frame of a row of micro-steps -/

/-- What a row of micro-steps that write no place outside `W` leaves: the histories grow, a free bus stays free, the host's
side stays, and so does every place outside `W`, a converter but for its age. -/
structure RunFrame (W : Set Place) (s t : State) : Prop where
  grows   : Grows s t
  host    : HostFrame s t
  bus     : s.bus = .free → t.bus = .free
  enabled : .gate ∉ W → t.enabled = s.enabled
  dacCode : .code ∉ W → t.dacCode = s.dacCode
  tx      : .serial ∉ W → t.tx = s.tx
  dac     : .dac ∉ W → t.dac = s.dac
  ages    : ∀ b, .converter b ∉ W → AgesAlike s t b

theorem RunFrame.refl (s : State) : RunFrame W s s :=
  ⟨.refl s, ⟨rfl, rfl, rfl⟩, id, fun _ => rfl, fun _ => rfl, fun _ => rfl, fun _ => rfl, fun _ _ => rfl⟩

theorem RunFrame.trans {s t u : State} (h : RunFrame W s t) (k : RunFrame W t u) : RunFrame W s u where
  grows := h.grows.trans k.grows
  host := ⟨k.host.host.trans h.host.host, k.host.cfg.trans h.host.cfg, k.host.inputs.trans h.host.inputs⟩
  bus hs := k.bus (h.bus hs)
  enabled hW := (k.enabled hW).trans (h.enabled hW)
  dacCode hW := (k.dacCode hW).trans (h.dacCode hW)
  tx hW := (k.tx hW).trans (h.tx hW)
  dac hW := (k.dac hW).trans (h.dac hW)
  ages b hW := (h.ages b hW).trans (k.ages b hW) k.grows.now

/-- A micro-step of the bus or of time, from what it leaves alone, what becomes of the DAC and of the converters. -/
theorem BusFrame.runFrame {s t : State} (h : BusFrame s t) (grows : Grows s t) (bus : s.bus = .free → t.bus = .free)
    (dac : .dac ∉ W → t.dac = s.dac) (ages : ∀ b, .converter b ∉ W → AgesAlike s t b) : RunFrame W s t :=
  ⟨grows, ⟨h.host, h.cfg, h.inputs⟩, bus, fun _ => h.enabled, fun _ => h.dacCode, fun _ => h.tx, dac, ages⟩

theorem memWrite_runFrame (f : FailedWrite) (a : Addr) (r : Byte) (bs : List Byte) (s : State)
    (h : Place.ofAddr s.cfg a ∈ W) : RunFrame W s (memWrite f a r bs s).1 := by
  refine (memWrite_busFrame f a r bs s).runFrame (memWrite_grows f a r bs s) (fun _ => memWrite_bus f a r bs s)
    (fun hW => memWrite_dac f r bs s ?_) fun b hW => OnlyAges.agesAlike ?_
  · rintro rfl
    exact hW (by rwa [Place.ofAddr, if_pos rfl] at h)
  · by_cases ha : a = s.cfg.dacAddr
    · exact memWrite_dac_onlyAges f r bs s ha b
    · rw [Place.ofAddr, if_neg ha] at h
      exact memWrite_onlyAges f r bs s (by rintro rfl; exact hW h)

theorem memRead_runFrame (a : Addr) (r : Byte) (n : Nat) (s : State) (h : .converter a ∈ W) :
    RunFrame W s (memRead a r n s).1 :=
  (memRead_busFrame a r n s).runFrame (memRead_grows a r n s) (fun _ => memRead_bus a r n s)
    (fun _ => (memRead_dac_faults a r n s).1)
    fun _ hW => (memRead_onlyAges r n s (by rintro rfl; exact hW h)).agesAlike

/-- Every micro-step keeps the frame of its places. -/
theorem MicroStep.frame {s t : State} (h : MicroStep W s t) : RunFrame W s t := by
  cases h with
  | setSeq op n => exact (setSeq_busFrame s op n).runFrame (setSeq_grows s op n) id (fun _ => rfl) fun _ _ => rfl
  | freeBus =>
    exact (setBus_busFrame s .free).runFrame (setBus_grows s .free) (fun _ => rfl) (fun _ => rfl) fun _ _ => rfl
  | report e p =>
    exact ⟨Grows.of_eq (Nat.le_refl _) rfl rfl rfl rfl, ⟨rfl, rfl, rfl⟩, id, fun _ => rfl, fun _ => rfl, fun _ => rfl,
      fun _ => rfl, fun _ _ => rfl⟩
  | draw => exact (popAnswer_busFrame s).runFrame (popAnswer_grows s) id (fun _ => rfl) fun _ _ => rfl
  | gate e h =>
    exact ⟨Grows.of_eq (Nat.le_refl _) rfl rfl rfl rfl, ⟨rfl, rfl, rfl⟩, id, (absurd h ·), fun _ => rfl, fun _ => rfl,
      fun _ => rfl, fun _ _ => rfl⟩
  | code k h =>
    exact ⟨Grows.of_eq (Nat.le_refl _) rfl rfl rfl rfl, ⟨rfl, rfl, rfl⟩, id, fun _ => rfl, (absurd h ·), fun _ => rfl,
      fun _ => rfl, fun _ _ => rfl⟩
  | write f a r bs h => exact memWrite_runFrame f a r bs s h
  | read a r n h => exact memRead_runFrame a r n s h
  | sleep d =>
    exact (delay_busFrame d s).runFrame (delay_grows d s) id (fun _ => rfl) fun b _ => (delay_onlyAges d s b).agesAlike
  | send bs h =>
    exact ⟨txBytes_grows bs s, ⟨rfl, rfl, rfl⟩, id, fun _ => rfl, fun _ => rfl, (absurd h ·), fun _ => rfl,
      fun b _ => (txBytes_onlyAges bs s b).agesAlike⟩
  | wait d =>
    exact (waitFor_busFrame d s).runFrame (waitFor_grows d s) id (fun _ => rfl)
      fun b _ => (OnlyAges.of_adc rfl b).agesAlike

/-- Every row of micro-steps keeps the frame of its places. -/
theorem Runs.frame {s t : State} (h : Runs W s t) : RunFrame W s t := by
  induction h with
  | refl => exact .refl s
  | tail _ k ih => exact ih.trans k.frame

/-! ### The invariant: conversions in their window (R81) -/

/-- Every pending conversion is in its window (R81). -/
def State.Windows (s : State) : Prop := ∀ d ∈ s.adc, ∀ k, d.pending = some k → k.inWindow s.cfg s.now

/-- What is still pending at a later time was pending before and ends after that time. -/
theorem AdcDev.upTo_pending {d : AdcDev} {t : Nat} {k : Conversion} (h : (d.upTo t).pending = some k) :
    d.pending = some k ∧ t < k.tDone := by
  cases hp : d.pending with
  | none => rw [AdcDev.upTo_none hp, hp] at h; cases h
  | some k' =>
    rw [AdcDev.upTo_some hp] at h
    split at h
    · cases h
    · next ht =>
      obtain rfl : k' = k := Option.some.inj (hp.symm.trans h)
      exact ⟨rfl, by omega⟩

theorem advance_windows {s : State} (n : Nat) (h : s.Windows) : (s.advance n).Windows := by
  intro d hd k hk
  obtain ⟨e, he, rfl⟩ := List.mem_map.1 hd
  obtain ⟨hp, ht⟩ := AdcDev.upTo_pending hk
  obtain ⟨hstart, -, hdone⟩ := h e he k hp
  exact ⟨Nat.le_add_right_of_le hstart, ht, hdone⟩

/-- A conversion begins in its window: its end is drawn within the settle delay of its rate (R80, R81). -/
theorem startConversion_inWindow (c : Cfg) (t : Nat) (w : Half) (ans : Answer) :
    (startConversion c t w ans).inWindow c t := by
  refine ⟨Nat.le_refl t, by simp only [startConversion]; omega, fun r hr => ?_⟩
  have hr : wordRate c w = some r := hr
  have := Nat.mod_lt ans.doneAfter (settleUs_pos (wordRate_isSome hr))
  simp only [startConversion, hr]
  generalize ans.doneAfter % settleUs c r = m at this ⊢
  omega

/-- After a write a converter has pending what it had, or a conversion that has just begun (R80, R83). -/
theorem AdcDev.take_pending {d : AdcDev} {c : Cfg} {t : Nat} {m : Bool} {r : Byte} {bs : List Byte} {ans : Answer}
    {k : Conversion} (h : (d.take c t m r bs ans).pending = some k) :
    d.pending = some k ∨ ∃ w, k = startConversion c t w ans := by
  unfold AdcDev.take at h
  split at h
  · split at h
    · unfold AdcDev.takeConfig at h
      split at h
      · simp only [AdcDev.afterOverlap] at h
        split at h
        · cases h
        · exact .inl h
        · exact .inr ⟨_, (Option.some.inj h).symm⟩
      · split at h
        · exact .inr ⟨_, (Option.some.inj h).symm⟩
        · exact .inl h
    · exact .inl h
  · exact .inl h

theorem mapAdc_windows {s : State} {a : Addr} {f : AdcDev → AdcDev}
    (hf : ∀ d k, (f d).pending = some k → d.pending = some k ∨ k.inWindow s.cfg s.now) (h : s.Windows) :
    (s.mapAdc a f).Windows := by
  intro d hd k hk
  obtain ⟨e, he, rfl⟩ := List.mem_map.1 hd
  split at hk
  · exact (hf e k hk).elim (h e he k) id
  · exact h e he k hk

theorem State.Windows.congr {s t : State} (h : s.Windows) (adc : t.adc = s.adc) (cfg : t.cfg = s.cfg)
    (now : t.now = s.now) : t.Windows := by
  unfold State.Windows
  rw [adc, cfg, now]
  exact h

theorem deviceTakesIf_windows {s : State} (took : Bool) (a : Addr) (r : Byte) (bs : List Byte) (ans : Answer)
    (h : s.Windows) : (s.deviceTakesIf took a r bs ans).Windows := by
  cases took with
  | false => exact h
  | true =>
    show (s.deviceTakes a r bs ans).Windows
    unfold State.deviceTakes
    split
    · exact h.congr (dacTakes_adc s r bs) (dacTakes_busFrame s r bs).cfg (dacTakes_now s r bs)
    · have hcfg := (noteOverlap_busFrame s a r bs).cfg
      have hnow := noteOverlap_now s a r bs
      refine mapAdc_windows (fun d k hk => ?_) (h.congr (noteOverlap_adc s a r bs) hcfg hnow)
      rw [hcfg, hnow]
      obtain hp | ⟨w, rfl⟩ := AdcDev.take_pending hk
      · exact .inl hp
      · exact .inr (startConversion_inWindow _ _ _ _)

theorem memWrite_windows {s : State} (f : FailedWrite) (a : Addr) (r : Byte) (bs : List Byte) (h : s.Windows) :
    (memWrite f a r bs s).1.Windows :=
  memWrite_induction (P := State.Windows) (fun took => deviceTakesIf_windows took a r bs _ (advance_windows (s := s) _ h))
    fun _ n hw => advance_windows n hw

theorem readSent_windows {s : State} (a : Addr) (r : Byte) (n : Nat) (took : Bool) (h : s.Windows) :
    (readSent a r n took s).Windows := by
  have ht : (s.popAnswer.transfer a (2 + n)).Windows := advance_windows (s := s) _ h
  cases took with
  | false => exact ht
  | true => exact mapAdc_windows (fun _ _ hk => .inl hk) ht

theorem memRead_windows {s : State} (a : Addr) (r : Byte) (n : Nat) (h : s.Windows) : (memRead a r n s).1.Windows := by
  obtain ⟨took, u, e, hu, hr, -, -⟩ := memRead_eq_record a r n s
  have hs := readSent_windows a r n took h
  rw [hr]
  obtain rfl | ⟨d, rfl⟩ := hu
  · exact hs
  · exact advance_windows (s := readSent a r n took s) d hs

/-! ### The invariant: one event after another (R27, R75) -/

/-- One event is added to the history, after all that was, and it has ended. -/
def AddsEvent (s t : State) : Prop :=
  ∃ e, t.log = s.log ++ [e] ∧ s.now ≤ e.begins ∧ e.begins ≤ e.ends ∧ e.ends ≤ t.now

theorem AddsEvent.ordered {s t : State} (h : AddsEvent s t) (ho : LogOrdered s.log s.now) : LogOrdered t.log t.now := by
  obtain ⟨e, hlog, hbegins, hspan, hends⟩ := h
  obtain ⟨hpair, hpast⟩ := ho
  rw [hlog]
  refine ⟨List.pairwise_append.2 ⟨hpair, List.pairwise_singleton _ _, fun x hx y hy => ?_⟩, fun x hx => ?_⟩
  · obtain rfl := List.mem_singleton.1 hy
    exact (hpast x hx).2.trans hbegins
  · obtain hx | hx := List.mem_append.1 hx
    · obtain ⟨hxs, hxe⟩ := hpast x hx
      exact ⟨hxs, by omega⟩
    · obtain rfl := List.mem_singleton.1 hx
      exact ⟨hspan, hends⟩

/-- Time alone keeps the history in order. -/
theorem LogOrdered.later {log : List Event} {t u : Nat} (h : LogOrdered log t) (le : t ≤ u) : LogOrdered log u :=
  ⟨h.1, fun e he => ⟨(h.2 e he).1, (h.2 e he).2.trans le⟩⟩

theorem memWrite_addsEvent (f : FailedWrite) (a : Addr) (r : Byte) (bs : List Byte) (s : State) :
    AddsEvent s (memWrite f a r bs s).1 := by
  refine memWrite_induction (P := AddsEvent s) (fun took => ?_) fun t n ⟨e, hlog, hbegins, hspan, hends⟩ =>
    ⟨e, hlog, hbegins, hspan, Nat.le_add_right_of_le hends⟩
  exact ⟨_, (deviceTakesIf_log_bus _ took a r bs _).1, Nat.le_refl _, Nat.le_add_right _ _,
    Nat.le_of_eq (deviceTakesIf_now (writeSent a r bs s) took a r bs s.nextAnswer).symm⟩

theorem memRead_addsEvent (a : Addr) (r : Byte) (n : Nat) (s : State) : AddsEvent s (memRead a r n s).1 := by
  obtain ⟨took, u, e, hu, hr, hbegins, hends⟩ := memRead_eq_record a r n s
  have hsent := readSent_now a r n took s
  have hlog : (readSent a r n took s).log = s.log := by cases took <;> rfl
  have hnow : s.now ≤ u.now ∧ u.log = s.log := by
    obtain rfl | ⟨d, rfl⟩ := hu
    · exact ⟨by omega, hlog⟩
    · exact ⟨by rw [State.advance_now]; omega, hlog⟩
  rw [hr]
  exact ⟨e, congrArg (· ++ [e]) hnow.2, hbegins.ge, by rw [hbegins, hends]; exact hnow.1, hends.le⟩

/-! ### The invariant is kept -/

/-- A state that shares with one in the invariant what the invariant looks at, its bus free. -/
theorem State.Inv.congr {s t : State} (h : s.Inv) (bus : t.bus = .free) (adc : t.adc = s.adc) (cfg : t.cfg = s.cfg)
    (now : t.now = s.now) (log : t.log = s.log) (host : t.host = s.host) : t.Inv where
  idleFree _ := bus
  devices := by rw [adc, cfg]; exact h.devices
  conversions := State.Windows.congr h.conversions adc cfg now
  ordered := by rw [log, now]; exact h.ordered
  offsets := by rw [host, cfg]; exact h.offsets

/-- The invariant is kept by a micro-step of the bus or of time that adds one event. -/
theorem State.Inv.addEvent {s t : State} (h : s.Inv) (bus : t.bus = .free) (devices : Devices.wf t.cfg t.adc)
    (windows : t.Windows) (event : AddsEvent s t) (host : HostFrame s t) : t.Inv where
  idleFree _ := bus
  devices := devices
  conversions := windows
  ordered := event.ordered h.ordered
  offsets := by rw [host.host, host.cfg]; exact h.offsets

/-- Time keeps the invariant, whoever holds the bus. -/
theorem waitFor_keeps_inv {s : State} (d : Nat) (h : s.Inv) : (waitFor d s).Inv where
  idleFree := h.idleFree
  devices := advance_keeps_devices (s := s) _ h.devices
  conversions := advance_windows (s := s) _ h.conversions
  ordered := h.ordered.later (Nat.le_add_right _ _)
  offsets := h.offsets

/-- Every micro-step keeps the invariant while the bus is free between micro-steps (R46). -/
theorem MicroStep.keeps_inv {s t : State} (h : MicroStep W s t) (hb : s.bus = .free) (hi : s.Inv) : t.Inv := by
  have hf := h.frame
  have ht := hf.bus hb
  cases h with
  | setSeq | freeBus | report | draw | gate | code => exact hi.congr ht rfl rfl rfl rfl rfl
  | write f a r bs =>
    exact hi.addEvent ht (memWrite_keeps_devices f a r bs hi.devices) (memWrite_windows f a r bs hi.conversions)
      (memWrite_addsEvent f a r bs s) hf.host
  | read a r n =>
    exact hi.addEvent ht (memRead_keeps_devices a r n hi.devices) (memRead_windows a r n hi.conversions)
      (memRead_addsEvent a r n s) hf.host
  | sleep d =>
    exact hi.addEvent ht (advance_keeps_devices (s := s) _ hi.devices) (advance_windows (s := s) _ hi.conversions)
      ⟨_, rfl, Nat.le_refl _, Nat.le_add_right _ _, Nat.le_refl _⟩ hf.host
  | send bs =>
    exact hi.addEvent ht (advance_keeps_devices (s := s) _ hi.devices) (advance_windows (s := s) _ hi.conversions)
      ⟨_, rfl, Nat.le_refl _, Nat.le_refl _, Nat.le_add_right _ _⟩ hf.host
  | wait d => exact waitFor_keeps_inv d hi

/-- Every row of micro-steps from a state with a free bus keeps the invariant. -/
theorem Runs.keeps_inv {s t : State} (h : Runs W s t) (hb : s.bus = .free) (hi : s.Inv) : t.Inv := by
  induction h with
  | refl => exact hi
  | tail hu k ih => exact k.keeps_inv ((Runs.frame hu).bus hb) ih

end Sys2Proof.Machine
end

section
/-!
PROOFS. What a step of the machine is beside the operations: a wait, or a run of micro-steps of a ready block, and then what
the host does to its own side (R28, R281, R286, R287).
-/

namespace Sys2Proof.Machine

/-- How the block gets from `s` to `u`: nothing happens, time passes in a wait, or a ready block takes micro-steps. -/
def BlockMoves (s u : State) : Prop := u = s ∨ (∃ d, u = waitFor d s) ∨ (s.Ready ∧ ∃ W, Runs W s u)

theorem BlockMoves.grows {s u : State} (h : BlockMoves s u) : Grows s u := by
  obtain rfl | ⟨d, rfl⟩ | ⟨_, W, hr⟩ := h
  · exact .refl u
  · exact waitFor_grows d s
  · exact hr.frame.grows

theorem BlockMoves.keeps_inv {s u : State} (h : BlockMoves s u) (hi : s.Inv) : u.Inv := by
  obtain rfl | ⟨d, rfl⟩ | ⟨hs, W, hr⟩ := h
  · exact hi
  · exact waitFor_keeps_inv d hi
  · exact hr.keeps_inv hs.rest.2 hi

theorem exec_blockMoves {i : Instr} {s t : State} (h : exec i s = .next t) : BlockMoves s t :=
  .inr (.inr ⟨ready_of_exec h, _, exec_runs h⟩)

/-- What a step can do: the block moves, and the host changes its own side, which keeps the number of its offsets. -/
def HostStep (s t : State) : Prop :=
  ∃ u h, BlockMoves s u ∧ h.offsets.length = u.host.offsets.length ∧ t = u.setHost h

theorem BlockMoves.hostStep {s t : State} (h : BlockMoves s t) : HostStep s t := ⟨t, t.host, h, rfl, rfl⟩

theorem pressed_offsets (h : HostSide) (c : Cfg) (now : Nat) (low : Bool) : (h.pressed c now low).offsets = h.offsets := by
  unfold HostSide.pressed
  split <;> rfl

/-- A calibration keeps one offset place per sensor (R36, R286). -/
theorem calibrated_offsets_length (h : HostSide) (c : Cfg) (k : Nat) (cal : Calibration)
    (x : Except BlockError (List Rat)) : (h.calibrated c k cal x).offsets.length = h.offsets.length := by
  rcases x with (_ | _ | _) | xs
  · rfl
  · rfl
  · rfl
  · exact List.length_set

theorem calibrate_hostStep {k : Nat} {s t : State} (h : calibrate k s = .next t) : HostStep s t := by
  unfold calibrate at h
  split at h
  · cases h
  · next cal _ =>
    split at h
    · cases h
      exact BlockMoves.hostStep (.inl rfl)
    · obtain ⟨hr, hs, rfl⟩ := run_eq_next_iff.1 h
      exact ⟨_, _, .inr (.inr ⟨hr, _, .head (.setSeq s .idle 0) (takeSamples_runs subset_rfl hs)⟩),
        calibrated_offsets_length _ _ _ _ _, rfl⟩

theorem poll_hostStep {s t : State} (h : poll s = .next t) : HostStep s t := by
  unfold poll at h
  split at h
  · exact (exec_blockMoves h).hostStep
  · cases h
    exact BlockMoves.hostStep (.inr (.inl ⟨0, rfl⟩))

theorem issue_hostStep {cw : Word} {p : Payload} {s t : State} (h : issue cw p s = .next t) : HostStep s t := by
  unfold issue at h
  split at h
  · exact (exec_blockMoves h).hostStep
  · cases h

theorem takeInput_hostStep {x : HostInput} {s t : State} (h : takeInput x s = .next t) : HostStep s t := by
  cases x with
  | command cw p => exact issue_hostStep h
  | wait d =>
    cases h
    exact BlockMoves.hostStep (.inr (.inl ⟨d, rfl⟩))
  | button low =>
    cases h
    exact ⟨s, _, .inl rfl, congrArg List.length (pressed_offsets _ _ _ _), rfl⟩
  | poll => exact poll_hostStep h
  | calibrate k => exact calibrate_hostStep h

/-- A step is a step of the host from the state whose queue has lost its head, if it had one (R280, R281). -/
theorem step_hostStep {s t : State} (h : step s = .next t) : ∃ rest, HostStep (s.setInputs rest) t := by
  unfold step at h
  split at h
  · next he =>
    cases h
    refine ⟨[], BlockMoves.hostStep (.inr (.inl ⟨0, ?_⟩))⟩
    rw [← he]
    rfl
  · exact ⟨_, takeInput_hostStep h⟩

theorem HostStep.grows {s t : State} (h : HostStep s t) : Grows s t := by
  obtain ⟨u, hs, hu, -, rfl⟩ := h
  exact hu.grows.trans (Grows.of_eq (Nat.le_refl _) rfl rfl rfl rfl)

theorem HostStep.keeps_inv {s t : State} (h : HostStep s t) (hi : s.Inv) : t.Inv := by
  obtain ⟨u, hs, hu, hlen, rfl⟩ := h
  have hiu := hu.keeps_inv hi
  exact ⟨hiu.idleFree, hiu.devices, hiu.conversions, hiu.ordered, hlen.trans hiu.offsets⟩

/-- The invariant does not look at the host's queue. -/
theorem setInputs_keeps_inv {s : State} (is : List HostInput) (h : s.Inv) : (s.setInputs is).Inv :=
  ⟨h.idleFree, h.devices, h.conversions, h.ordered, h.offsets⟩

/-- Settles O10: every micro-step only grows time and the histories, and so does what the host does between operations. -/
theorem stepOnlyGrows : Obligations.StepOnlyGrows := by
  intro s t h
  obtain ⟨rest, hstep⟩ := step_hostStep h
  have hqueue : Grows s (s.setInputs rest) := Grows.of_eq (Nat.le_refl _) rfl rfl rfl rfl
  exact hqueue.trans hstep.grows

/-- Settles O9: every micro-step that begins with a free bus keeps the invariant and leaves the bus free. -/
theorem stepKeepsTheInvariant : Obligations.StepKeepsTheInvariant := by
  intro s t hi h
  obtain ⟨rest, hstep⟩ := step_hostStep h
  exact hstep.keeps_inv (setInputs_keeps_inv rest hi)

/-- Settles O8: no device has anything pending at reset and the history is empty. -/
theorem resetMeetsTheInvariant : Obligations.ResetMeetsTheInvariant := by
  intro c
  refine ⟨fun _ => rfl, resetWith_devices c, fun d hd k hk => ?_, ⟨List.Pairwise.nil, by simp [State.resetWith]⟩,
    List.length_replicate⟩
  obtain ⟨a, -, rfl⟩ := List.mem_map.1 hd
  cases hk

/-- Settles O7, place by place. -/
theorem resetValues : Obligations.ResetValues := by
  intro c
  refine ⟨rfl, rfl, rfl, rfl, rfl, rfl, rfl, rfl, fun d hd => ?_, resetWith_devices c, rfl,
    fun o ho => List.eq_of_mem_replicate ho⟩
  obtain ⟨a, -, rfl⟩ := List.mem_map.1 hd
  rfl

end Sys2Proof.Machine
end

section
/-!
PROOFS. How an operation ends: idle, with a response that carries its code and the new error code (R26, R121); and which
operation writes which place (R22, R23, R29, R84).
-/

namespace Sys2Proof.Machine

/-! ### The nibbles of command and response words (R102, R121) -/

/-- The operation an instruction is (R101). -/
def opOf : Instr → Op
  | .wrreg _ _ _ => .wrreg
  | .rdreg _ _ _ => .rdreg
  | .settle _ => .settle
  | .rdch _ _ _ _ _ => .rdch
  | .setcode _ => .setcode
  | .seten _ => .seten
  | .ctrl => .ctrl
  | .fmtrec _ => .fmtrec
  | .txrec _ => .txrec
  | .diagln _ => .diagln
  | .cycle => .cycle

/-- A part of a word reads of an or what it reads of both sides. -/
theorem extract_or (x y : Word) (lo n : Nat) : (x ||| y).extractLsb' lo n = x.extractLsb' lo n ||| y.extractLsb' lo n := by
  apply BitVec.eq_of_getLsbD_eq
  intro i hi
  simp [hi]

/-- A field put below the part that is read is not seen. -/
theorem extract_put_below {n : Nat} (x : BitVec n) {pos lo m : Nat} (h : pos + n ≤ lo) :
    (put x pos).extractLsb' lo m = 0 := by
  apply BitVec.eq_of_getLsbD_eq
  intro i hi
  have : n ≤ lo + i - pos := by omega
  simp [put, BitVec.getLsbD_of_ge x _ this]

/-- A field put above the part that is read is not seen. -/
theorem extract_put_above {n : Nat} (x : BitVec n) {pos lo m : Nat} (h : lo + m ≤ pos) :
    (put x pos).extractLsb' lo m = 0 := by
  apply BitVec.eq_of_getLsbD_eq
  intro i hi
  have : lo + i < pos := by omega
  simp [put, this]

/-- A field is read where it was put. -/
theorem extract_put_same {n : Nat} (x : BitVec n) {lo : Nat} (h : lo + n ≤ 32) : (put x lo).extractLsb' lo n = x := by
  apply BitVec.eq_of_getLsbD_eq
  intro i hi
  have : lo + i < 32 := by omega
  simp [put, hi, this]

theorem opField_encodeWord (i : Instr) : opField (encodeWord i) = (opOf i).code := by
  cases i <;> simp [opField, encodeWord, opOf, Op.code, extract_or, extract_put_below, extract_put_same]

theorem responseWord_op (op : Op) (e : ErrCode) (k : BitVec 24) : (responseWord op e k).extractLsb' 28 4 = op.code := by
  simp [responseWord, extract_or, extract_put_below, extract_put_same]

theorem responseWord_err (op : Op) (e : ErrCode) (k : BitVec 24) :
    (responseWord op e k).extractLsb' 24 4 = e.number := by
  simp [responseWord, extract_or, extract_put_above, extract_put_below, extract_put_same]

/-! ### The end of an operation -/

/-- An operation has ended: the sequencer is idle, and the response carries the operation's code and the error code. -/
structure EndsWith (op : Op) (t : State) : Prop where
  seq  : t.seq = ⟨.idle, 0⟩
  resp : ∃ p, t.resp = some p ∧ p.rw.extractLsb' 28 4 = op.code ∧ p.rw.extractLsb' 24 4 = t.err.number

theorem finish_endsWith (op : Op) (k : BitVec 24) (r : Result) (s : State) : EndsWith op (finish op k r s) :=
  ⟨rfl, _, rfl, responseWord_op _ _ _, responseWord_err _ _ _⟩

theorem complete_endsWith {α : Type} (op : Op) (k : α → BitVec 24) (r : α → Result) (x : Res α) :
    EndsWith op (complete op k r x) := by
  obtain ⟨t, e | v⟩ := x
  · exact ⟨rfl, _, rfl, responseWord_op _ _ _, responseWord_err _ _ _⟩
  · exact finish_endsWith op (k v) (r v) t

theorem finishCycle_endsWith (last : Option BlockError) (fs : List Field) (s : State) :
    EndsWith .cycle (finishCycle last fs s) :=
  ⟨rfl, _, rfl, responseWord_op _ _ _, responseWord_err _ _ _⟩

theorem run_endsWith {op op' : Op} {stop : Option Refusal} {body : State → State} {s t : State}
    {o : Host.Outcome State Fault Refusal} (ho : o = run op stop body s) (h : o = .next t)
    (hb : ∀ u, EndsWith op' (body u)) : EndsWith op' t := by
  obtain ⟨_, _, rfl⟩ := run_eq_next_iff.1 (ho.symm.trans h)
  exact hb _

theorem exec_endsWith {i : Instr} {s t : State} (h : exec i s = .next t) : EndsWith (opOf i) t := by
  cases i with
  | wrreg a r bs => exact run_endsWith (exec_wrreg a r bs s) h fun _ => complete_endsWith _ _ _ _
  | rdreg a r len => exact run_endsWith (exec_rdreg a r len s) h fun _ => complete_endsWith _ _ _ _
  | settle dur => exact run_endsWith (exec_settle dur s) h fun _ => finish_endsWith _ _ _ _
  | rdch a ch g dr cd => exact run_endsWith (exec_rdch a ch g dr cd s) h fun _ => complete_endsWith _ _ _ _
  | setcode code => exact run_endsWith (exec_setcode code s) h fun _ => complete_endsWith _ _ _ _
  | seten e => exact run_endsWith (exec_seten e s) h fun _ => finish_endsWith _ _ _ _
  | ctrl => exact run_endsWith (exec_ctrl s) h fun _ => complete_endsWith _ _ _ _
  | fmtrec fs => exact run_endsWith (exec_fmtrec fs s) h fun _ => finish_endsWith _ _ _ _
  | txrec fs => exact run_endsWith (exec_txrec fs s) h fun _ => finish_endsWith _ _ _ _
  | diagln ps => exact run_endsWith (exec_diagln ps s) h fun _ => finish_endsWith _ _ _ _
  | cycle => exact run_endsWith (exec_cycle s) h fun _ => finishCycle_endsWith _ _ _

/-- Settles O11: the end of every operation writes sequencer and response, and every run of micro-steps frees the bus and
leaves the host's side. -/
theorem operationsEndIdleWithAResponse : Obligations.OperationsEndIdleWithAResponse := by
  intro i s t h
  have hf := (exec_runs h).frame
  obtain ⟨hseq, hresp⟩ := exec_endsWith h
  rw [opField_encodeWord]
  exact ⟨⟨hseq, hf.bus (ready_of_exec h).rest.2⟩, hf.host, hresp⟩

/-! ### The writers of each place -/

@[simp] theorem mem_channelPlaces {x : ChannelConfig} {p : Place} :
    p ∈ channelPlaces x ↔ legalChannel x.ch = true ∧ p = .converter x.addr := Iff.rfl

@[simp] theorem mem_controlPlaces {c : Cfg} {p : Place} :
    p ∈ controlPlaces c ↔ (p = .code ∨ p = .dac) ∨ p ∈ channelPlaces c.refChannel := Iff.rfl

@[simp] theorem mem_cyclePlaces {c : Cfg} {p : Place} :
    p ∈ cyclePlaces c ↔
      p = .serial ∨ (∃ x ∈ c.schedule, p ∈ channelPlaces x) ∨ (c.ctrlInCycle = true ∧ p ∈ controlPlaces c) := Iff.rfl

/-- A register write reaches a device and no register of the block. -/
theorem ofAddr_eq (c : Cfg) (a : Addr) : Place.ofAddr c a = .dac ∨ Place.ofAddr c a = .converter a := by
  unfold Place.ofAddr
  split
  · exact .inl rfl
  · exact .inr rfl

theorem gate_mem_instrPlaces {c : Cfg} {i : Instr} (h : .gate ∈ instrPlaces c i) : ∃ e, i = .seten e := by
  cases i with
  | seten e => exact ⟨e, rfl⟩
  | wrreg a r bs => obtain ha | ha := ofAddr_eq c a <;> simp [instrPlaces, ha] at h
  | _ => simp [instrPlaces] at h

theorem code_mem_instrPlaces {c : Cfg} {i : Instr} (h : .code ∈ instrPlaces c i) :
    (∃ k, i = .setcode k) ∨ i = .ctrl ∨ (i = .cycle ∧ c.ctrlInCycle = true) := by
  cases i with
  | setcode k => exact .inl ⟨k, rfl⟩
  | ctrl => exact .inr (.inl rfl)
  | cycle => exact .inr (.inr ⟨rfl, by simpa [instrPlaces] using h⟩)
  | wrreg a r bs => obtain ha | ha := ofAddr_eq c a <;> simp [instrPlaces, ha] at h
  | _ => simp [instrPlaces] at h

theorem serial_mem_instrPlaces {c : Cfg} {i : Instr} (h : .serial ∈ instrPlaces c i) :
    (∃ fs, i = .txrec fs) ∨ (∃ ps, i = .diagln ps) ∨ i = .cycle := by
  cases i with
  | txrec fs => exact .inl ⟨fs, rfl⟩
  | diagln ps => exact .inr (.inl ⟨ps, rfl⟩)
  | cycle => exact .inr (.inr rfl)
  | wrreg a r bs => obtain ha | ha := ofAddr_eq c a <;> simp [instrPlaces, ha] at h
  | _ => simp [instrPlaces] at h

theorem dac_mem_instrPlaces {c : Cfg} {i : Instr} (h : .dac ∈ instrPlaces c i) :
    (∃ a r bs, i = .wrreg a r bs) ∨ (∃ k, i = .setcode k) ∨ i = .ctrl ∨ i = .cycle := by
  cases i with
  | wrreg a r bs => exact .inl ⟨a, r, bs, rfl⟩
  | setcode k => exact .inr (.inl ⟨k, rfl⟩)
  | ctrl => exact .inr (.inr (.inl rfl))
  | cycle => exact .inr (.inr (.inr rfl))
  | _ => simp [instrPlaces] at h

/-- Settles O45: an operation writes its own places, and which they are is read off `instrPlaces`. -/
theorem writersOfEachPlace : Obligations.WritersOfEachPlace := by
  intro i s t h
  have hf := (exec_runs h).frame
  refine ⟨fun hseten => hf.enabled fun hg => ?_, fun hset hctrl hcycle => hf.dacCode fun hc => ?_,
    fun htx hdiag hcycle => hf.tx fun hs => ?_, fun hwr hset hctrl hcycle => hf.dac fun hd => ?_⟩
  · obtain ⟨e, rfl⟩ := gate_mem_instrPlaces hg
    exact hseten e rfl
  · obtain ⟨k, rfl⟩ | rfl | ⟨rfl, hin⟩ := code_mem_instrPlaces hc
    · exact hset k rfl
    · exact hctrl rfl
    · simp [hin] at hcycle
  · obtain ⟨fs, rfl⟩ | ⟨ps, rfl⟩ | rfl := serial_mem_instrPlaces hs
    · exact htx fs rfl
    · exact hdiag ps rfl
    · exact hcycle rfl
  · obtain ⟨a, r, bs, rfl⟩ | ⟨k, rfl⟩ | rfl | rfl := dac_mem_instrPlaces hd
    · exact hwr a r bs rfl
    · exact hset k rfl
    · exact hctrl rfl
    · exact hcycle rfl

/-! ### The frame of a cycle -/

/-- A control step leaves the DAC with its old code or the stored one (R204, R206). -/
theorem controlStep_dac {s : State} (hs : channelStop s.cfg s.cfg.refChannel = none) :
    (controlStep s).1.dac = s.dac ∨ (controlStep s).1.dac = (controlStep s).1.dacCode := by
  have hr := (readChannel_frame s.cfg.refChannel s (channelStop_none_dac hs)).dac
  rw [controlStep_eq]
  generalize readChannel s.cfg.refChannel s = x at hr
  obtain ⟨t, e | v⟩ := x
  · exact .inl hr
  · exact (writeCode_frame (gatedCode t v) t).dac.imp_left fun h => h.trans hr

theorem cycleControl_dac {s : State} (last : Option BlockError)
    (hs : s.cfg.ctrlInCycle = true → channelStop s.cfg s.cfg.refChannel = none) :
    (cycleControl s last).1.dac = s.dac ∨ (cycleControl s last).1.dac = (cycleControl s last).1.dacCode := by
  unfold cycleControl
  split
  · next hc => exact controlStep_dac (hs hc)
  · exact .inl rfl

/-- The sweep of a cycle does not write the DAC. -/
theorem sweptState_dac {s : State} (hs : ∀ x ∈ s.cfg.schedule, channelStop s.cfg x = none) :
    (sweptState s).dac = s.dac :=
  (sweptState_runs (W := {p | ∃ x ∈ s.cfg.schedule, p ∈ channelPlaces x}) hs fun x hx _ hp => ⟨x, hx, hp⟩).frame.dac
    (by simp)

theorem controlledState_dac {s : State} (hs : cycleStop s.cfg = none) :
    (controlledState s).dac = s.dac ∨ (controlledState s).dac = (controlledState s).dacCode := by
  obtain ⟨hsched, href⟩ := channelStops_of_cycleStop hs
  have hcfg : (sweptState s).cfg = s.cfg :=
    (sweptState_runs (W := Set.univ) hsched fun _ _ => Set.subset_univ _).cfg
  rw [← sweptState_dac hsched]
  exact cycleControl_dac _ (by rwa [hcfg])

/-- What a cycle does after its control step writes neither the DAC nor the stored code. -/
theorem afterControl_dac (n k d : Nat) (fs : List Field) (last : Option BlockError) (u : State) :
    (finishCycle last fs (delay d ((sendRecord fs (u.setSeq .cycle n)).setSeq .cycle k))).dac = u.dac ∧
      (finishCycle last fs (delay d ((sendRecord fs (u.setSeq .cycle n)).setSeq .cycle k))).dacCode = u.dacCode := by
  simp [finishCycle, delay, sendRecord, txBytes]

/-- A cycle leaves the DAC with its old code or the stored one (R204, R261). -/
theorem cycleBody_dac {s : State} (hs : cycleStop s.cfg = none) :
    (cycleBody s).dac = s.dac ∨ (cycleBody s).dac = (cycleBody s).dacCode := by
  obtain ⟨n, k, fs, d, last, he⟩ := cycleBody_eq s
  obtain ⟨hdac, hcode⟩ := afterControl_dac n k d fs last (controlledState s)
  rw [he, hdac, hcode]
  exact controlledState_dac hs

/-- A converter a cycle does not address has only aged when the cycle ends, as it ends with a delay (R264). -/
theorem cycleBody_onlyAges {s : State} (hs : cycleStop s.cfg = none) {b : Addr}
    (hb : .converter b ∉ cyclePlaces s.cfg) : OnlyAges s (cycleBody s) b := by
  obtain ⟨m, d, last, fs, hm, he⟩ := cycleBody_eq_delay hs subset_rfl
  rw [he]
  exact (hm.frame.ages b hb).thenOnlyAges (delay_onlyAges d m b) (delay_grows d m).now

/-- Settles O53: the frame of the places a cycle writes, and the DAC followed through its control step. -/
theorem cycleFrame : Obligations.CycleFrame := by
  intro s t h
  have hf := (exec_runs h).frame
  obtain ⟨_, hs, rfl⟩ := run_eq_next_iff.1 ((exec_cycle s).symm.trans h)
  have hs' : cycleStop (s.setSeq .cycle 0).cfg = none := hs
  refine ⟨hf.enabled (by simp [instrPlaces]), hf.host, fun b hsched href => ?_, cycleBody_dac hs', fun hc =>
    ⟨hf.dacCode (by simp [instrPlaces, hc]), hf.dac (by simp [instrPlaces, hc])⟩⟩
  refine cycleBody_onlyAges hs' fun hb => ?_
  obtain hb | ⟨x, hx, -, hb⟩ | ⟨hc, (hb | hb) | ⟨-, hb⟩⟩ := hb
  · cases hb
  · exact hsched x hx (Place.converter.inj hb)
  · cases hb
  · cases hb
  · exact href hc (Place.converter.inj hb)

end Sys2Proof.Machine
end

section
/-!
PROOFS. Acknowledged register writes to a converter that start no conversion (R80, R141).
-/

namespace Sys2Proof.Machine

/-- Nothing stops the register byte alone, or with two bytes, to one of a converter's two registers (R62, R72, R141). -/
theorem wrregStop_converter {c : Cfg} {a : Addr} {r : Byte} {bs : List Byte} (hc : c.wf = true) (ha : a ∈ c.adcAddr)
    (hr : r = c.regConfig ∨ r = c.regConversion) (hbs : bs.length = 2 ∨ bs.length = 0) : wrregStop c a r bs = none := by
  have hlen : bs.length ≤ 255 := by omega
  have hmap : c.adcAddr.contains a = true := by simpa using ha
  rw [wrregStop, if_pos hlen, writeStop, if_neg (ne_dac_of_wf hc ha), if_pos hmap, if_pos ⟨hr, hbs⟩]

/-- A write that starts nothing on any converter leaves no mark (R83). -/
theorem noteOverlap_eq_self {s : State} {r : Byte} {bs : List Byte} (h : ∀ e : AdcDev, e.overlaps s.cfg r bs = false)
    (a : Addr) : s.noteOverlap a r bs = s := by
  simp [State.noteOverlap, h]

theorem deviceTakes_faults_of_no_overlap {s : State} {a : Addr} {r : Byte} {bs : List Byte} (ans : Answer)
    (ha : a ≠ s.cfg.dacAddr) (h : ∀ e : AdcDev, e.overlaps s.cfg r bs = false) :
    (s.deviceTakes a r bs ans).faults = s.faults := by
  unfold State.deviceTakes
  rw [if_neg ha, noteOverlap_eq_self h]
  rfl

theorem AdcDev.take_nil (d : AdcDev) (c : Cfg) (t : Nat) (m : Bool) (r : Byte) (ans : Answer) :
    d.take c t m r [] ans = { d with ptr := r } := rfl

theorem AdcDev.take_config {c : Cfg} {b0 b1 : Byte} (h : startBit c (u16 b0 b1) = false) (d : AdcDev) (t : Nat)
    (ans : Answer) :
    d.take c t false c.regConfig [b0, b1] ans = { d with ptr := c.regConfig, cfg := u16 b0 b1 } := by
  simp [AdcDev.take, AdcDev.takeConfig, h]

theorem AdcDev.take_other {c : Cfg} {r : Byte} (h : r ≠ c.regConfig) (d : AdcDev) (t : Nat) (m : Bool) (b0 b1 : Byte)
    (ans : Answer) : d.take c t m r [b0, b1] ans = { d with ptr := r } := by
  simp [AdcDev.take, h]

/-- An acknowledged write to an unmarked converter that starts nothing: error 0, no mark, and the converter, aged to the end of
the write, takes the bytes (R64, R80). -/
theorem wrreg_starts_nothing {a : Addr} {r : Byte} {bs : List Byte} {s : State} {d : AdcDev} (hs : s.Ready)
    (ha : a ∈ s.cfg.adcAddr) (hstop : wrregStop s.cfg a r bs = none) (hack : s.answerTo a = .ack)
    (hm : s.marked a = false) (hd : s.converter a = some d) (ho : ∀ e : AdcDev, e.overlaps s.cfg r bs = false) :
    ∃ t, exec (.wrreg a r bs) s = .next t ∧ t.err = .none ∧ t.faults = s.faults ∧
      t.converter a = some ((d.upTo t.now).take s.cfg t.now false r bs s.nextAnswer) := by
  have hdac : a ≠ s.cfg.dacAddr := ne_dac_of_wf hs.cfg ha
  have hrun : exec (.wrreg a r bs) s =
      .next (finish .wrreg 0 .empty ((writeSent a r bs (s.setSeq .wrreg 0)).deviceTakes a r bs s.nextAnswer)) := by
    rw [exec_wrreg, run_ready hs hstop, memWrite_ack (s := s.setSeq .wrreg 0) hack]
    rfl
  have hage : OnlyAges s (writeSent a r bs (s.setSeq .wrreg 0)) a := writeSent_onlyAges a r bs (s.setSeq .wrreg 0) a
  have hmarked : (writeSent a r bs (s.setSeq .wrreg 0)).marked a = false := hm
  have hfaults := deviceTakes_faults_of_no_overlap (s := writeSent a r bs (s.setSeq .wrreg 0)) s.nextAnswer hdac ho
  have htake := deviceTakes_converter_same (writeSent a r bs (s.setSeq .wrreg 0)) r bs s.nextAnswer hdac
  rw [hage, hd, hmarked, Option.map_some, Option.map_some] at htake
  refine ⟨_, hrun, rfl, hfaults, htake.trans ?_⟩
  rw [finish_now, deviceTakes_now]
  rfl

/-- Settles O17: in each of its three forms the write starts nothing, and `AdcDev.take` says what the converter keeps. -/
theorem otherConverterWritesStartNothing : Obligations.OtherConverterWritesStartNothing := by
  intro a r b0 b1 s d hs ha hack hm hd
  refine ⟨fun hr => ?_, fun hstart => ?_, fun hne => ?_⟩
  · exact wrreg_starts_nothing hs ha (wrregStop_converter hs.cfg ha hr (.inr rfl)) hack hm hd fun _ => rfl
  · have h := wrreg_starts_nothing (bs := [b0, b1]) hs ha (wrregStop_converter hs.cfg ha (.inl rfl) (.inl rfl)) hack hm hd
      fun e => by simp [AdcDev.overlaps, hstart]
    simpa only [AdcDev.take_config hstart] using h
  · have h := wrreg_starts_nothing (bs := [b0, b1]) hs ha (wrregStop_converter hs.cfg ha (.inr rfl) (.inl rfl)) hack hm hd
      fun e => by simp [AdcDev.overlaps, hne]
    simpa only [AdcDev.take_other hne] using h

end Sys2Proof.Machine
end

section
/-!
PROOFS. The grounds on which an input is refused: the configuration (U22), the shape of a raw access (R62, R63, R72), and a
channel read without a meaning, alone or inside CTRL and CYCLE (R63, R180, R181).
-/

namespace Sys2Proof.Machine

/-! ### The domain of a configuration (U22) -/

theorem legalChannel_iff {ch : BitVec 4} : legalChannel ch = true ↔ ch.toNat < 4 := decide_eq_true_iff

theorem addressesOk_iff {c : Cfg} : c.addressesOk = true ↔ c.adcAddr.Nodup ∧ c.dacAddr ∉ c.adcAddr := by
  simp [Cfg.addressesOk]

theorem sentinelOk_iff {c : Cfg} :
    c.sentinelOk = true ↔ c.sentinelText ≠ [] ∧ 0x2C ∉ c.sentinelText ∧ 0x0A ∉ c.sentinelText := by
  simp [Cfg.sentinelOk, ← List.forall_mem_ne', forall_and]

/-- Settles O13: every operation is a run, which refuses such a configuration first, and the four grounds are read off. -/
theorem configurationsOutsideTheDomainAreRefused : Obligations.ConfigurationsOutsideTheDomainAreRefused := by
  refine ⟨fun i s hc => ?_, fun c => ?_⟩
  · obtain ⟨op, stop, body, hr⟩ := exec_eq_run i s
    rw [hr, run_configuration hc]
  · simp only [Cfg.wf, Bool.and_eq_true, addressesOk_iff, posQ_iff, sentinelOk_iff, List.all_eq_true, legalChannel_iff]
    tauto

/-! ### Acknowledgments -/

/-- Settles O26: an address outside the map is one that `answerAt` never lets answer ACK. -/
theorem absentDeviceNeverAcknowledges : Obligations.AbsentDeviceNeverAcknowledges := by
  intro s a hadc hdac
  exact answerAt_ne_ack (by simp [inMap, hadc, hdac])

/-! ### Raw accesses of an undescribed shape (R62, R63, R72) -/

theorem wrreg_refused {a : Addr} {r : Byte} {bs : List Byte} {s : State} {why : Refusal} (hs : s.Ready)
    (h : wrregStop s.cfg a r bs = some why) : exec (.wrreg a r bs) s = .refused why := by
  rw [exec_wrreg, h, run_stop hs]

theorem rdreg_refused {a : Addr} {r : Byte} {len : BitVec 8} {s : State} {why : Refusal} (hs : s.Ready)
    (h : rdregStop s.cfg a r len = some why) : exec (.rdreg a r len) s = .refused why := by
  rw [exec_rdreg, h, run_stop hs]

/-- Settles O25: each clause is a branch of `writeStop` or `readStop`, a converter's address not being the DAC's. -/
theorem undescribedAccessesAreRefused : Obligations.UndescribedAccessesAreRefused := by
  intro a r bs len s hs hlen
  have hmap : a ∈ s.cfg.adcAddr → s.cfg.adcAddr.contains a = true := by simp
  refine ⟨fun ha hshape => wrreg_refused hs ?_, fun ha hshape => wrreg_refused hs ?_,
    fun ha hl hshape => rdreg_refused hs ?_, fun ha hl => rdreg_refused hs ?_, rdreg_refused hs (if_pos rfl)⟩
  · rw [wrregStop, if_pos hlen, writeStop, if_neg (ne_dac_of_wf hs.cfg ha), if_pos (hmap ha), if_neg (by tauto)]
  · rw [wrregStop, if_pos hlen, writeStop, if_pos ha, if_neg (by tauto)]
  · have hl2 : len.toNat = 2 → len = 2 := fun h => BitVec.eq_of_toNat_eq h
    rw [rdregStop, if_neg hl, readStop, if_neg (ne_dac_of_wf hs.cfg ha), if_pos (hmap ha), if_neg (by tauto)]
  · rw [rdregStop, if_neg hl, readStop, if_pos ha]

/-! ### Channel reads without a meaning (R63, R180, R181) -/

theorem channelStop_gainOrRate {c : Cfg} {x : ChannelConfig} (hch : x.ch.toNat < 4)
    (h : gainRow c x.gain = none ∨ rateRow c x.rate = none) : channelStop c x = some .gainOrRate := by
  rw [channelStop, if_pos (legalChannel_iff.2 hch), if_neg]
  obtain h | h := h <;> simp [h]

theorem channelStop_comparator {c : Cfg} {x : ChannelConfig} (hch : x.ch.toNat < 4) (hg : gainRow c x.gain ≠ none)
    (hr : rateRow c x.rate ≠ none) (hcd : x.comparatorDisabled = false) : channelStop c x = some .comparator := by
  rw [channelStop, if_pos (legalChannel_iff.2 hch), if_pos, hcd, if_neg Bool.false_ne_true]
  simp [Option.isSome_iff_ne_none, hg, hr]

theorem channelStop_dac {c : Cfg} {x : ChannelConfig} (h : legalConfig c x = true) (hd : x.addr = c.dacAddr) :
    channelStop c x = some .dacAccess := by
  simp only [legalConfig, Bool.and_eq_true] at h
  obtain ⟨⟨⟨hch, hg⟩, hr⟩, hcd⟩ := h
  simp [channelStop, hch, hg, hr, hcd, hd]

/-- The first entry of a schedule that has a stop is the schedule's. -/
theorem scheduleStop_append {c : Cfg} {pre xs : List ChannelConfig} {x : ChannelConfig} {why : Refusal}
    (hpre : scheduleStop c pre = none) (hx : channelStop c x = some why) :
    scheduleStop c (pre ++ x :: xs) = some why := by
  induction pre with
  | nil => simp [scheduleStop, hx]
  | cons y ys ih =>
    rw [List.cons_append, scheduleStop]
    cases hy : channelStop c y with
    | some r => simp [scheduleStop, hy] at hpre
    | none => exact ih (by simpa [scheduleStop, hy] using hpre)

theorem rdch_refused {x : ChannelConfig} {s : State} {why : Refusal} (hs : s.Ready)
    (h : channelStop s.cfg x = some why) : exec (rdchOf x) s = .refused why := by
  rw [rdchOf, exec_rdch, h, run_stop hs]

theorem ctrl_refused_iff {s : State} {why : Refusal} (hs : s.Ready) :
    exec .ctrl s = .refused why ↔ channelStop s.cfg s.cfg.refChannel = some why := by
  rw [exec_ctrl]
  cases h : channelStop s.cfg s.cfg.refChannel with
  | none => rw [run_ready hs rfl]; simp
  | some r => rw [run_stop hs]; simp

theorem cycle_refused {s : State} {why : Refusal} (hs : s.Ready) (h : cycleStop s.cfg = some why) :
    exec .cycle s = .refused why := by
  rw [exec_cycle, h, run_stop hs]

/-- A channel read without a meaning refuses the CTRL whose reference it is, and the CYCLE in whose schedule it is the
first. -/
theorem composites_refused {s : State} {x : ChannelConfig} {why : Refusal} (hs : s.Ready)
    (h : channelStop s.cfg x = some why) :
    (s.cfg.refChannel = x → exec .ctrl s = .refused why) ∧
      ∀ pre xs, s.cfg.schedule = pre ++ x :: xs → scheduleStop s.cfg pre = none → exec .cycle s = .refused why := by
  refine ⟨fun hx => (ctrl_refused_iff hs).2 (by rw [hx, h]), fun pre xs hsched hpre => cycle_refused hs ?_⟩
  rw [cycleStop, hsched, scheduleStop_append hpre h]

/-- Settles O59: the stop of such a channel read is known, and its composites hand it on. -/
theorem channelReadsWithoutAMeaningAreRefused : Obligations.ChannelReadsWithoutAMeaningAreRefused := by
  intro s hs
  refine ⟨fun x hx hd => ?_, fun x hch h => composites_refused hs (channelStop_gainOrRate hch h),
    fun x hch hg hr hcd => composites_refused hs (channelStop_comparator hch hg hr hcd),
    fun why hin hsched hctrl => cycle_refused hs ?_⟩
  · have hstop := channelStop_dac hx hd
    exact ⟨rdch_refused hs hstop, composites_refused hs hstop⟩
  · rw [cycleStop, hsched, ← (ctrl_refused_iff hs).1 hctrl]
    exact if_pos hin

end Sys2Proof.Machine
end

section
/-!
PROOFS. The config word as a converter reads it (R80, R109 to R113) and the frame a DAC takes (R84, R117).
-/

namespace Sys2Proof.Machine

/-! ### The config word (R109) -/

theorem maskOf_cons (p : Half) (ps : List Half) : maskOf (p :: ps) = p ||| maskOf ps := rfl

/-- A pattern lies in the bits its set covers. -/
theorem and_maskOf {p : Half} {ps : List Half} (h : p ∈ ps) : p &&& maskOf ps = p := by
  induction ps with
  | nil => simp at h
  | cons q qs ih =>
    rw [maskOf_cons]
    ext i hi
    obtain rfl | h := List.mem_cons.1 h
    · simp +contextual
    · have hbit := congrArg (fun w => w[i]) (ih h)
      rw [BitVec.getElem_and] at hbit
      rw [BitVec.getElem_and, BitVec.getElem_or, Bool.and_or_distrib_left, hbit, Bool.or_eq_right_iff_imp]
      simp +contextual

/-- What lies outside the bits `m` part by part lies outside them. -/
theorem maskOf_and_eq_zero {ps : List Half} {m : Half} (h : ∀ p ∈ ps, p &&& m = 0) : maskOf ps &&& m = 0 := by
  induction ps with
  | nil => exact BitVec.zero_and
  | cons p ps ih =>
    obtain ⟨hp, hps⟩ := List.forall_mem_cons.1 h
    rw [maskOf_cons, BitVec.and_or_distrib_right, hp, ih hps]
    rfl

/-- A word made of parts, each in bits of its own, shows in these bits the part they are of (R109). Parts come with their
bits. -/
theorem maskOf_parts_and {l : List (Half × Half)} (hin : ∀ x ∈ l, x.1 &&& x.2 = x.1)
    (hd : l.Pairwise fun x y => x.2 &&& y.2 = 0) {x : Half × Half} (hx : x ∈ l) :
    maskOf (l.map Prod.fst) &&& x.2 = x.1 := by
  have unseen : ∀ y ∈ l, ∀ m : Half, y.2 &&& m = 0 → y.1 &&& m = 0 := fun y hy m hm => by
    rw [← hin y hy, BitVec.and_assoc, hm]
    exact BitVec.and_zero
  induction l with
  | nil => simp at hx
  | cons y ys ih =>
    obtain ⟨hy, hys⟩ := List.pairwise_cons.1 hd
    rw [List.map_cons, maskOf_cons, BitVec.and_or_distrib_right]
    obtain rfl | hx := List.mem_cons.1 hx
    · have hrest : maskOf (ys.map Prod.fst) &&& x.2 = 0 := maskOf_and_eq_zero fun p hp => by
        obtain ⟨z, hz, rfl⟩ := List.mem_map.1 hp
        exact unseen z (.tail _ hz) _ (by rw [BitVec.and_comm, hy z hz])
      rw [hin x (.head _), hrest]
      exact BitVec.or_zero
    · rw [unseen y (.head _) _ (hy x hx), ih (fun z hz => hin z (.tail _ hz)) hys hx fun z hz => unseen z (.tail _ hz)]
      exact BitVec.zero_or

/-- Of members with distinct patterns one alone has the pattern of a given member. -/
theorem theOnly_filter {α : Type} {f : α → Half} {l : List α} {x : α} (h : (l.map f).Nodup) (hx : x ∈ l) :
    theOnly (l.filter fun y => f y == f x) = some x := by
  have hl : l.filter (fun y => f y == f x) = [x] := by
    induction l with
    | nil => simp at hx
    | cons y ys ih =>
      rw [List.map_cons, List.nodup_cons] at h
      obtain ⟨hy, hys⟩ := h
      obtain rfl | hx := List.mem_cons.1 hx
      · rw [List.filter_cons_of_pos (by simp), List.filter_eq_nil_iff.2]
        intro z hz hzx
        exact hy (by rw [← eq_of_beq hzx]; exact List.mem_map_of_mem hz)
      · have hne : f y ≠ f x := fun he => hy (he ▸ List.mem_map_of_mem hx)
        rw [List.filter_cons_of_neg (by simpa using hne), ih hys hx]
  rw [hl]
  rfl

theorem mem_channels : ∀ {ch : BitVec 4}, legalChannel ch = true → ch ∈ channels := by decide

theorem mem_codes3 : ∀ g : BitVec 3, g ∈ codes3 := by decide

theorem mem_gainSet {c : Cfg} {g : BitVec 3} (h : (gainRow c g).isSome = true) : g ∈ gainSet c :=
  List.mem_filter.2 ⟨mem_codes3 g, h⟩

theorem mem_rateSet {c : Cfg} {r : BitVec 3} (h : (rateRow c r).isSome = true) : r ∈ rateSet c :=
  List.mem_filter.2 ⟨mem_codes3 r, h⟩

/-- The six parts of the config word of a channel, each with the bits it may set (R109). -/
def configParts (c : Cfg) (x : ChannelConfig) : List (Half × Half) :=
  [(c.cfgOs, c.cfgOs), (muxPattern c x.ch, muxMask c), (gainPattern c x.gain, gainMask c), (c.cfgMode, c.cfgMode),
    (ratePattern c x.rate, rateMask c), (c.cfgCompDisable, c.cfgCompDisable)]

theorem buildConfig_eq_parts {c : Cfg} {x : ChannelConfig} (h : x.comparatorDisabled = true) :
    buildConfig c x = maskOf ((configParts c x).map Prod.fst) := by
  simp [buildConfig, configParts, maskOf, compPattern, h, BitVec.or_assoc]

/-- Each part of a legal channel's config word lies in its bits. -/
theorem configParts_in {c : Cfg} {x : ChannelConfig} (hch : legalChannel x.ch = true)
    (hgain : (gainRow c x.gain).isSome = true) (hrate : (rateRow c x.rate).isSome = true) :
    ∀ y ∈ configParts c x, y.1 &&& y.2 = y.1 := by
  have hmux : muxPattern c x.ch &&& muxMask c = muxPattern c x.ch := and_maskOf (List.mem_map_of_mem (mem_channels hch))
  have hpga : gainPattern c x.gain &&& gainMask c = gainPattern c x.gain :=
    and_maskOf (List.mem_map_of_mem (mem_gainSet hgain))
  have hdr : ratePattern c x.rate &&& rateMask c = ratePattern c x.rate :=
    and_maskOf (List.mem_map_of_mem (mem_rateSet hrate))
  simp [configParts, hmux, hpga, hdr]

/-- Settles O34: in the bits of each part the word is that part, and a part names one member of its set. -/
theorem configWordReadsBack : Obligations.ConfigWordReadsBack := by
  intro c x hc hx
  simp only [legalConfig, Bool.and_eq_true] at hx
  obtain ⟨⟨⟨hch, hgain⟩, hrate⟩, hcomp⟩ := hx
  simp only [Cfg.readable, Bool.and_eq_true, decide_eq_true_eq, bne_iff_ne] at hc
  obtain ⟨⟨⟨⟨hos, hmuxes⟩, hgains⟩, hrates⟩, hdisjoint⟩ := hc
  have hparts : (configParts c x).Pairwise fun y z => y.2 &&& z.2 = 0 :=
    (List.pairwise_map (f := Prod.snd) (l := configParts c x)).1 hdisjoint
  have reads : ∀ p m : Half, (p, m) ∈ configParts c x → buildConfig c x &&& m = p := fun p m h => by
    rw [buildConfig_eq_parts hcomp]
    exact maskOf_parts_and (configParts_in hch hgain hrate) hparts h
  refine ⟨?_, ?_, ?_, ?_⟩
  · rw [startBit, reads c.cfgOs c.cfgOs (by simp [configParts])]
    simpa using hos
  · rw [wordChannel, reads (muxPattern c x.ch) (muxMask c) (by simp [configParts])]
    exact theOnly_filter hmuxes (mem_channels hch)
  · rw [wordGain, reads (gainPattern c x.gain) (gainMask c) (by simp [configParts])]
    exact theOnly_filter hgains (mem_gainSet hgain)
  · rw [wordRate, reads (ratePattern c x.rate) (rateMask c) (by simp [configParts])]
    exact theOnly_filter hrates (mem_rateSet hrate)

/-! ### The DAC frame (R84, R117) -/

/-- The code of two data bytes is their number without its low four bits (R84). -/
theorem dacCodeOf_toNat (msb lsb : Byte) : (dacCodeOf msb lsb).toNat = msb.toNat * 16 + lsb.toNat / 16 := by
  have hadd : dacCodeOf msb lsb = msb.setWidth 12 <<< 4 + (lsb >>> 4).setWidth 12 := by
    refine (BitVec.add_eq_or_of_and_eq_zero _ _ ?_).symm
    ext i hi
    interval_cases i <;> simp
  have hm := msb.isLt
  have hl := lsb.isLt
  rw [hadd]
  simp only [BitVec.toNat_add, BitVec.toNat_shiftLeft, BitVec.toNat_setWidth, BitVec.toNat_ushiftRight,
    Nat.shiftLeft_eq, Nat.shiftRight_eq_div_pow]
  omega

/-- Settles O38: the bytes of the frame are quotient and remainder of the code, and the DAC takes their sum. -/
theorem dacFrameHoldsTheCode : Obligations.DacFrameHoldsTheCode := by
  refine ⟨fun k => ⟨_, _, rfl, ?_, ?_, dacCodeOf_dacBytes k⟩, dacCodeOf_toNat⟩
  · have hk := k.isLt
    simp only [BitVec.toNat_setWidth, BitVec.toNat_ushiftRight, Nat.shiftRight_eq_div_pow]
    omega
  · have hlow : (k &&& 0xF).toNat = k.toNat % 16 := Nat.and_two_pow_sub_one_eq_mod k.toNat 4
    simp only [BitVec.toNat_shiftLeft, BitVec.toNat_setWidth, hlow, Nat.shiftLeft_eq]
    omega

end Sys2Proof.Machine
end

section
/-!
PROOFS. What a register write tells the block, whatever the device does with it, and WRREG made of it (R64, R66, R80, R83).
-/

namespace Sys2Proof.Machine

/-! ### The end of an operation, from what its body came to -/

theorem complete_of_ok {α : Type} {op : Op} {k : α → BitVec 24} {r : α → Result} {x : Res α} {v : α}
    (h : x.2 = .ok v) : complete op k r x = finish op (k v) (r v) x.1 := by
  rw [complete, h]

theorem complete_of_error {α : Type} {op : Op} {k : α → BitVec 24} {r : α → Result} {x : Res α} {e : BlockError}
    (h : x.2 = .error e) : complete op k r x = takeError op e x.1 := by
  rw [complete, h]

/-- The response of a raise, its word written out (R121, R326). -/
theorem takeError_word {op : Op} {e : BlockError} {code : ErrCode} {w : Word} {s : State} (hc : e.code = code)
    (hw : responseWord op code 0 = w) : (takeError op e s).resp = some ⟨w, .empty, some e⟩ := by
  rw [takeError_resp, hc, hw]

section
variable {α : Type} (op : Op) (k : α → BitVec 24) (r : α → Result) (x : Res α)

theorem complete_now : (complete op k r x).now = x.1.now := by
  obtain ⟨t, e | v⟩ := x <;> rfl

theorem complete_adc : (complete op k r x).adc = x.1.adc := by
  obtain ⟨t, e | v⟩ := x <;> rfl

theorem complete_faults : (complete op k r x).faults = x.1.faults := by
  obtain ⟨t, e | v⟩ := x <;> rfl

theorem complete_dac : (complete op k r x).dac = x.1.dac := by
  obtain ⟨t, e | v⟩ := x <;> rfl

theorem complete_dacCode : (complete op k r x).dacCode = x.1.dacCode := by
  obtain ⟨t, e | v⟩ := x <;> rfl

theorem complete_converter (b : Addr) : (complete op k r x).converter b = x.1.converter b :=
  congrArg (List.find? _) (complete_adc op k r x)

theorem OnlyAges.complete {s : State} {b : Addr} (h : OnlyAges s x.1 b) : OnlyAges s (complete op k r x) b :=
  h.congr (complete_converter op k r x b) (complete_now op k r x)

end

/-! ### The answer to a register write (R64, R66) -/

/-- The next transaction passes by its answer (R66). -/
theorem passesAt_zero {s : State} {a : Addr} :
    s.passesAt 0 a ↔ s.answerTo a = .ack ∨ (s.answerTo a = .silent ∧ s.cfg.ackTimeoutUs = none) := Iff.rfl

/-- At the DAC's address it is the DAC that takes the bytes (R61, R84). -/
theorem deviceTakes_toDac (s : State) {a : Addr} (ha : a = s.cfg.dacAddr) (r : Byte) (bs : List Byte) (ans : Answer) :
    s.deviceTakes a r bs ans = s.dacTakes r bs := if_pos ha

theorem deviceTakesIf_draws (s : State) (took : Bool) (a : Addr) (r : Byte) (bs : List Byte) (ans : Answer) :
    (s.deviceTakesIf took a r bs ans).answers = s.answers ∧ (s.deviceTakesIf took a r bs ans).draws = s.draws := by
  cases took with
  | false => exact ⟨rfl, rfl⟩
  | true =>
    by_cases ha : a = s.cfg.dacAddr
    · show (s.deviceTakes a r bs ans).answers = s.answers ∧ (s.deviceTakes a r bs ans).draws = s.draws
      rw [deviceTakes_toDac s ha]
      unfold State.dacTakes
      split
      · split <;> exact ⟨rfl, rfl⟩
      · exact ⟨rfl, rfl⟩
    · exact (deviceTakes_rest s r bs ans ha).2.2

/-- What a register write leaves for the block to see: its one event, the draw it used, and how it ended (R64, R66). -/
structure WriteAnswered (a : Addr) (r : Byte) (bs : List Byte) (s : State) (x : Res Unit) : Prop where
  bus     : x.1.bus = .free
  log     : x.1.log = s.log ++ [.busW s.now (s.now + Config.tXfer (1 + bs.length)) a (r :: bs) (s.answerTo a)]
  draws   : ∀ k, x.1.drawAt k = s.drawAt (k + 1)
  passes  : s.passesAt 0 a → x.2 = .ok () ∧ x.1.now = s.now + Config.tXfer (1 + bs.length)
  nack    : s.answerTo a = .nack → x.2 = .error (.busError a) ∧ x.1.now = s.now + Config.tXfer (1 + bs.length)
  timeout : ∀ d, s.answerTo a = .silent → s.cfg.ackTimeoutUs = some d →
    x.2 = .error (.busTimeout a) ∧ s.now + Config.tXfer (1 + bs.length) + d ≤ x.1.now

theorem memWrite_answered (f : FailedWrite) (a : Addr) (r : Byte) (bs : List Byte) (s : State) :
    WriteAnswered a r bs s (memWrite f a r bs s) := by
  have hlog : (memWrite f a r bs s).1.log =
      s.log ++ [.busW s.now (s.now + Config.tXfer (1 + bs.length)) a (r :: bs) (s.answerTo a)] :=
    memWrite_induction (P := fun t => t.log = _) (fun _ => (deviceTakesIf_log_bus _ _ _ _ _ _).1) fun _ _ h => h
  have hdrawn : (memWrite f a r bs s).1.answers = s.answers.tail ∧ (memWrite f a r bs s).1.draws = s.draws + 1 :=
    memWrite_induction (P := fun t => t.answers = _ ∧ t.draws = _) (fun _ => deviceTakesIf_draws _ _ _ _ _ _)
      fun _ _ h => h
  refine ⟨memWrite_bus f a r bs s, hlog, drawAt_drawn hdrawn.1 hdrawn.2, fun h => ?_, fun h => ?_, fun d h ht => ?_⟩
  · obtain h | ⟨h, ht⟩ := passesAt_zero.1 h
    · rw [memWrite_ack h]
      exact ⟨rfl, deviceTakes_now _ _ _ _ _⟩
    · rw [memWrite_silent h ht]
      exact ⟨rfl, deviceTakesIf_now _ _ _ _ _ _⟩
  · rw [memWrite_nack h]
    exact ⟨rfl, deviceTakesIf_now _ _ _ _ _ _⟩
  · rw [memWrite_timeout h ht]
    refine ⟨rfl, ?_⟩
    rw [State.advance_now, deviceTakesIf_now, ← Nat.add_assoc]
    exact Nat.le_add_right _ _

/-! ### WRREG by the answer it gets (R66, R141) -/

theorem exec_wrreg_ready {a : Addr} {r : Byte} {bs : List Byte} {s : State} (hs : s.Ready)
    (hstop : wrregStop s.cfg a r bs = none) :
    exec (.wrreg a r bs) s =
      .next (complete .wrreg (fun _ => 0) (fun _ => .empty) (memWrite .drawn a r bs (s.setSeq .wrreg 0))) := by
  rw [exec_wrreg, run_ready hs hstop]

/-- A raw write that the block takes for done ends with error 0 (R66). -/
theorem wrreg_passes {a : Addr} {r : Byte} {bs : List Byte} {s : State} (hs : s.Ready)
    (hstop : wrregStop s.cfg a r bs = none) (h : s.passesAt 0 a) :
    ∃ t, exec (.wrreg a r bs) s = .next t ∧ t = finish .wrreg 0 .empty (memWrite .drawn a r bs (s.setSeq .wrreg 0)).1 ∧
      AtRest t ∧ t.now = s.now + Config.tXfer (1 + bs.length) ∧
      t.log = s.log ++ [.busW s.now t.now a (r :: bs) (s.answerTo a)] := by
  have hw := memWrite_answered .drawn a r bs (s.setSeq .wrreg 0)
  obtain ⟨hok, hnow⟩ := hw.passes h
  refine ⟨_, exec_wrreg_ready hs hstop, complete_of_ok hok, ?_⟩
  rw [complete_of_ok hok]
  exact ⟨⟨rfl, hw.bus⟩, hnow, by rw [finish_log, finish_now, hnow]; exact hw.log⟩

/-- A raw write to the DAC that is not refused is its frame of two bytes (R63). -/
theorem wrregStop_dac {c : Cfg} {a : Addr} {r : Byte} {bs : List Byte} (h : wrregStop c a r bs = none)
    (ha : a = c.dacAddr) : r = dacCmd ∧ bs.length = 2 := by
  unfold wrregStop writeStop at h
  rw [if_pos ha] at h
  split at h
  · split at h
    · assumption
    · cases h
  · cases h

/-- The DAC takes its frame (R84). -/
theorem deviceTakes_dacFrame (s : State) {a : Addr} (ha : a = s.cfg.dacAddr) (msb lsb : Byte) (ans : Answer) :
    s.deviceTakes a dacCmd [msb, lsb] ans = s.setDac (dacCodeOf msb lsb) := by
  rw [deviceTakes_toDac s ha]
  unfold State.dacTakes
  exact if_pos rfl

/-- Settles O14: the write passes, and the DAC takes the frame it is sent. -/
theorem wrregAcknowledgedCompletes : Obligations.WrregAcknowledgedCompletes := by
  intro a r bs s hs hstop hack
  obtain ⟨t, ht, he, hrest, hnow, hlog⟩ := wrreg_passes hs hstop (.inl hack)
  rw [hack] at hlog
  refine ⟨t, ht, hrest, by rw [he]; rfl, by rw [he]; rfl, hnow, hlog, fun ha msb lsb hbs => ?_⟩
  obtain ⟨rfl, -⟩ := wrregStop_dac hstop ha
  subst hbs
  have htaken := deviceTakes_dacFrame (writeSent a dacCmd [msb, lsb] (s.setSeq .wrreg 0)) ha msb lsb s.nextAnswer
  rw [he, memWrite_ack (s := s.setSeq .wrreg 0) hack, finish_dac]
  exact congrArg State.dac htaken

/-- Settles O15: one clause for each way a write ends. -/
theorem wrregFailuresAreReported : Obligations.WrregFailuresAreReported := by
  intro a r bs s hs hstop
  have hw := memWrite_answered .drawn a r bs (s.setSeq .wrreg 0)
  refine ⟨fun h => ?_, fun h hto => ?_, fun d h hto => ?_⟩
  · obtain ⟨herr, hnow⟩ := hw.nack h
    refine ⟨_, exec_wrreg_ready hs hstop, ?_⟩
    rw [complete_of_error herr]
    refine ⟨⟨rfl, rfl⟩, rfl, takeError_word (code := .busError) rfl (by decide), ?_⟩
    rw [takeError_log, takeError_now, hnow, ← h]
    exact hw.log
  · obtain ⟨t, ht, he, hrest, -, hlog⟩ := wrreg_passes hs hstop (.inr ⟨h, hto⟩)
    rw [h] at hlog
    exact ⟨t, ht, hrest, by rw [he]; rfl, by rw [he]; rfl, hlog⟩
  · obtain ⟨herr, hnow⟩ := hw.timeout d h hto
    refine ⟨_, s.now + Config.tXfer (1 + bs.length), exec_wrreg_ready hs hstop, ?_⟩
    rw [complete_of_error herr]
    refine ⟨⟨rfl, rfl⟩, rfl, takeError_word (code := .busTimeout) rfl (by decide), hnow, ?_⟩
    rw [takeError_log, ← h]
    exact hw.log

/-! ### Config writes that trigger a conversion (R80, R83) -/

theorem halfBytes_u16 (b0 b1 : Byte) : halfBytes (u16 b0 b1) = [b0, b1] := by
  have hi : (u16 b0 b1).extractLsb' 8 8 = b0 := by
    ext i h
    interval_cases i <;> simp [u16]
  have lo : (u16 b0 b1).extractLsb' 0 8 = b1 := by
    ext i h
    interval_cases i <;> simp [u16]
  rw [halfBytes, hi, lo]

/-- Settles O16: what such a write leaves is `ConfigWritten`, and a conversion begins in its window. -/
theorem configWriteStartsAConversion : Obligations.ConfigWriteStartsAConversion := by
  intro a b0 b1 s d hs ha hack hfresh hstart
  have hstop : wrregStop s.cfg a s.cfg.regConfig [b0, b1] = none :=
    wrregStop_converter hs.cfg ha (.inl rfl) (.inl rfl)
  obtain ⟨v, hv, hwritten⟩ :=
    memWrite_config (s := s.setSeq .wrreg 0) .drawn (ne_dac_of_wf hs.cfg ha) hack hfresh hstart
  rw [halfBytes_u16] at hv
  obtain ⟨-, hlater, hdone⟩ := startConversion_inWindow s.cfg v.now (u16 b0 b1) s.nextAnswer
  rw [exec_wrreg_ready hs hstop, show memWrite .drawn a s.cfg.regConfig [b0, b1] (s.setSeq .wrreg 0) = (v, .ok ()) from hv,
    complete_ok]
  exact ⟨_, _, _, rfl, hwritten.faults, hwritten.converter, rfl, rfl, rfl, rfl, rfl, rfl, hlater, hdone⟩

/-- A write that starts a conversion on a converter whose conversion is pending leaves its mark (R83). -/
theorem noteOverlap_marks {s : State} {a : Addr} {r : Byte} {bs : List Byte} {d : AdcDev} (hd : s.converter a = some d)
    (h : d.overlaps s.cfg r bs = true) : Mark.conversionOverlap a ∈ (s.noteOverlap a r bs).faults := by
  unfold State.noteOverlap
  cases hm : s.marked a with
  | false => simp [hd, h]
  | true => simpa [State.marked] using hm

theorem overlaps_of_pending {d : AdcDev} {c : Cfg} {b0 b1 : Byte} (hstart : startBit c (u16 b0 b1) = true)
    (h : d.pending ≠ none) : d.overlaps c c.regConfig [b0, b1] = true := by
  simp [AdcDev.overlaps, hstart, Option.isSome_iff_ne_none, h]

theorem deviceTakes_faults {s : State} {a : Addr} {r : Byte} {bs : List Byte} (ans : Answer) (h : a ≠ s.cfg.dacAddr) :
    (s.deviceTakes a r bs ans).faults = (s.noteOverlap a r bs).faults := by
  rw [State.deviceTakes, if_neg h]
  rfl

/-- Settles O18: the converter, aged to the end of the write, still has its conversion pending when it takes the word. -/
theorem overlappingConversionIsMarked : Obligations.OverlappingConversionIsMarked := by
  intro a b0 b1 s d hs ha hack hd hpending hstart
  have hstop : wrregStop s.cfg a s.cfg.regConfig [b0, b1] = none :=
    wrregStop_converter hs.cfg ha (.inl rfl) (.inl rfl)
  obtain ⟨t, ht, he, -, -, -⟩ := wrreg_passes hs hstop (.inl hack)
  refine ⟨t, ht, by rw [he]; rfl, ?_⟩
  have hage : OnlyAges s (writeSent a s.cfg.regConfig [b0, b1] (s.setSeq .wrreg 0)) a := writeSent_onlyAges _ _ _ _ a
  rw [OnlyAges, hd, Option.map_some] at hage
  have hmark := noteOverlap_marks hage (overlaps_of_pending hstart hpending)
  have hfaults := deviceTakes_faults (s := writeSent a s.cfg.regConfig [b0, b1] (s.setSeq .wrreg 0))
    (r := s.cfg.regConfig) (bs := [b0, b1]) s.nextAnswer (ne_dac_of_wf hs.cfg ha)
  rw [he, memWrite_ack (s := s.setSeq .wrreg 0) hack, finish_faults]
  exact hfaults ▸ hmark

/-! ### The frame of WRREG -/

theorem dacTakes_dac (s : State) (r msb lsb : Byte) :
    (s.dacTakes r [msb, lsb]).dac = s.dac ∨ (s.dacTakes r [msb, lsb]).dac = dacCodeOf msb lsb := by
  unfold State.dacTakes
  dsimp only
  split
  · exact .inr rfl
  · exact .inl rfl

/-- A write to the DAC leaves no mark and its old code or the frame's (R63, R84). -/
theorem memWrite_dacFrame (f : FailedWrite) {a : Addr} (r msb lsb : Byte) {s : State} (ha : a = s.cfg.dacAddr) :
    (memWrite f a r [msb, lsb] s).1.faults = s.faults ∧
      ((memWrite f a r [msb, lsb] s).1.dac = s.dac ∨ (memWrite f a r [msb, lsb] s).1.dac = dacCodeOf msb lsb) := by
  refine memWrite_induction (P := fun t => t.faults = s.faults ∧ (t.dac = s.dac ∨ t.dac = dacCodeOf msb lsb))
    (fun took => ?_) fun _ _ h => h
  cases took with
  | false => exact ⟨rfl, .inl rfl⟩
  | true =>
    have htakes := deviceTakes_toDac (writeSent a r [msb, lsb] s) ha r [msb, lsb] s.nextAnswer
    rw [State.deviceTakesIf, if_pos rfl, htakes]
    exact ⟨dacTakes_faults _ _ _, dacTakes_dac _ _ _ _⟩

/-- Settles O19: what the write leaves alone it leaves alone whatever it is answered. -/
theorem wrregFrame : Obligations.WrregFrame := by
  intro a r bs s t h
  have hf := (exec_runs h).frame
  obtain ⟨hgate, hcode, htx, -⟩ := writersOfEachPlace _ s t h
  obtain ⟨hs, hstop, rfl⟩ := run_eq_next_iff.1 ((exec_wrreg a r bs s).symm.trans h)
  refine ⟨hgate nofun, hcode nofun nofun (.inl nofun), htx nofun nofun nofun, hf.host, ?_, fun b hb => ?_, fun ha => ?_,
    fun ha => ⟨fun b => ?_, ?_⟩⟩
  · rw [complete_faults]
    exact memWrite_faults _ _ _ _ _
  · exact OnlyAges.complete _ _ _ _ (memWrite_onlyAges .drawn r bs (s.setSeq .wrreg 0) hb)
  · rw [complete_dac]
    exact memWrite_dac .drawn r bs (s.setSeq .wrreg 0) ha
  · exact OnlyAges.complete _ _ _ _ (memWrite_dac_onlyAges .drawn r bs (s.setSeq .wrreg 0) ha b)
  · obtain ⟨-, hlen⟩ := wrregStop_dac hstop ha
    obtain ⟨msb, lsb, rfl⟩ := List.length_eq_two.1 hlen
    obtain ⟨hfaults, hdac⟩ := memWrite_dacFrame .drawn r msb lsb (s := s.setSeq .wrreg 0) ha
    rw [complete_faults, complete_dac]
    exact ⟨hfaults, msb, lsb, rfl, hdac⟩

end Sys2Proof.Machine
end

section
/-!
PROOFS. What a register read tells the block, whatever the device does with it, and RDREG made of it (R65, R66, R82).
-/

namespace Sys2Proof.Machine

/-! ### The bytes of a read (R65, R82) -/

theorem fillBytes_length (n : Nat) (bs : List Byte) : (fillBytes n bs).length = n := by simp [fillBytes]

theorem AdcDev.readBytes_length (d : AdcDev) (c : Cfg) (t : Nat) (m : Bool) (r : Byte) (n : Nat) (ans : Answer) :
    (d.readBytes c t m r n ans).length = n := by
  unfold AdcDev.readBytes
  split
  · next h =>
    simp only [Bool.and_eq_true, beq_iff_eq] at h
    rw [h.2.2]
    split
    · rfl
    · split <;> rfl
  · exact fillBytes_length n _

/-- A read returns as many bytes as asked (R65). -/
theorem deviceReads_length (s : State) (a : Addr) (r : Byte) (n : Nat) (ans : Answer) :
    (s.deviceReads a r n ans).length = n := by
  unfold State.deviceReads
  split
  · exact AdcDev.readBytes_length _ _ _ _ _ _ _
  · exact fillBytes_length n _

/-- A read of the conversion register of an unmarked converter is of its register, or early (R82). -/
theorem deviceReads_conversion {s : State} {a : Addr} {d : AdcDev} (hm : s.marked a = false)
    (hd : s.converter a = some d) (ans : Answer) :
    s.deviceReads a s.cfg.regConversion 2 ans =
      if (d.upTo s.now).pending.isSome && ans.zero then [0, 0] else halfBytes (d.upTo s.now).conv := by
  rw [State.deviceReads, hd]
  show d.readBytes _ _ _ _ _ _ = _
  rw [AdcDev.readBytes, hm, if_pos (by simp)]
  cases (d.upTo s.now).pending <;> simp

/-! ### The answer to a register read (R65, R66) -/

/-- What a register read leaves for the block to see: its one event with the bytes read, the draw it used, and how it ended
(R65, R66, R146). -/
structure ReadAnswered (a : Addr) (r : Byte) (n : Nat) (bytes : List Byte) (s : State) (x : Res (List Byte)) : Prop where
  bus     : x.1.bus = .free
  log     : x.1.log = s.log ++ [.busR s.now x.1.now a r n bytes (s.answerTo a)]
  passes  : s.passesAt 0 a → x.2 = .ok bytes ∧ bytes.length = n ∧ x.1.now = s.now + Config.tXfer (2 + n)
  ack     : s.answerTo a = .ack → bytes = s.deviceReads a r n s.nextAnswer
  nack    : s.answerTo a = .nack → x.2 = .error (.busError a) ∧ bytes = []
  timeout : ∀ d, s.answerTo a = .silent → s.cfg.ackTimeoutUs = some d →
    x.2 = .error (.busTimeout a) ∧ bytes = [] ∧ s.now + d ≤ x.1.now

theorem readSent_log (a : Addr) (r : Byte) (n : Nat) (took : Bool) (s : State) : (readSent a r n took s).log = s.log := by
  cases took <;> rfl

theorem memRead_answered (a : Addr) (r : Byte) (n : Nat) (s : State) :
    ∃ bytes, ReadAnswered a r n bytes s (memRead a r n s) := by
  have hbus := memRead_bus a r n s
  cases h : s.answerTo a with
  | ack =>
    rw [memRead_ack h] at hbus ⊢
    refine ⟨_, hbus, ?_, fun _ => ⟨rfl, deviceReads_length _ _ _ _ _, readSent_now _ _ _ _ _⟩, fun _ => rfl,
      by simp [h], by simp [h]⟩
    rw [State.record_log, readSent_log, State.record_now, readSent_now, h]
  | nack =>
    rw [memRead_nack h] at hbus ⊢
    refine ⟨_, hbus, ?_, by simp [passesAt_zero, h], by simp [h], fun _ => ⟨rfl, rfl⟩, by simp [h]⟩
    rw [State.record_log, readSent_log, State.record_now, readSent_now, h]
  | silent =>
    cases ht : s.cfg.ackTimeoutUs with
    | none =>
      rw [memRead_silent h ht] at hbus ⊢
      refine ⟨_, hbus, ?_, fun _ => ⟨rfl, fillBytes_length _ _, readSent_now _ _ _ _ _⟩, by simp [h], by simp [h],
        by simp [ht]⟩
      rw [State.record_log, readSent_log, State.record_now, readSent_now, h]
    | some d =>
      rw [memRead_timeout h ht] at hbus ⊢
      refine ⟨_, hbus, ?_, by simp [passesAt_zero, h, ht], by simp [h], by simp [h], fun d' _ ht' => ⟨rfl, rfl, ?_⟩⟩
      · rw [State.record_log, State.advance_log, readSent_log, State.record_now, State.advance_now, readSent_now, h]
      · obtain rfl := Option.some.inj (ht.symm.trans ht')
        rw [State.record_now, State.advance_now, readSent_now]
        omega

/-! ### RDREG by the answer it gets (R66, R142) -/

theorem exec_rdreg_ready {a : Addr} {r : Byte} {len : BitVec 8} {s : State} (hs : s.Ready)
    (hstop : rdregStop s.cfg a r len = none) :
    exec (.rdreg a r len) s =
      .next (complete .rdreg (fun _ => 0) Result.bytes (memRead a r len.toNat (s.setSeq .rdreg 0))) := by
  rw [exec_rdreg, run_ready hs hstop]

/-- A raw read that the block takes for done ends with error 0 and the bytes asked for; they are the device's where it
acknowledged (R66, R82). -/
theorem rdreg_passes {a : Addr} {r : Byte} {len : BitVec 8} {s : State} (hs : s.Ready)
    (hstop : rdregStop s.cfg a r len = none) (h : s.passesAt 0 a) :
    ∃ t bytes, exec (.rdreg a r len) s = .next t ∧ AtRest t ∧ t.err = .none ∧ bytes.length = len.toNat ∧
      t.resp = some ⟨0x20000000, .bytes bytes, none⟩ ∧ t.now = s.now + Config.tXfer (2 + len.toNat) ∧
      t.log = s.log ++ [.busR s.now t.now a r len.toNat bytes (s.answerTo a)] ∧
      (s.answerTo a = .ack → bytes = s.deviceReads a r len.toNat s.nextAnswer) := by
  obtain ⟨bytes, hr⟩ := memRead_answered a r len.toNat (s.setSeq .rdreg 0)
  obtain ⟨hok, hlen, hnow⟩ := hr.passes h
  refine ⟨_, bytes, exec_rdreg_ready hs hstop, ?_⟩
  rw [complete_of_ok hok]
  exact ⟨⟨rfl, hr.bus⟩, rfl, hlen, rfl, hnow, hr.log, hr.ack⟩

/-- Settles O22: one clause for each way a read ends. -/
theorem rdregCompletesByItsAnswer : Obligations.RdregCompletesByItsAnswer := by
  intro a r len s hs hstop
  obtain ⟨bytes, hr⟩ := memRead_answered a r len.toNat (s.setSeq .rdreg 0)
  refine ⟨fun h => ?_, fun h hto => ?_, fun h => ?_, fun d h hto => ?_⟩
  · obtain ⟨t, bs, ht, hrest, herr, hlen, hresp, hnow, hlog, -⟩ := rdreg_passes hs hstop (.inl h)
    exact ⟨t, bs, ht, hrest, herr, hlen, hresp, hnow, h ▸ hlog⟩
  · obtain ⟨t, bs, ht, hrest, herr, hlen, hresp, -, hlog, -⟩ := rdreg_passes hs hstop (.inr ⟨h, hto⟩)
    exact ⟨t, bs, ht, hrest, herr, hlen, hresp, h ▸ hlog⟩
  · obtain ⟨herr, rfl⟩ := hr.nack h
    refine ⟨_, exec_rdreg_ready hs hstop, ?_⟩
    rw [complete_of_error herr]
    exact ⟨⟨rfl, rfl⟩, rfl, takeError_word (code := .busError) rfl (by decide), h ▸ hr.log⟩
  · obtain ⟨herr, rfl, hnow⟩ := hr.timeout d h hto
    refine ⟨_, exec_rdreg_ready hs hstop, ?_⟩
    rw [complete_of_error herr]
    exact ⟨⟨rfl, rfl⟩, rfl, hnow, takeError_word (code := .busTimeout) rfl (by decide), h ▸ hr.log⟩

/-- Nothing stops a read of two bytes from a converter's conversion register (R62, R72). -/
theorem rdregStop_conversion {c : Cfg} {a : Addr} (hc : c.wf = true) (ha : a ∈ c.adcAddr) :
    rdregStop c a c.regConversion 2 = none := by
  have hmap : c.adcAddr.contains a = true := by simpa using ha
  rw [rdregStop, if_neg (by decide), readStop, if_neg (ne_dac_of_wf hc ha), if_pos hmap, if_pos ⟨.inr rfl, rfl⟩]

/-- Settles O20: the read passes, and nothing pending the bytes are the register's. -/
theorem rdregReturnsTheConversion : Obligations.RdregReturnsTheConversion := by
  intro a s d hs ha hack hm hd hpending
  obtain ⟨t, bytes, ht, hrest, herr, -, hresp, hnow, hlog, hbytes⟩ :=
    rdreg_passes hs (rdregStop_conversion hs.cfg ha) (.inl hack)
  have hconv : bytes = halfBytes (d.upTo s.now).conv := by
    rw [hbytes hack]
    exact (deviceReads_conversion hm hd _).trans (by simp [hpending])
  subst hconv
  exact ⟨t, ht, hrest, herr, hresp, hnow, hack ▸ hlog⟩

/-- Settles O21: while the conversion is pending ageing has changed nothing, and the bytes are the old register's or zero. -/
theorem earlyReadIsStaleOrZero : Obligations.EarlyReadIsStaleOrZero := by
  intro a s d k hs ha hack hm hd hk hlt
  obtain ⟨t, bytes, ht, -, herr, -, hresp, -, -, hbytes⟩ :=
    rdreg_passes hs (rdregStop_conversion hs.cfg ha) (.inl hack)
  have hage : d.upTo s.now = d := by rw [AdcDev.upTo_some hk, if_neg (by omega)]
  have hread := deviceReads_conversion hm hd s.nextAnswer
  rw [hage] at hread
  refine ⟨t, bytes, ht, herr, hresp, ?_⟩
  rw [hbytes hack, show (2 : BitVec 8).toNat = 2 from rfl, hread]
  split
  · exact .inr rfl
  · exact .inl rfl

/-! ### The frame of RDREG -/

theorem readSent_converter (a : Addr) (r : Byte) (n : Nat) (took : Bool) {s : State} {d : AdcDev}
    (hd : s.converter a = some d) :
    ∃ p, (readSent a r n took s).converter a = some { d.upTo (readSent a r n took s).now with ptr := p } := by
  have hage : OnlyAges s (s.popAnswer.transfer a (2 + n)) a := OnlyAges.of_adc rfl a
  rw [OnlyAges, hd, Option.map_some] at hage
  cases took with
  | false => exact ⟨_, hage⟩
  | true =>
    have hset := mapAdc_converter_same (s.popAnswer.transfer a (2 + n)) (a := a) (f := fun d => { d with ptr := r })
      fun _ => rfl
    rw [hage] at hset
    exact ⟨r, hset⟩

/-- A converter that is read only ages, but for its register pointer (R65, R141). -/
theorem memRead_converter (a : Addr) (r : Byte) (n : Nat) {s : State} {d : AdcDev} (hd : s.converter a = some d) :
    ∃ p, (memRead a r n s).1.converter a = some { d.upTo (memRead a r n s).1.now with ptr := p } := by
  obtain ⟨took, u, e, hu, hr, -, -⟩ := memRead_eq_record a r n s
  obtain ⟨p, hp⟩ := readSent_converter a r n took hd
  rw [hr]
  obtain rfl | ⟨w, rfl⟩ := hu
  · exact ⟨p, hp⟩
  · refine ⟨p, ?_⟩
    show ((readSent a r n took s).advance w).converter a = _
    rw [advance_converter, hp, Option.map_some, AdcDev.withPtr_upTo, AdcDev.upTo_upTo _ (Nat.le_add_right _ _)]
    rfl

/-- Settles O23: what the read leaves alone it leaves alone whatever it is answered. -/
theorem rdregFrame : Obligations.RdregFrame := by
  intro a r len s t h
  have hf := (exec_runs h).frame
  obtain ⟨hgate, hcode, htx, hdac⟩ := writersOfEachPlace _ s t h
  obtain ⟨-, -, rfl⟩ := run_eq_next_iff.1 ((exec_rdreg a r len s).symm.trans h)
  refine ⟨hgate nofun, hcode nofun nofun (.inl nofun), htx nofun nofun nofun, hdac nofun nofun nofun nofun, ?_, hf.host,
    fun b hb => OnlyAges.complete _ _ _ _ (memRead_onlyAges r len.toNat (s.setSeq .rdreg 0) hb), fun d hd => ?_⟩
  · rw [complete_faults]
    exact (memRead_dac_faults a r len.toNat (s.setSeq .rdreg 0)).2
  · rw [complete_converter, complete_now]
    exact memRead_converter a r len.toNat (s := s.setSeq .rdreg 0) hd

end Sys2Proof.Machine
end

section
/-!
PROOFS. A channel read whose config write passed, by the answer to its read (R171, R179), and the good channel read (R85).
-/

namespace Sys2Proof.Machine

/-! ### The answer to a channel read -/

theorem andThen_of_ok {α β : Type} {x : Res α} {k : α → State → Res β} {v : α} (h : x.2 = .ok v) :
    x.andThen k = k v x.1 := by
  rw [Res.andThen, h]

theorem andThen_of_error {α β : Type} {x : Res α} {k : α → State → Res β} {e : BlockError} (h : x.2 = .error e) :
    x.andThen k = (x.1, .error e) := by
  rw [Res.andThen, h]

/-- The sequencer draws nothing. -/
theorem setSeq_drawAt (s : State) (op : Op) (n k : Nat) : (s.setSeq op n).drawAt k = s.drawAt k :=
  drawAt_congr (s := s) (t := s.setSeq op n) rfl rfl k

/-- A transaction that meets a later draw meets it as the next one once the draws before it are made. -/
theorem ackAt_of_drawn {s q : State} {n : Nat} (hcfg : q.cfg = s.cfg) (hd : ∀ k, q.drawAt k = s.drawAt (k + n)) (k : Nat)
    (a : Addr) : q.ackAt k a = s.ackAt (k + n) a := by
  rw [State.ackAt, State.ackAt, hcfg, hd]

theorem passesAt_of_drawn {s q : State} {n : Nat} (hcfg : q.cfg = s.cfg) (hd : ∀ k, q.drawAt k = s.drawAt (k + n))
    (k : Nat) (a : Addr) : q.passesAt k a ↔ s.passesAt (k + n) a := by
  rw [State.passesAt, State.passesAt, ackAt_of_drawn hcfg hd, hcfg]

/-- The state in which a channel read makes its read: the write is over at `t1`, the settle delay has passed (R171). -/
structure ReadDue (x : ChannelConfig) (s : State) (t1 : Nat) (q : State) : Prop where
  cfg   : q.cfg = s.cfg
  draws : ∀ k, q.drawAt k = s.drawAt (k + 2)
  slept : t1 + settleUs s.cfg x.rate ≤ q.now
  log   : q.log = s.log ++
    [.busW s.now t1 x.addr (s.cfg.regConfig :: halfBytes (buildConfig s.cfg x)) (s.ackAt 0 x.addr),
      .sleep t1 q.now (settleUs s.cfg x.rate)]

/-- The last micro-step of a channel read: what was read is decoded and scaled (R171). -/
def decodeStep (x : ChannelConfig) (bytes : List Byte) (u : State) : Res Reading :=
  (u.setSeq .rdch 4, .ok (readingOf u.cfg x.gain bytes))

/-- The state of a channel read after its settle delay (R171). -/
def settled (x : ChannelConfig) (v : State) : State :=
  (delay (settleUs v.cfg x.rate) (v.setSeq .rdch 2)).setSeq .rdch 3

theorem rdchAfterWrite_eq (x : ChannelConfig) (v : State) :
    rdchAfterWrite x v = (memRead x.addr v.cfg.regConversion 2 (settled x v)).andThen (decodeStep x) := rfl

theorem settled_readDue {x : ChannelConfig} {s v : State} (hcfg : v.cfg = s.cfg)
    (hdraws : ∀ k, v.drawAt k = s.drawAt (k + 1))
    (hlog : v.log = s.log ++
      [.busW s.now v.now x.addr (s.cfg.regConfig :: halfBytes (buildConfig s.cfg x)) (s.ackAt 0 x.addr)]) :
    ReadDue x s v.now (settled x v) := by
  have hevent : (settled x v).log = v.log ++ [.sleep v.now (settled x v).now (settleUs v.cfg x.rate)] := rfl
  have hslept : v.now + settleUs v.cfg x.rate ≤ (settled x v).now := delay_now_le _ (v.setSeq .rdch 2)
  rw [hcfg] at hevent hslept
  refine ⟨hcfg, fun k => (drawAt_drawn (s := v) rfl rfl k).trans (hdraws (k + 1)), hslept, ?_⟩
  rw [hevent, hlog, List.append_assoc]
  rfl

/-- On a legal channel a channel read begins with its config write (R171). -/
theorem readChannel_legal {x : ChannelConfig} (s : State) (hl : legalChannel x.ch = true) :
    readChannel x s =
      (memWrite .drawn x.addr s.cfg.regConfig (halfBytes (buildConfig s.cfg x)) (s.setSeq .rdch 1)).andThen
        fun _ u => rdchAfterWrite x u := by
  unfold readChannel
  exact if_pos hl

/-- A channel read whose config write passed sleeps, reads and decodes (R171). -/
theorem readChannel_passes {x : ChannelConfig} {s : State} (hl : legalChannel x.ch = true) (h : s.passesAt 0 x.addr) :
    ∃ t1 q, ReadDue x s t1 q ∧
      readChannel x s = (memRead x.addr s.cfg.regConversion 2 q).andThen (decodeStep x) := by
  have hw := memWrite_answered .drawn x.addr s.cfg.regConfig (halfBytes (buildConfig s.cfg x)) (s.setSeq .rdch 1)
  have hcfg := (memWrite_busFrame .drawn x.addr s.cfg.regConfig (halfBytes (buildConfig s.cfg x)) (s.setSeq .rdch 1)).cfg
  have hread := readChannel_legal s hl
  generalize memWrite .drawn x.addr s.cfg.regConfig (halfBytes (buildConfig s.cfg x)) (s.setSeq .rdch 1) = y at *
  obtain ⟨hok, hnow⟩ := hw.passes h
  have hlog := hw.log
  rw [← hnow] at hlog
  refine ⟨_, settled x y.1, settled_readDue hcfg (fun k => (hw.draws k).trans (setSeq_drawAt s _ _ _)) hlog, ?_⟩
  rw [hread, andThen_of_ok hok, rdchAfterWrite_eq, hcfg]
  rfl

/-- What a channel read whose config write passed leaves for the block to see: its three events, the write over at `t1` and
the read begun at `t2`, and how it ended (R171, R179). -/
structure ChannelAnswered (x : ChannelConfig) (s : State) (t1 t2 : Nat) (bytes : List Byte) (y : Res Reading) : Prop where
  bus     : y.1.bus = .free
  slept   : t1 + settleUs s.cfg x.rate ≤ t2
  log     : y.1.log = s.log ++
    [.busW s.now t1 x.addr (s.cfg.regConfig :: halfBytes (buildConfig s.cfg x)) (s.ackAt 0 x.addr),
      .sleep t1 t2 (settleUs s.cfg x.rate),
      .busR t2 y.1.now x.addr s.cfg.regConversion 2 bytes (s.ackAt 2 x.addr)]
  passes  : s.passesAt 2 x.addr → ∃ raw, bytes = halfBytes raw ∧ y.2 = .ok ⟨raw, x.gain, toVolts s.cfg raw x.gain⟩
  nack    : s.ackAt 2 x.addr = .nack → bytes = [] ∧ y.2 = .error (.busError x.addr)
  timeout : ∀ d, s.ackAt 2 x.addr = .silent → s.cfg.ackTimeoutUs = some d →
    bytes = [] ∧ y.2 = .error (.busTimeout x.addr) ∧ t2 + d ≤ y.1.now

/-- Decoding moves the sequencer and nothing else. -/
theorem decodeStep_rest (x : ChannelConfig) (z : Res (List Byte)) :
    (z.andThen (decodeStep x)).1.bus = z.1.bus ∧ (z.andThen (decodeStep x)).1.log = z.1.log ∧
      (z.andThen (decodeStep x)).1.now = z.1.now := by
  obtain ⟨t, e | bytes⟩ := z <;> exact ⟨rfl, rfl, rfl⟩

/-- Two bytes are those of the raw value they decode to (R70, R115). -/
theorem halfBytes_decodeRaw {bytes : List Byte} (h : bytes.length = 2) : halfBytes (decodeRaw bytes) = bytes := by
  obtain ⟨b0, b1, rfl⟩ := List.length_eq_two.1 h
  exact halfBytes_u16 b0 b1

theorem readChannel_answered {x : ChannelConfig} {s : State} (hl : legalChannel x.ch = true) (h : s.passesAt 0 x.addr) :
    ∃ t1 t2 bytes, ChannelAnswered x s t1 t2 bytes (readChannel x s) := by
  obtain ⟨t1, q, hq, hread⟩ := readChannel_passes hl h
  obtain ⟨bytes, hr⟩ := memRead_answered x.addr s.cfg.regConversion 2 q
  have hack : q.answerTo x.addr = s.ackAt 2 x.addr := ackAt_of_drawn hq.cfg hq.draws 0 x.addr
  obtain ⟨hbus, hlog, hnow⟩ := decodeStep_rest x (memRead x.addr s.cfg.regConversion 2 q)
  refine ⟨t1, q.now, bytes, ?_⟩
  rw [hread]
  refine ⟨hbus.trans hr.bus, hq.slept, ?_, fun h2 => ?_, fun hn => ?_, fun d hsilent hto => ?_⟩
  · rw [hlog, hnow, hr.log, hq.log, hack, List.append_assoc]
    rfl
  · obtain ⟨hok, hlen, -⟩ := hr.passes ((passesAt_of_drawn hq.cfg hq.draws 0 x.addr).2 h2)
    refine ⟨decodeRaw bytes, (halfBytes_decodeRaw hlen).symm, ?_⟩
    have hcfg := (memRead_busFrame x.addr s.cfg.regConversion 2 q).cfg.trans hq.cfg
    rw [andThen_of_ok hok, decodeStep, hcfg]
    rfl
  · obtain ⟨herr, hbytes⟩ := hr.nack (hack.trans hn)
    exact ⟨hbytes, by rw [andThen_of_error herr]⟩
  · obtain ⟨herr, hbytes, hlate⟩ := hr.timeout d (hack.trans hsilent) (hq.cfg ▸ hto)
    exact ⟨hbytes, by rw [andThen_of_error herr], hnow ▸ hlate⟩

/-! ### RDCH -/

theorem legalChannel_of_legalConfig {c : Cfg} {x : ChannelConfig} (h : legalConfig c x = true) :
    legalChannel x.ch = true := by
  simp only [legalConfig, Bool.and_eq_true] at h
  exact h.1.1.1

/-- An RDCH that nothing stops is its channel read and the report of it (R171). -/
theorem exec_rdch_ready {x : ChannelConfig} {s : State} (hs : s.Ready) (hstop : channelStop s.cfg x = none) :
    exec (rdchOf x) s = .next (completeReading (readChannel x s)) := by
  rw [rdchOf, exec_rdch, run_ready hs hstop, readChannel_setSeq]

/-- Settles O31: the report of a channel read whose config write passed, by the answer to its read. -/
theorem rdchOutcomesOfTheRead : Obligations.RdchOutcomesOfTheRead := by
  intro x s hs hx hd h
  obtain ⟨t1, t2, bytes, hr⟩ := readChannel_answered (legalChannel_of_legalConfig hx) h
  have hexec := exec_rdch_ready hs (channelStop_legal hx hd)
  generalize readChannel x s = y at hr hexec
  refine ⟨completeReading y, t1, t2, bytes, hexec, ?_, hr.slept, ?_, fun hn => ?_, fun d hsilent hto => ?_, fun h2 => ?_⟩
  · obtain ⟨t, e | v⟩ := y
    · exact ⟨rfl, rfl⟩
    · exact ⟨rfl, hr.bus⟩
  · obtain ⟨t, e | v⟩ := y <;> exact hr.log
  · obtain ⟨hbytes, herr⟩ := hr.nack hn
    rw [completeReading, complete_of_error herr]
    exact ⟨hbytes, rfl, takeError_word (code := .busError) rfl (by decide)⟩
  · obtain ⟨hbytes, herr, hlate⟩ := hr.timeout d hsilent hto
    rw [completeReading, complete_of_error herr]
    exact ⟨hbytes, rfl, hlate, takeError_word (code := .busTimeout) rfl (by decide)⟩
  · obtain ⟨raw, hbytes, hok⟩ := hr.passes h2
    rw [completeReading, complete_of_ok hok]
    exact ⟨raw, hbytes, rfl, rfl⟩

/-- Settles O29: the config word reads back, so the channel read is of the conversion it started. -/
theorem rdchReturnsTheConversionItStarted : Obligations.RdchReturnsTheConversionItStarted := by
  intro x s d hs hreadable hx hadc hfresh hwrite hread
  obtain ⟨hstart, -, hgain, hrate⟩ := configWordReadsBack s.cfg x hreadable hx
  obtain ⟨t, ht, hr⟩ := readChannel_acknowledged hs.cfg hadc (legalChannel_of_legalConfig hx) hfresh hwrite hread hstart
    hgain hrate
  obtain ⟨t1, t2, hslept, -, hlog⟩ := hr.log
  rw [exec_rdch_ready hs (channelStop_legal hx (ne_dac_of_wf hs.cfg hadc)), ht, completeReading, complete_ok]
  exact ⟨_, t1, t2, _, rfl, ⟨rfl, hr.bus⟩, rfl, rfl, rfl, hlog, hslept, hr.faults⟩

/-- A converter that a channel read does not address only ages, on a bad channel too where no conversion is overdue (R81). -/
theorem ReadFrame.onlyAges {x : ChannelConfig} {s t : State} (h : ReadFrame x s t) (hi : s.Inv) {b : Addr}
    (hb : b ≠ x.addr) : OnlyAges s t b := by
  cases hl : legalChannel x.ch with
  | true => exact h.ages hl b hb
  | false => exact .of_untouched hi (h.bad hl).1 (h.bad hl).2 b

/-- Settles O32: the frame of a channel read, and the report leaves what it left. -/
theorem rdchFrame : Obligations.RdchFrame := by
  intro a ch g dr cd s t h
  have hhost := (exec_runs h).frame.host
  obtain ⟨hgate, hcode, htx, hdac⟩ := writersOfEachPlace _ s t h
  obtain ⟨-, hstop, rfl⟩ := run_eq_next_iff.1 ((exec_rdch a ch g dr cd s).symm.trans h)
  have hf : ReadFrame ⟨a, ch, g, dr, cd⟩ s (readChannel ⟨a, ch, g, dr, cd⟩ s).1 :=
    readChannel_frame _ s (channelStop_none_dac hstop)
  rw [readChannel_setSeq] at *
  refine ⟨hgate nofun, hcode nofun nofun (.inl nofun), htx nofun nofun nofun, hdac nofun nofun nofun nofun, hhost, ?_,
    fun hi b hb => OnlyAges.complete _ _ _ _ (hf.onlyAges hi hb)⟩
  rw [completeReading, complete_faults]
  exact hf.faults

end Sys2Proof.Machine
end

section
/-!
PROOFS. SETCODE and CTRL: what becomes of the code and what is left alone (R204, R206); TXREC (R233).
-/

namespace Sys2Proof.Machine

/-! ### SETCODE (R204) -/

/-- The clamped code is the clamped number (R23). -/
theorem clampCode_toNat (x : Int) : ((clampCode x).toNat : Int) = clampInt x 0 4095 := by
  have hrange : 0 ≤ clampInt x 0 4095 ∧ clampInt x 0 4095 ≤ 4095 := by
    unfold clampInt
    split
    · omega
    · split <;> omega
  rw [clampCode, BitVec.toNat_ofInt]
  omega

theorem settleCode_of_ok {old k : BitVec 12} {x : Res Unit} (h : x.2 = .ok ()) : settleCode old k x = (x.1, .ok k) := by
  rw [settleCode, h]

/-- The state in which SETCODE makes its DAC write: the code is stored (R204). -/
def codeStored (k : BitVec 12) (s : State) : State := ((s.setSeq .setcode 0).setDacCode k).setSeq .setcode 1

theorem writeCode_eq (k : BitVec 12) (s : State) :
    writeCode k s =
      settleCode s.dacCode k (memWrite .untouched s.cfg.dacAddr dacCmd (dacBytes k) (codeStored k s)) := rfl

/-- What the write of a code leaves that the block takes for done (R66, R204). -/
structure CodeWritten (k : BitVec 12) (s : State) (x : Res (BitVec 12)) : Prop where
  ok      : x.2 = .ok k
  bus     : x.1.bus = .free
  dacCode : x.1.dacCode = k
  acked   : s.ackAt 0 s.cfg.dacAddr = .ack → x.1.dac = k
  log     : x.1.log = s.log ++
    [.busW s.now x.1.now s.cfg.dacAddr (dacCmd :: dacBytes k) (s.ackAt 0 s.cfg.dacAddr)]

theorem writeCode_passes (k : BitVec 12) {s : State} (h : s.passesAt 0 s.cfg.dacAddr) :
    CodeWritten k s (writeCode k s) := by
  have hw := memWrite_answered .untouched s.cfg.dacAddr dacCmd (dacBytes k) (codeStored k s)
  obtain ⟨hok, hnow⟩ := hw.passes h
  have hlog := hw.log
  rw [← hnow] at hlog
  rw [writeCode_eq, settleCode_of_ok hok]
  refine ⟨rfl, hw.bus, (memWrite_busFrame _ _ _ _ _).dacCode, fun hack => ?_, hlog⟩
  have htaken := deviceTakesIf_code (writeSent s.cfg.dacAddr dacCmd (dacBytes k) (codeStored k s)) true k s.nextAnswer rfl
  rw [memWrite_ack (s := codeStored k s) hack]
  exact congrArg State.dac htaken

theorem exec_setcode_ready {code : Half} {s : State} (hs : s.Ready) :
    exec (.setcode code) s =
      .next (complete .setcode codeSmall (fun _ => .empty) (writeCode (clampCode (toS16 code)) s)) := by
  rw [exec_setcode, run_ready hs rfl, writeCode_setSeq]

/-- Settles O39: the code is stored and written, and the write of a code keeps its frame. -/
theorem setcodeWritesTheClampedCode : Obligations.SetcodeWritesTheClampedCode := by
  intro code s hs h
  have hw := writeCode_passes (clampCode (toS16 code)) h
  have hf := writeCode_frame (clampCode (toS16 code)) s
  have hexec := exec_setcode_ready (code := code) hs
  have hhost := (exec_runs hexec).frame.host
  rw [complete_of_ok hw.ok] at hexec hhost
  exact ⟨_, _, hexec, ⟨rfl, hw.bus⟩, rfl, clampCode_toNat _, hw.dacCode, hf.dac.symm.imp_left (·.trans hw.dacCode),
    hw.acked, rfl, rfl, hw.log, hf.enabled, hf.tx, hf.faults, hhost, hf.ages⟩

/-! ### The frame of SETCODE and CTRL -/

/-- What a control step, whatever it is answered, does to the marks and the converters (R83, R206). -/
theorem controlStep_frame {s : State} (hs : channelStop s.cfg s.cfg.refChannel = none) :
    ((controlStep s).1.faults = s.faults ∨
        (controlStep s).1.faults = s.faults ++ [.conversionOverlap s.cfg.refChannel.addr]) ∧
      (s.Inv → ∀ b, b ≠ s.cfg.refChannel.addr → OnlyAges s (controlStep s).1 b) := by
  have hr := readChannel_frame s.cfg.refChannel s (channelStop_none_dac hs)
  rw [controlStep_eq]
  generalize readChannel s.cfg.refChannel s = x at hr
  obtain ⟨t, e | v⟩ := x
  · exact ⟨hr.faults, fun hi _ hb => hr.onlyAges hi hb⟩
  · have hc := writeCode_frame (gatedCode t v) t
    rw [andThen_ok, hc.faults]
    exact ⟨hr.faults, fun hi b hb => (hr.onlyAges hi hb).trans (hc.ages b) hc.now⟩

/-- Settles O44: SETCODE keeps the frame of its write, CTRL those of its read and its write. -/
theorem controlFrame : Obligations.ControlFrame := by
  intro i s t hi h
  have hhost := (exec_runs h).frame.host
  obtain ⟨hgate, -, htx, -⟩ := writersOfEachPlace i s t h
  obtain rfl | ⟨code, rfl⟩ := hi
  · obtain ⟨-, hstop, rfl⟩ := run_eq_next_iff.1 ((exec_ctrl s).symm.trans h)
    rw [controlStep_setSeq] at *
    obtain ⟨hfaults, hages⟩ := controlStep_frame hstop
    refine ⟨hgate nofun, htx nofun nofun nofun, hhost,
      fun hi b hb => OnlyAges.complete _ _ _ _ (hages hi b (hb.resolve_right (absurd rfl ·))), ?_, ?_⟩
    · rw [complete_faults]
      exact hfaults.imp_right fun h => ⟨rfl, h⟩
    · rw [complete_dac, complete_dacCode]
      exact controlStep_dac hstop
  · obtain ⟨-, -, rfl⟩ := run_eq_next_iff.1 ((exec_setcode code s).symm.trans h)
    rw [writeCode_setSeq] at *
    have hf := writeCode_frame (clampCode (toS16 code)) s
    refine ⟨hgate nofun, htx nofun nofun nofun, hhost, fun _ b _ => OnlyAges.complete _ _ _ _ (hf.ages b), .inl ?_, ?_⟩
    · rw [complete_faults]
      exact hf.faults
    · rw [complete_dac, complete_dacCode]
      exact hf.dac

/-! ### TXREC (R233) -/

theorem recordStop_none {c : Cfg} {fs : List Field} (h : fs.length = c.nFields) : recordStop c fs = none := if_pos h

/-- Settles O49: nothing stops the record, and what is sent is its line. -/
theorem txrecSendsTheLine : Obligations.TxrecSendsTheLine := by
  intro fs s hs hlen
  have hexec : exec (.txrec fs) s = .next (finish .txrec 0 .empty (sendRecord fs (s.setSeq .txrec 0))) := by
    rw [exec_txrec, run_ready hs (recordStop_none hlen)]
  exact ⟨_, hexec, ⟨rfl, hs.rest.2⟩, rfl, rfl, rfl, rfl, Nat.le_add_right _ _, rfl, rfl, rfl, rfl,
    (exec_runs hexec).frame.host, fun b => txBytes_onlyAges _ (s.setSeq .txrec 0) b⟩

end Sys2Proof.Machine
end

section
/-!
PROOFS. Encoder and decoder agree: a command word is put together of its parts, what each layout reads is said once, and both
directions and the refusals follow (R102 to R108, R122, R127).
-/

namespace Sys2Proof.Machine

/-! ### A word and its parts -/

/-- The `n` bits of a word from bit `lo` up, left at their place. -/
def part (cw : Word) (lo n : Nat) : Word := put (cw.extractLsb' lo n) lo

theorem part_getLsbD (cw : Word) (lo n : Nat) {i : Nat} (hi : i < 32) :
    (part cw lo n).getLsbD i = (decide (lo ≤ i ∧ i < lo + n) && cw.getLsbD i) := by
  by_cases hlo : lo ≤ i
  · have hlt : i - lo < n ↔ i < lo + n := by omega
    simp [part, put, hi, hlo, hlt, Nat.not_lt.2 hlo]
  · simp [part, put, hlo, Nat.lt_of_not_le hlo]

/-- Two neighbouring parts make one. -/
theorem part_or_part (cw : Word) {lo n hi : Nat} (h : lo + n = hi) (m : Nat) :
    part cw hi m ||| part cw lo n = part cw lo (n + m) := by
  subst h
  apply BitVec.eq_of_getLsbD_eq
  intro i hi
  rw [BitVec.getLsbD_or, part_getLsbD _ _ _ hi, part_getLsbD _ _ _ hi, part_getLsbD _ _ _ hi, ← Bool.and_or_distrib_right,
    ← Bool.decide_or]
  congr 2
  rw [eq_iff_iff]
  omega

theorem part_all (cw : Word) : part cw 0 32 = cw := by
  apply BitVec.eq_of_getLsbD_eq
  intro i hi
  rw [part_getLsbD cw 0 32 hi]
  simp [hi]

/-- Reserved bits that are zero are no part of the word (R122). -/
theorem part_eq_zero {cw : Word} {lo n : Nat} (h : cw.extractLsb' lo n = 0) : part cw lo n = 0#32 := by
  simp [part, put, h]

theorem ofBool_getLsbD (cw : Word) (i : Nat) : BitVec.ofBool (cw.getLsbD i) = cw.extractLsb' i 1 := by
  apply BitVec.eq_of_getLsbD_eq
  intro j hj
  obtain rfl : j = 0 := by omega
  simp

/-! ### The layouts -/

/-- Layout B (R103). -/
def layoutB (op : BitVec 4) (a : Addr) (r : Byte) (len : BitVec 8) : Word :=
  put op 28 ||| put a 21 ||| put r 13 ||| put len 5

/-- Layout C (R105). -/
def layoutC (op : BitVec 4) (a : Addr) (ch : BitVec 4) (g dr : BitVec 3) (cd : Bool) : Word :=
  put op 28 ||| put a 21 ||| put ch 17 ||| put g 14 ||| put dr 11 ||| put (BitVec.ofBool cd) 10

/-- Layouts T, D and E: OP, and one field that begins at bit 0 (R104, R106, R107). -/
def layoutLow {n : Nat} (op : BitVec 4) (x : BitVec n) : Word := put op 28 ||| put x 0

theorem encodeWord_wrreg (a : Addr) (r : Byte) (bs : List Byte) :
    encodeWord (.wrreg a r bs) = layoutB 1 a r (BitVec.ofNat 8 bs.length) := rfl

theorem encodeWord_rdreg (a : Addr) (r : Byte) (len : BitVec 8) : encodeWord (.rdreg a r len) = layoutB 2 a r len := rfl

theorem encodeWord_settle (dur : BitVec 24) : encodeWord (.settle dur) = layoutLow 3 dur := rfl

theorem encodeWord_rdch (a : Addr) (ch : BitVec 4) (g dr : BitVec 3) (cd : Bool) :
    encodeWord (.rdch a ch g dr cd) = layoutC 4 a ch g dr cd := rfl

theorem encodeWord_setcode (code : Half) : encodeWord (.setcode code) = layoutLow 5 code := rfl

theorem encodeWord_seten (e : Bool) : encodeWord (.seten e) = layoutLow 6 (BitVec.ofBool e) := rfl

theorem layoutB_fields (op : BitVec 4) (a : Addr) (r : Byte) (len : BitVec 8) :
    (layoutB op a r len).extractLsb' 0 5 = 0 ∧ addrField (layoutB op a r len) = a ∧ regField (layoutB op a r len) = r ∧
      lenField (layoutB op a r len) = len := by
  simp [layoutB, addrField, regField, lenField, extract_or, extract_put_above, extract_put_below, extract_put_same]

theorem layoutC_fields (op : BitVec 4) (a : Addr) (ch : BitVec 4) (g dr : BitVec 3) (cd : Bool) :
    (layoutC op a ch g dr cd).extractLsb' 0 10 = 0 ∧ addrField (layoutC op a ch g dr cd) = a ∧
      (layoutC op a ch g dr cd).extractLsb' 17 4 = ch ∧ (layoutC op a ch g dr cd).extractLsb' 14 3 = g ∧
      (layoutC op a ch g dr cd).extractLsb' 11 3 = dr ∧
      (layoutC op a ch g dr cd).extractLsb' 10 1 = BitVec.ofBool cd := by
  simp [layoutC, addrField, extract_or, extract_put_above, extract_put_below, extract_put_same]

theorem layoutLow_fields {n m : Nat} (hn : n + m = 28) (op : BitVec 4) (x : BitVec n) :
    (layoutLow op x).extractLsb' n m = 0 ∧ (layoutLow op x).extractLsb' 0 n = x := by
  have hlow : n ≤ 32 := by omega
  have habove : n ≤ 28 := by omega
  simp [layoutLow, extract_or, extract_put_above, extract_put_below, extract_put_same, hn, hlow, habove]

theorem layoutB_parts {cw : Word} (h : cw.extractLsb' 0 5 = 0) :
    layoutB (opField cw) (addrField cw) (regField cw) (lenField cw) = cw := by
  calc
    _ = part cw 28 4 ||| part cw 21 7 ||| part cw 13 8 ||| part cw 5 8 ||| part cw 0 5 := by
      rw [part_eq_zero h, BitVec.or_zero]
      rfl
    _ = cw := by simp [part_or_part, part_all]

theorem layoutC_parts {cw : Word} (h : cw.extractLsb' 0 10 = 0) :
    layoutC (opField cw) (addrField cw) (cw.extractLsb' 17 4) (cw.extractLsb' 14 3) (cw.extractLsb' 11 3) (cw.getLsbD 10) =
      cw := by
  calc
    _ = part cw 28 4 ||| part cw 21 7 ||| part cw 17 4 ||| part cw 14 3 ||| part cw 11 3 ||| part cw 10 1 |||
        part cw 0 10 := by
      rw [part_eq_zero h, BitVec.or_zero, layoutC, ofBool_getLsbD]
      rfl
    _ = cw := by simp [part_or_part, part_all]

theorem layoutLow_parts {cw : Word} {n m : Nat} (hn : n + m = 28) (h : cw.extractLsb' n m = 0) :
    layoutLow (opField cw) (cw.extractLsb' 0 n) = cw := by
  calc
    _ = part cw 28 4 ||| part cw n m ||| part cw 0 n := by
      rw [part_eq_zero h, BitVec.or_zero]
      rfl
    _ = cw := by
      rw [part_or_part cw hn, part_or_part cw (Nat.zero_add n), show n + (m + 4) = 32 by omega, part_all]

/-- Layout N is its OP (R108). -/
theorem layoutN_parts {cw : Word} (h : cw.extractLsb' 0 28 = 0) : put (opField cw) 28 = cw := by
  calc
    _ = part cw 28 4 ||| part cw 0 28 := by
      rw [part_eq_zero h, BitVec.or_zero]
      rfl
    _ = cw := by simp [part_or_part, part_all]

/-! ### What each layout reads -/

/-- What is read only when its check holds. -/
theorem guarded_ok {c : Prop} [Decidable c] {k : Except Reject Instr} {e : Reject} {i : Instr} :
    (if c then k else .error e) = .ok i ↔ c ∧ k = .ok i := by
  split <;> simp [*]

theorem withoutPayload_ok {p : Payload} {k : Except Reject Instr} {i : Instr} :
    withoutPayload p k = .ok i ↔ p = .none ∧ k = .ok i := by
  cases p <;> simp [withoutPayload]

theorem layoutN_ok {cw : Word} {k : Except Reject Instr} {i : Instr} :
    layoutN cw k = .ok i ↔ cw.extractLsb' 0 28 = 0 ∧ k = .ok i := guarded_ok

theorem withFields_ok {p : Payload} {mk : List Field → Instr} {i : Instr} :
    withFields p mk = .ok i ↔ ∃ fs, p = .fields fs ∧ mk fs = i := by
  cases p <;> simp [withFields]

theorem withPairs_ok {p : Payload} {i : Instr} :
    withPairs p = .ok i ↔ ∃ ps, p = .pairs ps ∧ pairsOk ps = true ∧ .diagln ps = i := by
  cases p <;> simp [withPairs, guarded_ok]

/-- WRREG takes LEN bytes, or no payload at all for LEN = 0 (R103, R127). -/
theorem decodeWrreg_ok {cw : Word} {p : Payload} {i : Instr} :
    decodeWrreg cw p = .ok i ↔ cw.extractLsb' 0 5 = 0 ∧ ∃ bs, bs.length = (lenField cw).toNat ∧
      (p = .bytes bs ∨ (p = .none ∧ bs = [])) ∧ .wrreg (addrField cw) (regField cw) bs = i := by
  have hlen : lenField cw = 0 ↔ 0 = (lenField cw).toNat := by rw [eq_comm, BitVec.toNat_eq]; rfl
  unfold decodeWrreg
  rw [guarded_ok]
  cases p <;> simp [guarded_ok, ← hlen]

theorem decodeRdreg_ok {cw : Word} {p : Payload} {i : Instr} :
    decodeRdreg cw p = .ok i ↔ cw.extractLsb' 0 5 = 0 ∧ p = .none ∧ lenField cw ≠ 0 ∧
      .rdreg (addrField cw) (regField cw) (lenField cw) = i := by
  have hlen : (if lenField cw = 0 then .error .zeroLength else .ok (.rdreg (addrField cw) (regField cw) (lenField cw))) =
      (.ok i : Except Reject Instr) ↔ lenField cw ≠ 0 ∧ .rdreg (addrField cw) (regField cw) (lenField cw) = i := by
    split
    · next h => simp [h]
    · next h => rw [Except.ok.injEq, and_iff_right h]
  rw [decodeRdreg, guarded_ok, withoutPayload_ok, hlen]

theorem decodeSettle_ok {cw : Word} {p : Payload} {i : Instr} :
    decodeSettle cw p = .ok i ↔ cw.extractLsb' 24 4 = 0 ∧ p = .none ∧ .settle (cw.extractLsb' 0 24) = i := by
  rw [decodeSettle, guarded_ok, withoutPayload_ok, Except.ok.injEq]

theorem decodeRdch_ok {cw : Word} {p : Payload} {i : Instr} :
    decodeRdch cw p = .ok i ↔ cw.extractLsb' 0 10 = 0 ∧ p = .none ∧
      .rdch (addrField cw) (cw.extractLsb' 17 4) (cw.extractLsb' 14 3) (cw.extractLsb' 11 3) (cw.getLsbD 10) = i := by
  rw [decodeRdch, guarded_ok, withoutPayload_ok, Except.ok.injEq]

theorem decodeSetcode_ok {cw : Word} {p : Payload} {i : Instr} :
    decodeSetcode cw p = .ok i ↔ cw.extractLsb' 16 12 = 0 ∧ p = .none ∧ .setcode (cw.extractLsb' 0 16) = i := by
  rw [decodeSetcode, guarded_ok, withoutPayload_ok, Except.ok.injEq]

theorem decodeSeten_ok {cw : Word} {p : Payload} {i : Instr} :
    decodeSeten cw p = .ok i ↔ cw.extractLsb' 1 27 = 0 ∧ p = .none ∧ .seten (cw.getLsbD 0) = i := by
  rw [decodeSeten, guarded_ok, withoutPayload_ok, Except.ok.injEq]

/-! ### Decoding an encoded operation -/

/-- A word of layout N has no bit below its OP (R108). -/
theorem extract_put_op (op : BitVec 4) : (put op 28).extractLsb' 0 28 = 0 := extract_put_above op (by decide)

/-- Settles O1: each field is read where it was put, and no field covers the reserved bits. -/
theorem decodeOfEncodeIsTheOperation : Obligations.DecodeOfEncodeIsTheOperation := by
  intro i hwf
  unfold decode
  rw [opField_encodeWord i]
  cases i with
  | wrreg a r bs =>
    obtain ⟨hzero, ha, hr, hlen⟩ := layoutB_fields 1 a r (BitVec.ofNat 8 bs.length)
    have hbs : bs.length ≤ 255 := of_decide_eq_true hwf
    refine decodeWrreg_ok.2 ?_
    rw [encodeWord_wrreg, ha, hr, hlen]
    exact ⟨hzero, bs, (Nat.mod_eq_of_lt (by omega)).symm, .inl rfl, rfl⟩
  | rdreg a r len =>
    obtain ⟨hzero, ha, hr, hlen⟩ := layoutB_fields 2 a r len
    refine decodeRdreg_ok.2 ?_
    rw [encodeWord_rdreg, ha, hr, hlen]
    exact ⟨hzero, rfl, bne_iff_ne.1 hwf, rfl⟩
  | settle dur =>
    obtain ⟨hzero, hdur⟩ := layoutLow_fields (m := 4) rfl 3 dur
    exact decodeSettle_ok.2 ⟨hzero, rfl, congrArg Instr.settle hdur⟩
  | rdch a ch g dr cd =>
    obtain ⟨hzero, ha, hch, hg, hdr, hcd⟩ := layoutC_fields 4 a ch g dr cd
    refine decodeRdch_ok.2 ?_
    rw [encodeWord_rdch, ha, hch, hg, hdr, BitVec.ofBool_eq_iff_eq.1 ((ofBool_getLsbD _ _).trans hcd)]
    exact ⟨hzero, rfl, rfl⟩
  | setcode code =>
    obtain ⟨hzero, hcode⟩ := layoutLow_fields (m := 12) rfl 5 code
    exact decodeSetcode_ok.2 ⟨hzero, rfl, congrArg Instr.setcode hcode⟩
  | seten e =>
    obtain ⟨hzero, he⟩ := layoutLow_fields (m := 27) rfl 6 (BitVec.ofBool e)
    exact decodeSeten_ok.2 ⟨hzero, rfl, congrArg Instr.seten (BitVec.ofBool_eq_iff_eq.1 ((ofBool_getLsbD _ _).trans he))⟩
  | ctrl => rfl
  | fmtrec fs => exact layoutN_ok.2 ⟨extract_put_op 8, rfl⟩
  | txrec fs => exact layoutN_ok.2 ⟨extract_put_op 9, rfl⟩
  | diagln ps => exact layoutN_ok.2 ⟨extract_put_op 10, withPairs_ok.2 ⟨ps, rfl, hwf, rfl⟩⟩
  | cycle => rfl

/-! ### Encoding what was decoded -/

/-- The operation is the one the command `(cw, p)` says: its word is `cw` and its payload `p`, but for a WRREG of no bytes, which
needs none (R103, R127). -/
structure Encodes (i : Instr) (cw : Word) (p : Payload) : Prop where
  wf      : i.wf = true
  word    : encodeWord i = cw
  payload : encodePayload i = p ∨ (p = .none ∧ ∃ a r, i = .wrreg a r [])

theorem decodeWrreg_encodes {cw : Word} {p : Payload} {i : Instr} (hop : opField cw = 1) (h : decodeWrreg cw p = .ok i) :
    Encodes i cw p := by
  obtain ⟨hzero, bs, hlen, hp, rfl⟩ := decodeWrreg_ok.1 h
  refine ⟨decide_eq_true (by omega), ?_, ?_⟩
  · rw [encodeWord_wrreg, hlen, BitVec.ofNat_toNat, BitVec.setWidth_eq, ← hop, layoutB_parts hzero]
  · obtain rfl | ⟨rfl, rfl⟩ := hp
    · exact .inl rfl
    · exact .inr ⟨rfl, _, _, rfl⟩

theorem decodeRdreg_encodes {cw : Word} {p : Payload} {i : Instr} (hop : opField cw = 2) (h : decodeRdreg cw p = .ok i) :
    Encodes i cw p := by
  obtain ⟨hzero, rfl, hlen, rfl⟩ := decodeRdreg_ok.1 h
  exact ⟨bne_iff_ne.2 hlen, by rw [encodeWord_rdreg, ← hop, layoutB_parts hzero], .inl rfl⟩

theorem decodeSettle_encodes {cw : Word} {p : Payload} {i : Instr} (hop : opField cw = 3) (h : decodeSettle cw p = .ok i) :
    Encodes i cw p := by
  obtain ⟨hzero, rfl, rfl⟩ := decodeSettle_ok.1 h
  exact ⟨rfl, by rw [encodeWord_settle, ← hop, layoutLow_parts rfl hzero], .inl rfl⟩

theorem decodeRdch_encodes {cw : Word} {p : Payload} {i : Instr} (hop : opField cw = 4) (h : decodeRdch cw p = .ok i) :
    Encodes i cw p := by
  obtain ⟨hzero, rfl, rfl⟩ := decodeRdch_ok.1 h
  exact ⟨rfl, by rw [encodeWord_rdch, ← hop, layoutC_parts hzero], .inl rfl⟩

theorem decodeSetcode_encodes {cw : Word} {p : Payload} {i : Instr} (hop : opField cw = 5)
    (h : decodeSetcode cw p = .ok i) : Encodes i cw p := by
  obtain ⟨hzero, rfl, rfl⟩ := decodeSetcode_ok.1 h
  exact ⟨rfl, by rw [encodeWord_setcode, ← hop, layoutLow_parts rfl hzero], .inl rfl⟩

theorem decodeSeten_encodes {cw : Word} {p : Payload} {i : Instr} (hop : opField cw = 6) (h : decodeSeten cw p = .ok i) :
    Encodes i cw p := by
  obtain ⟨hzero, rfl, rfl⟩ := decodeSeten_ok.1 h
  exact ⟨rfl, by rw [encodeWord_seten, ofBool_getLsbD, ← hop, layoutLow_parts rfl hzero], .inl rfl⟩

/-- An operation of layout N is its OP (R108). -/
theorem layoutN_encodes {cw : Word} {p : Payload} {i : Instr} (hop : opField cw = (opOf i).code)
    (hword : encodeWord i = put (opOf i).code 28) (hzero : cw.extractLsb' 0 28 = 0) (hwf : i.wf = true)
    (hp : encodePayload i = p) : Encodes i cw p :=
  ⟨hwf, by rw [hword, ← hop, layoutN_parts hzero], .inl hp⟩

theorem decode_encodes {cw : Word} {p : Payload} {i : Instr} (h : decode cw p = .ok i) : Encodes i cw p := by
  have hfield : ∀ {k : BitVec 4}, (opField cw).toNat = k.toNat → opField cw = k := BitVec.eq_of_toNat_eq
  unfold decode at h
  split at h
  · next hop => exact decodeWrreg_encodes (hfield hop) h
  · next hop => exact decodeRdreg_encodes (hfield hop) h
  · next hop => exact decodeSettle_encodes (hfield hop) h
  · next hop => exact decodeRdch_encodes (hfield hop) h
  · next hop => exact decodeSetcode_encodes (hfield hop) h
  · next hop => exact decodeSeten_encodes (hfield hop) h
  · next hop =>
    obtain ⟨hzero, hp, hi⟩ := by rwa [layoutN_ok, withoutPayload_ok, Except.ok.injEq] at h
    subst hi
    exact layoutN_encodes (hfield hop) rfl hzero rfl hp.symm
  · next hop =>
    obtain ⟨hzero, fs, rfl, rfl⟩ := by rwa [layoutN_ok, withFields_ok] at h
    exact layoutN_encodes (hfield hop) rfl hzero rfl rfl
  · next hop =>
    obtain ⟨hzero, fs, rfl, rfl⟩ := by rwa [layoutN_ok, withFields_ok] at h
    exact layoutN_encodes (hfield hop) rfl hzero rfl rfl
  · next hop =>
    obtain ⟨hzero, ps, rfl, hok, rfl⟩ := by rwa [layoutN_ok, withPairs_ok] at h
    exact layoutN_encodes (hfield hop) rfl hzero hok rfl
  · next hop =>
    obtain ⟨hzero, hp, hi⟩ := by rwa [layoutN_ok, withoutPayload_ok, Except.ok.injEq] at h
    subst hi
    exact layoutN_encodes (hfield hop) rfl hzero rfl hp.symm
  · cases h

theorem tableRow (i : Instr) : encodeWord i &&& tableMask i = tableMatch i := by
  cases i with
  | wrreg a r bs => exact Laws.TableRow.wrreg a r bs
  | rdreg a r len => exact Laws.TableRow.rdreg a r len
  | settle dur => exact Laws.TableRow.settle dur
  | rdch a ch g dr cd => exact Laws.TableRow.rdch a ch g dr cd
  | setcode code => exact Laws.TableRow.setcode code
  | seten e => exact Laws.TableRow.seten e
  | ctrl => exact Laws.TableRow.ctrl
  | fmtrec fs => exact Laws.TableRow.fmtrec fs
  | txrec fs => exact Laws.TableRow.txrec fs
  | diagln ps => exact Laws.TableRow.diagln ps
  | cycle => exact Laws.TableRow.cycle

/-- Settles O2: whatever layout the decoder reads by, the operation is the command's, and so its word is in its row. -/
theorem encodeOfDecodeIsTheCommand : Obligations.EncodeOfDecodeIsTheCommand := by
  intro cw p i h
  obtain ⟨hwf, rfl, hp⟩ := decode_encodes h
  exact ⟨hwf, rfl, tableRow i, hp⟩

/-! ### What the decoder refuses (R122) -/

/-- A command that no operation reads as is refused. -/
theorem decode_refuses {cw : Word} {p : Payload} (h : ∀ i, decode cw p ≠ .ok i) : ∃ e, decode cw p = .error e := by
  cases hd : decode cw p with
  | error e => exact ⟨e, rfl⟩
  | ok i => exact absurd hd (h i)

/-- The OP of a command that is read is its operation's. -/
theorem opField_of_decode {cw : Word} {p : Payload} {i : Instr} (h : decode cw p = .ok i) :
    opField cw = (opOf i).code := by
  rw [← opField_encodeWord, (decode_encodes h).word]

/-- Bytes travel with WRREG only (R127). -/
theorem decode_bytes_op {cw : Word} {bs : List Byte} {i : Instr} (h : decode cw (.bytes bs) = .ok i) : opField cw = 1 := by
  have hp := (decode_encodes h).payload
  rw [opField_of_decode h]
  cases i with
  | wrreg a r bs => rfl
  | _ => simp [encodePayload] at hp

/-- Fields travel with FMTREC and TXREC only (R127). -/
theorem decode_fields_op {cw : Word} {fs : List Field} {i : Instr} (h : decode cw (.fields fs) = .ok i) :
    opField cw = 8 ∨ opField cw = 9 := by
  have hp := (decode_encodes h).payload
  rw [opField_of_decode h]
  cases i with
  | fmtrec fs => exact .inl rfl
  | txrec fs => exact .inr rfl
  | _ => simp [encodePayload] at hp

/-- Pairs travel with DIAGLN only (R127). -/
theorem decode_pairs_op {cw : Word} {ps : List (Key × Field)} {i : Instr} (h : decode cw (.pairs ps) = .ok i) :
    opField cw = 10 := by
  have hp := (decode_encodes h).payload
  rw [opField_of_decode h]
  cases i with
  | diagln ps => rfl
  | _ => simp [encodePayload] at hp

/-- FMTREC, TXREC and DIAGLN have a payload (R127). -/
theorem decode_none_op {cw : Word} {i : Instr} (h : decode cw .none = .ok i) :
    (opField cw).toNat < 8 ∨ 10 < (opField cw).toNat := by
  have hp := (decode_encodes h).payload
  rw [opField_of_decode h]
  cases i with
  | fmtrec _ | txrec _ | diagln _ => simp [encodePayload] at hp
  | _ => simp [opOf, Op.code]

/-- No OP of layout N is read with a bit below it (R108). -/
theorem decode_layoutN_reserved {cw : Word} {p : Payload} (hlo : 7 ≤ (opField cw).toNat) (hhi : (opField cw).toNat ≤ 11)
    (hres : cw.extractLsb' 0 28 ≠ 0) : decode cw p = .error .reservedBits := by
  unfold decode
  generalize (opField cw).toNat = op at hlo hhi
  interval_cases op <;> exact if_neg hres

theorem decode_noOperation {cw : Word} {p : Payload} (h : opField cw = 0 ∨ 12 ≤ (opField cw).toNat) :
    decode cw p = .error .noOperation := by
  have hop : (opField cw).toNat = 0 ∨ 12 ≤ (opField cw).toNat := h.imp_left (congrArg BitVec.toNat)
  unfold decode
  split
  case h_12 => rfl
  all_goals omega

/-- Settles O3: a command with a wrong payload would be read as an operation that has another one; the other refusals are the
decoder's own checks. -/
theorem reservedCommandsAreRefused : Obligations.ReservedCommandsAreRefused := by
  refine ⟨fun cw p hop => decode_noOperation hop, fun cw p hop hres => ?_, fun cw p hop hres => ?_,
    fun cw p hop hres => ?_, fun cw p hop hres => ?_, fun cw p hop hres => ?_,
    fun cw p hlo hhi hres => decode_layoutN_reserved hlo hhi hres, fun cw bs hop hres hlen => ?_,
    fun cw fs ps hop0 hop7 => ⟨decode_refuses fun i h => ?_, decode_refuses fun i h => ?_⟩,
    fun cw hlo hhi => decode_refuses fun i h => ?_, fun cw bs hop => decode_refuses fun i h => hop (decode_bytes_op h),
    fun cw ps hop => decode_refuses fun i h => ?_, fun cw fs hop => decode_refuses fun i h => ?_,
    fun cw fs ps hop => ⟨decode_refuses fun i h => ?_, decode_refuses fun i h => ?_⟩,
    fun cw hop hlen => decode_refuses fun i h => ?_, fun cw hop hlen hres => ?_⟩
  · obtain hop | hop := hop <;> rw [decode, hop] <;> exact if_neg hres
  · rw [decode, hop]; exact if_neg hres
  · rw [decode, hop]; exact if_neg hres
  · rw [decode, hop]; exact if_neg hres
  · rw [decode, hop]; exact if_neg hres
  · rw [decode, hop]; exact (if_pos hres).trans (if_neg hlen)
  · obtain hop | hop := decode_fields_op h <;> simp [hop] at hop7
  · simp [decode_pairs_op h] at hop7
  · have := decode_none_op h
    omega
  · simp [decode_pairs_op h] at hop
  · simpa [hop] using decode_fields_op h
  · simpa [hop] using decode_fields_op h
  · simp [decode_pairs_op h] at hop
  · rw [decode, hop] at h
    obtain ⟨-, bs, hbs, hp, -⟩ := decodeWrreg_ok.1 h
    obtain ⟨-, rfl⟩ := hp.resolve_left nofun
    exact hlen (BitVec.eq_of_toNat_eq hbs.symm)
  · rw [decode, hop]
    exact (if_pos hres).trans (if_pos hlen)

/-- Settles O4: each word is the encoding of the operation it is written for. -/
theorem specCommandWordsDecode : Obligations.SpecCommandWordsDecode := by
  have h := decodeOfEncodeIsTheOperation
  exact ⟨h (.wrreg 0x48 0x01 [0xC3, 0x83]) rfl, h (.rdreg 0x48 0x00 2) rfl, h (.settle 8813) rfl,
    h (.rdch 0x48 0 1 4 true) rfl, h (.setcode 2748) rfl, h (.setcode 0xFFF6) rfl, h (.seten true) rfl, h .ctrl rfl,
    h (.fmtrec []) rfl, h (.txrec []) rfl, h (.diagln [([0x56], .outOfRange)]) rfl, h .cycle rfl⟩

/-! ### The step of a command (R102, R122) -/

theorem step_command {s : State} {cw : Word} {p : Payload} {rest : List HostInput} (h : s.inputs = .command cw p :: rest) :
    step s = issue cw p (s.setInputs rest) := by
  rw [step, h]
  rfl

/-- Settles O5: a step issues the command, and what was decoded is the command's operation. -/
theorem stepRunsTheDecodedOperation : Obligations.StepRunsTheDecodedOperation := by
  intro s cw p i rest hin hdec
  exact ⟨(decode_encodes hdec).wf, by rw [step_command hin, issue, hdec]⟩

/-- Settles O6: a step issues the command, which is refused by the decoder's name. -/
theorem stepRefusesReservedCommands : Obligations.StepRefusesReservedCommands := by
  intro s cw p e rest hin hdec
  rw [step_command hin, issue, hdec]

/-! ### The conversion word (R70, R115, R174) -/

theorem u16_toNat (b0 b1 : Byte) : (u16 b0 b1).toNat = b0.toNat * 256 + b1.toNat := by
  have hadd : u16 b0 b1 = b0.setWidth 16 <<< 8 + b1.setWidth 16 := by
    refine (BitVec.add_eq_or_of_and_eq_zero _ _ ?_).symm
    ext i hi
    interval_cases i <;> simp
  have h0 := b0.isLt
  have h1 := b1.isLt
  rw [hadd]
  simp only [BitVec.toNat_add, BitVec.toNat_shiftLeft, BitVec.toNat_setWidth, Nat.shiftLeft_eq]
  omega

/-- Settles O36: the shifted first byte and the second are added, and two bytes of a register make it again. -/
theorem conversionWordIsBigEndianSigned : Obligations.ConversionWordIsBigEndianSigned := by
  refine ⟨u16_toNat, decodeRaw_halfBytes, fun w => ?_⟩
  rw [toS16, ← ite_not]
  simp only [Nat.not_lt]

end Sys2Proof.Machine
end

section
/-!
PROOFS. The telemetry line and the diagnostic line, byte by byte: which bytes a field's text holds, how a separator joins
texts, and why no diagnostic line begins with the tag (R118, R119, R231, R232, R234).
-/

namespace Sys2Proof.Machine

/-! ### The text of a field (R231, R236) -/

theorem digitByte_toNat (n : Nat) : (digitByte n).toNat = 0x30 + n % 10 := by
  rw [digitByte, BitVec.toNat_ofNat]
  omega

/-- The byte is an ASCII digit (R118). -/
def DigitByte (b : Byte) : Prop := 0x30 ≤ b.toNat ∧ b.toNat ≤ 0x39

theorem digitByte_digit (n : Nat) : DigitByte (digitByte n) := by
  rw [DigitByte, digitByte_toNat]
  omega

theorem decimalAux_digits {fuel n : Nat} {acc : List Byte} (hacc : ∀ b ∈ acc, DigitByte b) :
    ∀ b ∈ decimalAux fuel n acc, DigitByte b := by
  induction fuel generalizing n acc with
  | zero => exact hacc
  | succ fuel ih =>
    have hcons : ∀ b ∈ digitByte n :: acc, DigitByte b := List.forall_mem_cons.2 ⟨digitByte_digit n, hacc⟩
    rw [decimalAux]
    split
    · exact hcons
    · exact ih hcons

theorem decimal_digits (n : Nat) : ∀ b ∈ decimal n, DigitByte b := decimalAux_digits (by simp)

theorem pad3_digits (n : Nat) : ∀ b ∈ pad3 n, DigitByte b := by
  simp [pad3, digitByte_digit]

/-- The byte may stand in a field's text: ASCII, no comma, no line feed (R118, R236). -/
def FieldByte (b : Byte) : Prop := b.toNat < 0x80 ∧ b ≠ 0x2C ∧ b ≠ 0x0A

theorem DigitByte.fieldByte {b : Byte} (h : DigitByte b) : FieldByte b := by
  obtain ⟨hlo, hhi⟩ := h
  refine ⟨by omega, ?_, ?_⟩
  · rintro rfl
    exact absurd hlo (by decide)
  · rintro rfl
    exact absurd hlo (by decide)

theorem sentinelOk_of_wf {c : Cfg} (h : c.wf = true) : c.sentinelOk = true := by
  simp only [Cfg.wf, Bool.and_eq_true] at h
  obtain ⟨⟨-, hsentinel⟩, -⟩ := h
  exact hsentinel

theorem sentinelBytes_fieldBytes {c : Cfg} (h : c.sentinelOk = true) : ∀ b ∈ c.sentinelBytes, FieldByte b := by
  obtain ⟨-, hcomma, hnewline⟩ := sentinelOk_iff.1 h
  intro b hb
  obtain ⟨x, hx, rfl⟩ := List.mem_map.1 hb
  have hback : ∀ y : BitVec 7, x.setWidth 8 = y.setWidth 8 → x = y := by
    intro y hy
    bv_omega
  refine ⟨by bv_omega, fun hb => hcomma ?_, fun hb => hnewline ?_⟩
  · rwa [hback 0x2C hb] at hx
  · rwa [hback 0x0A hb] at hx

theorem fmt3_fieldBytes {c : Cfg} (h : c.sentinelOk = true) (f : Field) : ∀ b ∈ fmt3 c f, FieldByte b := by
  cases f with
  | outOfRange => exact sentinelBytes_fieldBytes h
  | num q =>
    have hminus : ∀ b ∈ (if q < 0 then [0x2D] else [] : List Byte), FieldByte b := by
      split <;> simp [FieldByte]
    have hpoint : ∀ b ∈ ([0x2E] : List Byte), FieldByte b := by simp [FieldByte]
    intro b hb
    simp only [fmt3, List.mem_append] at hb
    obtain ((hb | hb) | hb) | hb := hb
    · exact hminus b hb
    · exact (decimal_digits _ b hb).fieldByte
    · exact hpoint b hb
    · exact (pad3_digits _ b hb).fieldByte

/-! ### Joined texts -/

theorem mem_joinBytes {sep : List Byte} {ts : List (List Byte)} {b : Byte} (h : b ∈ joinBytes sep ts) :
    b ∈ sep ∨ ∃ t ∈ ts, b ∈ t := by
  fun_induction joinBytes sep ts with
  | case1 => simp at h
  | case2 t => exact .inr ⟨t, by simp, h⟩
  | case3 t u ts ih =>
    simp only [List.mem_append] at h
    obtain (h | h) | h := h
    · exact .inr ⟨t, by simp, h⟩
    · exact .inl h
    · exact (ih h).imp_right fun ⟨x, hx, hb⟩ => ⟨x, List.mem_cons_of_mem _ hx, hb⟩

/-- A byte that stands in none of the texts stands where they are joined, once for each time it is in the separator. -/
theorem count_joinBytes {sep : List Byte} {ts : List (List Byte)} {b : Byte} (h : ∀ t ∈ ts, b ∉ t) :
    (joinBytes sep ts).count b = (ts.length - 1) * sep.count b := by
  fun_induction joinBytes sep ts with
  | case1 => simp
  | case2 t => simpa [List.count_eq_zero] using h
  | case3 t u ts ih =>
    obtain ⟨ht, hts⟩ := List.forall_mem_cons.1 h
    rw [List.count_append, List.count_append, List.count_eq_zero.2 ht, ih hts]
    simp only [List.length_cons, Nat.add_sub_cancel]
    ring

/-! ### The telemetry line (R118, R232) -/

/-- Settles O47: the tag is in front, the fields hold neither commas nor line feeds, and the separator is one comma. -/
theorem recordLineShape : Obligations.RecordLineShape := by
  intro c fs hc hpos hlen
  have hfield : ∀ t ∈ fs.map (fmt3 c), ∀ b ∈ t, FieldByte b := by
    intro t ht
    obtain ⟨f, -, rfl⟩ := List.mem_map.1 ht
    exact fmt3_fieldBytes (sentinelOk_of_wf hc) f
  have hcomma := count_joinBytes (sep := [0x2C]) fun t ht hb => (hfield t ht 0x2C hb).2.1 rfl
  have hnewline := count_joinBytes (sep := [0x2C]) fun t ht hb => (hfield t ht 0x0A hb).2.2 rfl
  rw [List.length_map, hlen] at hcomma hnewline
  refine ⟨?_, ?_, ?_, ?_, fun b hb => ?_⟩
  · rw [beginsWithTag, List.isPrefixOf_iff_prefix, recordLine, List.append_assoc]
    exact List.prefix_append _ _
  · exact List.getLast?_concat
  · rw [recordLine, List.count_append, List.count_append, hnewline]
    simp [tagBytes]
  · rw [recordLine, List.count_append, List.count_append, hcomma]
    show 1 + (c.nFields - 1) * 1 + 0 = c.nFields
    omega
  · simp only [recordLine, List.mem_append] at hb
    obtain (hb | hb) | hb := hb
    · revert b
      decide
    · obtain hb | ⟨t, ht, hb⟩ := mem_joinBytes hb
      · obtain rfl := List.mem_singleton.1 hb
        decide
      · exact (hfield t ht b hb).1
    · obtain rfl := List.mem_singleton.1 hb
      decide

/-! ### The diagnostic line (R119, R234) -/

/-- What begins a text, and does not hold a byte of it, ends before that byte. -/
theorem prefix_before {α : Type} {l k r : List α} {x : α} (h : l <+: k ++ x :: r) (hx : x ∉ l) : l <+: k := by
  by_cases hle : l.length ≤ k.length
  · exact List.prefix_of_prefix_length_le h (List.prefix_append _ _) hle
  · have hkx : k ++ [x] <+: k ++ x :: r := ⟨r, by simp⟩
    have hl : k ++ [x] <+: l := List.prefix_of_prefix_length_le hkx h (by simpa using Nat.lt_of_not_le hle)
    exact absurd (hl.subset (by simp)) hx

/-- A legal key holds no comma (R234). -/
theorem comma_not_mem_key {k : Key} (h : Key.ok k = true) : 0x2C ∉ k := fun hc => by
  simpa using List.all_eq_true.1 h _ hc

theorem joinBytes_cons (sep t : List Byte) (ts : List (List Byte)) : ∃ rest, joinBytes sep (t :: ts) = t ++ rest := by
  cases ts with
  | nil => exact ⟨[], (List.append_nil t).symm⟩
  | cons u ts => exact ⟨_, List.append_assoc _ _ _⟩

/-- A diagnostic line begins with its first key and a colon (R119). -/
theorem diagLine_cons (c : Cfg) (k : Key) (f : Field) (ps : List (Key × Field)) :
    ∃ rest, diagLine c ((k, f) :: ps) = k ++ 0x3A :: rest := by
  obtain ⟨rest, hrest⟩ := joinBytes_cons [0x2C, 0x20] (pairText c (k, f)) (ps.map (pairText c))
  refine ⟨fmt3 c f ++ rest ++ [0x0A], ?_⟩
  rw [diagLine, List.map_cons, hrest]
  simp [pairText]

/-- The tag holds a comma and no colon, a legal key no comma: the line's first colon comes too soon (R234). -/
theorem diagLine_not_tag (c : Cfg) {ps : List (Key × Field)} (h : pairsOk ps = true) :
    beginsWithTag (diagLine c ps) = false := by
  obtain _ | ⟨⟨k, f⟩, ps⟩ := ps
  · cases h
  · have hk : Key.ok k = true := List.all_eq_true.1 (Bool.and_eq_true_iff.1 h).2 (k, f) (by simp)
    obtain ⟨rest, hrest⟩ := diagLine_cons c k f ps
    rw [← Bool.not_eq_true, beginsWithTag, List.isPrefixOf_iff_prefix, hrest]
    intro hp
    have hin : tagBytes <+: k := prefix_before hp (by decide)
    exact comma_not_mem_key hk (hin.subset (by decide))

/-- Settles O51: nothing stops the line, as it does not begin with the tag, and what is sent is the line. -/
theorem diaglnSendsItsText : Obligations.DiaglnSendsItsText := by
  intro ps s hs hps hkeys
  have htag : beginsWithTag (diagLine s.cfg ps) = false := diagLine_not_tag _ hps
  have hstop : diagStop s.cfg ps = none := by simp [diagStop, hps, hkeys, htag]
  have hexec : exec (.diagln ps) s =
      .next (finish .diagln 0 .empty (txBytes (diagLine s.cfg ps) (s.setSeq .diagln 0))) := by
    rw [exec_diagln, run_ready hs hstop]
    rfl
  exact ⟨htag, _, hexec, ⟨rfl, hs.rest.2⟩, rfl, rfl, rfl, rfl, rfl, rfl, rfl, rfl, (exec_runs hexec).frame.host,
    fun b => txBytes_onlyAges _ (s.setSeq .diagln 0) b⟩

end Sys2Proof.Machine
end

section
/-!
PROOFS. A cycle as the issuing of its members: each RDCH of the host's sweep leaves what the same channel read leaves inside the
cycle, but for the sequencer and what the block reports, and so do the control step and the transmission (R126, R260, R261).
-/

namespace Sys2Proof.Machine

/-! ### The end of a member -/

/-- The block between two members: the sequencer idle, with an error code and a response that no member looks at. -/
def State.ended (s : State) (e : ErrCode) (p : Option Response) : State := (s.setSeq .idle 0).reporting e p

@[simp] theorem ended_cfg (s : State) (e : ErrCode) (p : Option Response) : (s.ended e p).cfg = s.cfg := rfl

/-- A block at rest between two members takes the next one. -/
theorem ended_ready {s : State} (hc : s.cfg.wf = true) (hb : s.bus = .free) (e : ErrCode) (p : Option Response) :
    (s.ended e p).Ready :=
  ⟨hc, by rw [State.isIdle, show (s.ended e p).bus = .free from hb]; rfl⟩

/-- A block at rest has ended its last member. -/
theorem ended_self {s : State} (h : s.seq = ⟨.idle, 0⟩) : s.ended s.err s.resp = s := by
  rw [State.ended, State.setSeq, ← h]
  rfl

theorem takeError_ended {op : Op} {e : BlockError} {s : State} (hb : s.bus = .free) :
    takeError op e s = s.ended e.code (some ⟨responseWord op e.code 0, .empty, some e⟩) := by
  rw [takeError, ← hb]
  rfl

/-- An operation that leaves the bus free ends idle, whether it raised or not. -/
theorem complete_ended {α : Type} (op : Op) (k : α → BitVec 24) (r : α → Result) {x : Res α} (hb : x.1.bus = .free) :
    ∃ e p, complete op k r x = x.1.ended e p := by
  obtain ⟨t, err | v⟩ := x
  · exact ⟨_, _, takeError_ended hb⟩
  · exact ⟨_, _, rfl⟩

/-- The error an operation raised is in its response (R13). -/
theorem complete_raised {α : Type} (op : Op) (k : α → BitVec 24) (r : α → Result) (x : Res α) :
    (complete op k r x).raised = errorOf x := by
  obtain ⟨t, err | v⟩ := x <;> rfl

/-- The voltage of a channel read is in its response, if it has one (R121). -/
theorem completeReading_volts (x : Res Reading) : (completeReading x).volts = x.2.toOption.map Reading.volts := by
  obtain ⟨t, err | v⟩ := x <;> rfl

/-! ### The members of a sweep -/

theorem andThen_ok_inv {α β : Type} {x : Res α} {k : α → State → Res β} {v : β} (h : (x.andThen k).2 = .ok v) :
    ∃ u t, (k u t).2 = .ok v := by
  obtain ⟨t, err | u⟩ := x
  · cases h
  · exact ⟨u, t, h⟩

/-- A channel read returns the gain code it was asked for (R171). -/
theorem readChannel_gain {x : ChannelConfig} {s : State} {v : Reading} (h : (readChannel x s).2 = .ok v) :
    v.gain = x.gain := by
  cases hl : legalChannel x.ch with
  | false =>
    simp [readChannel, hl] at h
  | true =>
    rw [readChannel_legal s hl] at h
    obtain ⟨-, u, h⟩ := andThen_ok_inv h
    rw [rdchAfterWrite_eq] at h
    obtain ⟨bytes, t, h⟩ := andThen_ok_inv h
    cases h
    rfl

/-- What the sweep keeps of a channel read (R263). -/
def inputOf (x : ChannelConfig) (r : Res Reading) : Input := ⟨r.2.toOption.map Reading.volts, x.gain⟩

theorem sweep_cons (x : ChannelConfig) (xs : List ChannelConfig) (i : Nat) (s : State) :
    sweep (x :: xs) i s =
      ⟨(sweep xs (i + 1) (readChannel x s).1).state,
        inputOf x (readChannel x s) :: (sweep xs (i + 1) (readChannel x s).1).inputs,
        laterError (errorOf (readChannel x s)) (sweep xs (i + 1) (readChannel x s).1).last⟩ := by
  have hgain := fun v => readChannel_gain (x := x) (s := s) (v := v)
  rw [sweep, readChannel_setSeq]
  generalize readChannel x s = r at hgain
  obtain ⟨t, err | v⟩ := r
  · rfl
  · have hlast : ∀ l, laterError none l = l := by
      intro l
      cases l <;> rfl
    simp [inputOf, errorOf, hlast, hgain v rfl, Except.toOption]

/-- An RDCH between two members is the channel read and the report of it. -/
theorem exec_rdch_ended {x : ChannelConfig} {s : State} (hc : s.cfg.wf = true) (hb : s.bus = .free)
    (hs : channelStop s.cfg x = none) (e : ErrCode) (p : Option Response) :
    exec (rdchOf x) (s.ended e p) = .next (completeReading ((readChannel x s).reporting e p)) := by
  rw [exec_rdch_ready (ended_ready hc hb e p) hs, State.ended, readChannel_reporting, readChannel_setSeq]

/-- The host's RDCHs of a schedule leave what the cycle's sweep leaves, and tell the host what the sweep keeps (R261, R263). -/
theorem issueReads_ended {xs : List ChannelConfig} {s : State} (hc : s.cfg.wf = true) (hb : s.bus = .free)
    (hs : ∀ x ∈ xs, channelStop s.cfg x = none) (i : Nat) (e : ErrCode) (p : Option Response) :
    ∃ e' p', issueReads xs (s.ended e p) =
      some ⟨(sweep xs i s).state.ended e' p', (sweep xs i s).inputs, (sweep xs i s).last⟩ := by
  induction xs generalizing s i e p with
  | nil => exact ⟨e, p, rfl⟩
  | cons x xs ih =>
    obtain ⟨hx, hxs⟩ := List.forall_mem_cons.1 hs
    have hf := (readChannel_runs (W := Set.univ) (Set.subset_univ _) (channelStop_none_dac hx)).frame
    have hbus : (readChannel x s).1.bus = .free := hf.bus hb
    have hcfg : (readChannel x s).1.cfg = s.cfg := hf.host.cfg
    obtain ⟨e₁, p₁, hend⟩ : ∃ e₁ p₁, completeReading ((readChannel x s).reporting e p) = (readChannel x s).1.ended e₁ p₁ :=
      complete_ended _ _ _ hbus
    have hraised : (completeReading ((readChannel x s).reporting e p)).raised = errorOf (readChannel x s) :=
      complete_raised _ _ _ _
    obtain ⟨e₂, p₂, hrest⟩ := ih (hcfg.symm ▸ hc) hbus (hcfg.symm ▸ hxs) (i + 1) e₁ p₁
    refine ⟨e₂, p₂, ?_⟩
    rw [issueReads, exec_rdch_ended hc hb hx]
    dsimp only
    rw [hraised, completeReading_volts, hend, hrest, sweep_cons]
    rfl

/-! ### The control step and the transmission -/

/-- A CTRL between two members is the control step and the report of it (R206). -/
theorem exec_ctrl_ended {s : State} (hc : s.cfg.wf = true) (hb : s.bus = .free)
    (hs : channelStop s.cfg s.cfg.refChannel = none) (e : ErrCode) (p : Option Response) :
    ∃ u e' p', exec .ctrl (s.ended e p) = .next u ∧ u = (controlStep s).1.ended e' p' ∧
      u.raised = errorOf (controlStep s) := by
  have hbus : (controlStep s).1.bus = .free := (controlStep_runs (W := Set.univ) (Set.subset_univ _) hs).frame.bus hb
  obtain ⟨e', p', hend⟩ := complete_ended .ctrl codeSmall (fun _ => .empty) (x := (controlStep s).reporting e p) hbus
  refine ⟨_, e', p', ?_, hend, complete_raised _ _ _ _⟩
  rw [exec_ctrl, ended_cfg, run_ready (ended_ready hc hb e p) hs, controlStep_setSeq, State.ended, controlStep_reporting,
    controlStep_setSeq]

/-- The cycle's control step is the CTRL the host issues, if the cycle has one (R261). -/
theorem cycleControl_ended {s : State} (hc : s.cfg.wf = true) (hb : s.bus = .free)
    (hs : s.cfg.ctrlInCycle = true → channelStop s.cfg s.cfg.refChannel = none) (last : Option BlockError) (e : ErrCode)
    (p : Option Response) :
    ∃ u e' p', (if s.cfg.ctrlInCycle then exec .ctrl (s.ended e p) = .next u else u = s.ended e p) ∧
      u = (cycleControl s last).1.ended e' p' ∧
      (cycleControl s last).2 = laterError last (if s.cfg.ctrlInCycle then u.raised else none) := by
  unfold cycleControl
  split
  · next hctrl =>
    obtain ⟨u, e', p', hu, hend, hraised⟩ := exec_ctrl_ended hc hb (hs hctrl) e p
    exact ⟨u, e', p', hu, hend, by rw [hraised]⟩
  · exact ⟨_, e, p, rfl, rfl, rfl⟩

/-! ### Micro-steps that send nothing -/

/-- The history grows by events none of which is a transmission. -/
def AddsNoTx (s t : State) : Prop := ∃ bus, t.log = s.log ++ bus ∧ ∀ e ∈ bus, ∀ m line, e ≠ Event.tx m line

theorem AddsNoTx.of_log_eq {s t : State} (h : t.log = s.log) : AddsNoTx s t := ⟨[], by simp [h], by simp⟩

theorem AddsNoTx.of_event {s t : State} {x : Event} (h : t.log = s.log ++ [x]) (hx : ∀ m line, x ≠ Event.tx m line) :
    AddsNoTx s t :=
  ⟨[x], h, by simpa using hx⟩

theorem AddsNoTx.trans {s t u : State} (h : AddsNoTx s t) (k : AddsNoTx t u) : AddsNoTx s u := by
  obtain ⟨bus, hlog, hbus⟩ := h
  obtain ⟨bus', hlog', hbus'⟩ := k
  exact ⟨bus ++ bus', by rw [hlog', hlog, List.append_assoc],
    fun e he => (List.mem_append.1 he).elim (hbus e) (hbus' e)⟩

theorem MicroStep.addsNoTx {W : Set Place} {s t : State} (h : MicroStep W s t) (hW : .serial ∉ W) : AddsNoTx s t := by
  cases h with
  | write f a r bs => exact .of_event (memWrite_answered f a r bs s).log nofun
  | read a r n =>
    obtain ⟨bytes, hr⟩ := memRead_answered a r n s
    exact .of_event hr.log nofun
  | sleep d => exact .of_event rfl nofun
  | send bs hs => exact absurd hs hW
  | _ => exact .of_log_eq rfl

theorem Runs.addsNoTx {W : Set Place} {s t : State} (h : Runs W s t) (hW : .serial ∉ W) : AddsNoTx s t := by
  induction h with
  | refl => exact .of_log_eq rfl
  | tail _ k ih => exact ih.trans (k.addsNoTx hW)

/-- Up to the end of its control step a cycle sends nothing (R261). -/
theorem controlledState_sends_nothing {s : State} (hs : cycleStop s.cfg = none) :
    Runs {p | p ≠ .serial} s (controlledState s) := by
  obtain ⟨hsched, href⟩ := channelStops_of_cycleStop hs
  have hchannel : ∀ x, channelPlaces x ⊆ {p | p ≠ .serial} := by
    rintro x _ ⟨-, rfl⟩
    nofun
  have hw : Runs {p | p ≠ .serial} s (sweptState s) := sweptState_runs hsched fun x _ => hchannel x
  refine hw.trans (cycleControl_runs _ (fun _ => ?_) (by rwa [hw.cfg]))
  rintro p ((rfl | rfl) | hp)
  · nofun
  · nofun
  · exact hchannel _ hp

/-! ### The cycle -/

/-- A TXREC between two members sends the line and reports nothing (R233). -/
theorem exec_txrec_ended {fs : List Field} {s : State} (hc : s.cfg.wf = true) (hb : s.bus = .free)
    (hlen : fs.length = s.cfg.nFields) (e : ErrCode) (p : Option Response) :
    exec (.txrec fs) (s.ended e p) =
      .next ((sendRecord fs s).ended .none (some ⟨responseWord .txrec .none 0, .empty, none⟩)) := by
  rw [exec_txrec, ended_cfg, run_ready (ended_ready hc hb e p) (recordStop_none hlen)]
  rfl

/-- A line and the wait after it are the last two events (R68, R69). -/
theorem sendThenDelay_log (fs : List Field) (d : Nat) (s : State) :
    (delay d (sendRecord fs s)).log = s.log ++
      [.tx s.now (recordLine s.cfg fs), .sleep (sendRecord fs s).now (delay d (sendRecord fs s)).now d] :=
  List.append_assoc _ _ _

/-- The record a cycle sends, from its sweep (R261). -/
def recordOf (s : State) : List Field :=
  convert s.cfg (sweep s.cfg.schedule 0 s).state.host.offsets (sweep s.cfg.schedule 0 s).inputs

/-- The last error a cycle met (R261). -/
def lastErrorOf (s : State) : Option BlockError := (cycleControl (sweptState s) (sweep s.cfg.schedule 0 s).last).2

/-- After its control step a cycle sends its record, waits for its period's end and reports (R261, R264). -/
theorem cycleBody_ended (s : State) :
    cycleBody s = (delay (s.now + s.cfg.periodUs - (sendRecord (recordOf s) (controlledState s)).now)
      (sendRecord (recordOf s) (controlledState s))).ended (((lastErrorOf s).map BlockError.code).getD .none)
        (some ⟨responseWord .cycle (((lastErrorOf s).map BlockError.code).getD .none) 0, .record (recordOf s),
          lastErrorOf s⟩) := by
  have hcode : ∀ last : Option BlockError, (last.map BlockError.code).getD .none =
      (match last with | some e => e.code | none => ErrCode.none) := by
    intro last
    cases last <;> rfl
  rw [hcode]
  rfl

/-- The host's commands up to TXREC leave what the cycle's sweep and control step leave, and tell the host of the same voltages
and errors (R261, R263). -/
theorem cycle_members {s : State} (hc : s.cfg.wf = true) (hb : s.bus = .free) (hs : cycleStop s.cfg = none) (e : ErrCode)
    (p : Option Response) :
    ∃ w u e' p', issueReads s.cfg.schedule (s.ended e p) = some w ∧
      (if s.cfg.ctrlInCycle then exec .ctrl w.state = .next u else u = w.state) ∧
      recordOf s = convert s.cfg s.host.offsets w.inputs ∧
      lastErrorOf s = laterError w.last (if s.cfg.ctrlInCycle then u.raised else none) ∧
      u = (controlledState s).ended e' p' := by
  obtain ⟨hsched, href⟩ := channelStops_of_cycleStop hs
  have hf := (sweptState_runs (W := Set.univ) hsched fun _ _ => Set.subset_univ _).frame
  have hcfg : (sweptState s).cfg = s.cfg := hf.host.cfg
  have hhost : (sweep s.cfg.schedule 0 s).state.host = s.host := hf.host.host
  obtain ⟨e₁, p₁, hreads⟩ := issueReads_ended hc hb hsched 0 e p
  obtain ⟨u, e₂, p₂, hctrl, hu, hlast⟩ := cycleControl_ended (s := sweptState s) (hcfg.symm ▸ hc) (hf.bus hb)
    (by rwa [hcfg]) (sweep s.cfg.schedule 0 s).last e₁ p₁
  rw [hcfg] at hctrl hlast
  exact ⟨_, u, e₂, p₂, hreads, hctrl, by rw [recordOf, hhost], hlast, hu⟩

/-- Settles O52: member by member the cycle leaves what the host's commands leave, and the delay ends it. -/
theorem cycleAlwaysEmitsOneRecord : Obligations.CycleAlwaysEmitsOneRecord := by
  intro s hs hstop
  have hself : (s.setSeq .cycle 0).ended s.err s.resp = s := ended_self hs.rest.1
  obtain ⟨w, u, e, p, hreads, hctrl, hrecord, hlast, hu⟩ :=
    cycle_members (s := s.setSeq .cycle 0) hs.cfg hs.rest.2 hstop s.err s.resp
  have hruns : Runs {p | p ≠ .serial} (s.setSeq .cycle 0) (controlledState (s.setSeq .cycle 0)) :=
    controlledState_sends_nothing hstop
  have hcfg : (controlledState (s.setSeq .cycle 0)).cfg = s.cfg := hruns.cfg
  have hbus : (controlledState (s.setSeq .cycle 0)).bus = .free := hruns.frame.bus hs.rest.2
  have htx : (controlledState (s.setSeq .cycle 0)).tx = s.tx := hruns.frame.tx (by simp)
  obtain ⟨bus, hlog, hquiet⟩ := hruns.addsNoTx (by simp)
  have hlen : (recordOf (s.setSeq .cycle 0)).length = s.cfg.nFields := List.length_map _
  have hsend := exec_txrec_ended (hcfg.symm ▸ hs.cfg) hbus (by rw [hcfg]; exact hlen) e p
  rw [← hu] at hsend
  have hcycle : exec .cycle s = .next (cycleBody (s.setSeq .cycle 0)) := by rw [exec_cycle, run_ready hs hstop]
  obtain ⟨hrest, hhost, -⟩ := operationsEndIdleWithAResponse .cycle s _ hcycle
  have hbody := cycleBody_ended (s.setSeq .cycle 0)
  rw [hself] at hreads
  generalize cycleBody (s.setSeq .cycle 0) = t at *
  generalize controlledState (s.setSeq .cycle 0) = q at *
  generalize recordOf (s.setSeq .cycle 0) = fs at *
  generalize lastErrorOf (s.setSeq .cycle 0) = raised at *
  refine ⟨w, u, _, t, fs, raised, _, hreads, hctrl, hrecord, hlen, hlast, hsend, hcycle, rfl, hbody, hrest, hhost, ?_, ?_,
    bus, ?_, hquiet⟩
  · rw [hbody]
    exact le_add_tsub.trans (delay_now_le _ _)
  · rw [hbody, ← htx, ← hcfg]
    rfl
  · rw [hbody, hu]
    refine (sendThenDelay_log _ _ _).trans ?_
    rw [hlog, hcfg]
    rfl

end Sys2Proof.Machine
end

section
/-!
PROOFS. SETTLE, and the operations that end at a write that raised: RDCH at its config write (R179), SETCODE at its DAC
write (R204).
-/

namespace Sys2Proof.Machine

/-! ### SETTLE (R143) -/

/-- Settles O24: SETTLE is one delay and the report of it. -/
theorem settleSleepsAtLeast : Obligations.SettleSleepsAtLeast := by
  intro dur s hs
  have hexec : exec (.settle dur) s = .next (finish .settle 0 .empty (delay dur.toNat (s.setSeq .settle 0))) := by
    rw [exec_settle, run_ready hs rfl]
  exact ⟨_, hexec, ⟨rfl, hs.rest.2⟩, rfl, rfl, delay_now_le _ (s.setSeq .settle 0), rfl, rfl, rfl, rfl, rfl, rfl,
    (exec_runs hexec).frame.host, fun b => delay_onlyAges _ (s.setSeq .settle 0) b⟩

/-! ### RDCH ends at its config write (R179) -/

/-- A channel read whose config write raises ends with that write: no later micro-step runs (R179, R326). -/
theorem readChannel_raises {x : ChannelConfig} (s : State) (hl : legalChannel x.ch = true) :
    ∃ y, WriteAnswered x.addr s.cfg.regConfig (halfBytes (buildConfig s.cfg x)) (s.setSeq .rdch 1) y ∧
      ∀ e, y.2 = .error e → readChannel x s = (y.1, .error e) :=
  ⟨_, memWrite_answered .drawn _ _ _ _, fun _ he => by rw [readChannel_legal s hl, andThen_of_error he]⟩

/-- Settles O30: the write's one event is all the history gains, and the report is of the write's error. -/
theorem rdchEndsAtAFailedWrite : Obligations.RdchEndsAtAFailedWrite := by
  intro x s hs hx hd
  obtain ⟨y, hw, hread⟩ := readChannel_raises s (legalChannel_of_legalConfig hx)
  have hexec := exec_rdch_ready hs (channelStop_legal hx hd)
  refine ⟨fun h => ?_, fun d h hto => ?_⟩
  · obtain ⟨herr, hnow⟩ := hw.nack h
    rw [hread _ herr, completeReading, complete_error] at hexec
    refine ⟨_, hexec, ⟨rfl, rfl⟩, rfl, takeError_word (code := .busError) rfl (by decide), ?_⟩
    rw [takeError_log, takeError_now, hnow, ← h]
    exact hw.log
  · obtain ⟨herr, hlate⟩ := hw.timeout d h hto
    rw [hread _ herr, completeReading, complete_error] at hexec
    refine ⟨_, _, hexec, ⟨rfl, rfl⟩, rfl, hlate, takeError_word (code := .busTimeout) rfl (by decide), ?_⟩
    rw [takeError_log, ← h]
    exact hw.log

/-! ### SETCODE whose DAC write raises (R204) -/

/-- The DAC keeps its code where the DAC write of a code raises (R204; log 12). -/
theorem memWrite_untouched_dac {a : Addr} {r : Byte} {bs : List Byte} {s : State} {e : BlockError}
    (h : (memWrite .untouched a r bs s).2 = .error e) : (memWrite .untouched a r bs s).1.dac = s.dac := by
  cases ha : s.answerTo a with
  | ack =>
    rw [memWrite_ack ha] at h
    cases h
  | nack =>
    rw [memWrite_nack ha]
    rfl
  | silent =>
    cases ht : s.cfg.ackTimeoutUs with
    | none =>
      rw [memWrite_silent ha ht] at h
      cases h
    | some d =>
      rw [memWrite_timeout ha ht]
      rfl

/-- After a write that raised, the stored code is the old one or the new one, as drawn (R204). -/
theorem settleCode_of_error {old k : BitVec 12} {x : Res Unit} {e : BlockError} (h : x.2 = .error e) :
    ∃ c, (c = old ∨ c = k) ∧ settleCode old k x = (x.1.popAnswer.setDacCode c, .error e) := by
  refine ⟨if x.1.nextAnswer.keepsOld then old else k, ?_, by rw [settleCode, h]⟩
  split
  · exact .inl rfl
  · exact .inr rfl

/-- What the write of a code leaves whose DAC write `y` raised `e` (R146, R204). -/
structure CodeFailed (k : BitVec 12) (s : State) (e : BlockError) (y : Res Unit) (x : Res (BitVec 12)) : Prop where
  error   : x.2 = .error e
  dac     : x.1.dac = s.dac
  dacCode : x.1.dacCode = s.dacCode ∨ x.1.dacCode = k
  log     : x.1.log = y.1.log
  now     : x.1.now = y.1.now

theorem writeCode_raises (k : BitVec 12) (s : State) :
    ∃ y, WriteAnswered s.cfg.dacAddr dacCmd (dacBytes k) (codeStored k s) y ∧
      ∀ e, y.2 = .error e → CodeFailed k s e y (writeCode k s) := by
  refine ⟨_, memWrite_answered .untouched _ _ _ _, fun e he => ?_⟩
  obtain ⟨c, hc, hx⟩ := settleCode_of_error (old := s.dacCode) (k := k) he
  rw [writeCode_eq, hx]
  exact ⟨rfl, memWrite_untouched_dac he, hc, rfl, rfl⟩

/-- Settles O40: the write raises in either case, the DAC is untouched, and the write of a code keeps its frame. -/
theorem setcodeFailedWriteKeepsTheDac : Obligations.SetcodeFailedWriteKeepsTheDac := by
  intro code s d hs h
  obtain ⟨y, hw, hraises⟩ := writeCode_raises (clampCode (toS16 code)) s
  have hf := writeCode_frame (clampCode (toS16 code)) s
  have hexec := exec_setcode_ready (code := code) hs
  have hhost := (exec_runs hexec).frame.host
  obtain ⟨e, he⟩ : ∃ e, y.2 = .error e :=
    h.elim (fun hn => ⟨_, (hw.nack hn).1⟩) fun ⟨hsilent, hto⟩ => ⟨_, (hw.timeout d hsilent hto).1⟩
  have hx := hraises e he
  rw [complete_of_error hx.error] at hexec hhost
  refine ⟨_, _, hexec, ⟨rfl, rfl⟩, hx.dac, hx.dacCode, hx.log.trans hw.log, fun hn => ?_, fun hsilent => ?_, hf.enabled,
    hf.tx, hf.faults, hhost, hf.ages⟩
  · obtain ⟨herr, hend⟩ := hw.nack hn
    obtain rfl := Except.error.inj (he.symm.trans herr)
    exact ⟨(hx.now.trans hend).symm, rfl, takeError_word (code := .busError) rfl (by decide)⟩
  · have hto := (h.resolve_left (by simp [hsilent])).2
    obtain ⟨herr, hlate⟩ := hw.timeout d hsilent hto
    obtain rfl := Except.error.inj (he.symm.trans herr)
    exact ⟨hlate.trans_eq hx.now.symm, rfl, takeError_word (code := .busTimeout) rfl (by decide)⟩

end Sys2Proof.Machine
end

section
/-!
PROOFS. The settle hazard H1 (R147, R366): a history in which every trigger is followed by a read that comes late enough stays
one when quiet events or whole channel reads are added, and no other operation than the raw accesses adds anything else.
-/

namespace Sys2Proof.Machine

/-! ### Histories whose triggers are all settled -/

/-- Every trigger of the history is followed by a read of its converter, and the next one comes no sooner than the settle
delay allows (R147, R366). -/
def TriggersSettled (c : Cfg) : List Event → Prop
  | [] => True
  | w :: post =>
    (∀ a t, w.readableFrom c a = some t → ∃ u, post.findSome? (Event.readsAt c a) = some u ∧ t ≤ u) ∧
      TriggersSettled c post

variable {c : Cfg}

theorem triggersSettled_iff_forall_split {log : List Event} :
    TriggersSettled c log ↔ ∀ pre w post, log = pre ++ w :: post → ∀ a t, w.readableFrom c a = some t →
      ∃ u, post.findSome? (Event.readsAt c a) = some u ∧ t ≤ u := by
  constructor
  · rintro h pre w post rfl
    induction pre with
    | nil => exact h.1
    | cons e pre ih => exact ih h.2
  · intro h
    induction log with
    | nil => trivial
    | cons e log ih => exact ⟨h [] e log rfl, ih fun pre w post hlog => h (e :: pre) w post (by rw [hlog]; rfl)⟩

/-- That every trigger is settled says in one what `SettleKept` and `NoOpenTrigger` say of the next read, if there is one, and
of there being one (R366). -/
theorem triggersSettled_iff {log : List Event} :
    TriggersSettled c log ↔ SettleKept c log ∧ NoOpenTrigger c log := by
  rw [triggersSettled_iff_forall_split]
  constructor
  · refine fun h => ⟨fun pre w mid b post hlog a t u hw hb hmid => ?_, fun pre w post hlog a t hw => ?_⟩
    · obtain ⟨u', hu', hle⟩ := h pre w _ hlog a t hw
      have hnext : (mid ++ b :: post).findSome? (Event.readsAt c a) = some u :=
        List.findSome?_eq_some_iff.2 ⟨mid, b, post, rfl, hb, hmid⟩
      exact Option.some.inj (hu'.symm.trans hnext) ▸ hle
    · obtain ⟨u, hu, -⟩ := h pre w post hlog a t hw
      obtain ⟨e, he, hread⟩ := List.exists_of_findSome?_eq_some hu
      exact ⟨e, he, by simp [hread]⟩
  · rintro ⟨hkept, hopen⟩ pre w post hlog a t hw
    obtain ⟨e, he, hread⟩ := hopen pre w post hlog a t hw
    cases hu : post.findSome? (Event.readsAt c a) with
    | none => exact absurd (List.findSome?_eq_none_iff.1 hu e he) hread
    | some u =>
      obtain ⟨mid, b, rest, rfl, hb, hmid⟩ := List.findSome?_eq_some_iff.1 hu
      exact ⟨u, rfl, hkept pre w mid b rest hlog a t u hw hb hmid⟩

/-- A settled history that goes on as a settled one is settled: no later read is the next one of an earlier trigger. -/
theorem TriggersSettled.append {log new : List Event} (h : TriggersSettled c log) (hnew : TriggersSettled c new) :
    TriggersSettled c (log ++ new) := by
  induction log with
  | nil => exact hnew
  | cons w log ih =>
    rw [List.cons_append]
    refine ⟨fun a t hw => ?_, ih h.2⟩
    obtain ⟨u, hu, hle⟩ := h.1 a t hw
    exact ⟨u, by rw [List.findSome?_append, hu, Option.some_or], hle⟩

/-- An event that triggers nothing owes no read. -/
theorem triggersSettled_singleton {e : Event} (h : ∀ a, e.readableFrom c a = none) : TriggersSettled c [e] :=
  ⟨fun a t he => by simp [h] at he, trivial⟩

/-- What an event that triggers a conversion is (R80, R147). -/
theorem readableFrom_eq_some {a : Addr} {e : Event} {t : Nat} (h : e.readableFrom c a = some t) :
    ∃ t0 t1 b0 b1 out k, e = .busW t0 t1 a [c.regConfig, b0, b1] out ∧ a ∈ c.adcAddr ∧
      (out = .ack ∨ (out = .silent ∧ c.ackTimeoutUs = none)) ∧ wordRate c (u16 b0 b1) = some k ∧
      t = t1 + settleUs c k := by
  unfold Event.readableFrom at h
  split at h
  · split at h
    · next hw =>
      obtain ⟨ha, rfl, rfl, -, hout⟩ := hw
      obtain ⟨k, hk, rfl⟩ := Option.map_eq_some_iff.1 h
      exact ⟨_, _, _, _, _, k, rfl, ha, hout, hk, rfl⟩
    · cases h
  · cases h

/-- A register write to another device than a converter triggers nothing (R61, R80). -/
theorem readableFrom_of_not_adc {b : Addr} (hb : b ∉ c.adcAddr) (t0 t1 : Nat) (bytes : List Byte) (out : Ack) (a : Addr) :
    (Event.busW t0 t1 b bytes out).readableFrom c a = none := by
  refine Option.eq_none_iff_forall_ne_some.2 fun t h => ?_
  obtain ⟨_, _, _, _, _, _, he, ha, -⟩ := readableFrom_eq_some h
  cases he
  exact hb ha

/-- A register write that raises triggers nothing the block waits for (R146, R147). -/
theorem readableFrom_of_raised {s : State} {b : Addr} (hb : ¬ s.passesAt 0 b) (t0 t1 : Nat) (bytes : List Byte)
    (a : Addr) : (Event.busW t0 t1 b bytes (s.answerTo b)).readableFrom s.cfg a = none := by
  refine Option.eq_none_iff_forall_ne_some.2 fun t h => ?_
  obtain ⟨_, _, _, _, _, _, he, -, hout, -⟩ := readableFrom_eq_some h
  cases he
  exact hb hout

/-- The three events of a channel read are settled where its config word reads back at its rate: the settle delay lies between
the write and the read (R145, R147, R171). -/
theorem triggersSettled_channelRead {x : ChannelConfig} (hrate : wordRate c (buildConfig c x) = some x.rate)
    {t0 t1 t2 t3 d n : Nat} {bytes : List Byte} {wrote read : Ack} (hslept : t1 + settleUs c x.rate ≤ t2) :
    TriggersSettled c [.busW t0 t1 x.addr (c.regConfig :: halfBytes (buildConfig c x)) wrote, .sleep t1 t2 d,
      .busR t2 t3 x.addr c.regConversion n bytes read] := by
  refine ⟨fun a t h => ?_, nofun, nofun, trivial⟩
  obtain ⟨_, _, b0, b1, _, k, he, -, -, hk, rfl⟩ := readableFrom_eq_some h
  obtain ⟨-, rfl, rfl, hbytes, -⟩ := Event.busW.inj he
  obtain ⟨rfl, rfl⟩ : (buildConfig c x).extractLsb' 8 8 = b0 ∧ (buildConfig c x).extractLsb' 0 8 = b1 := by
    simpa [halfBytes] using hbytes
  rw [u16_bytes, hrate] at hk
  obtain rfl := Option.some.inj hk
  exact ⟨t2, by simp [List.findSome?_cons, Event.readsAt], hslept⟩

/-! ### States whose history is settled -/

/-- The machine has this configuration, and its history is settled under it. -/
structure SettledState (c : Cfg) (s : State) : Prop where
  cfg  : s.cfg = c
  done : TriggersSettled c s.log

theorem SettledState.addEvents {s t : State} {new : List Event} (h : SettledState c s) (hcfg : t.cfg = s.cfg)
    (hlog : t.log = s.log ++ new) (hnew : TriggersSettled c new) : SettledState c t :=
  ⟨hcfg.trans h.cfg, hlog ▸ h.done.append hnew⟩

theorem SettledState.addQuiet {s t : State} {e : Event} (h : SettledState c s) (hcfg : t.cfg = s.cfg)
    (hlog : t.log = s.log ++ [e]) (he : ∀ a, e.readableFrom c a = none) : SettledState c t :=
  h.addEvents hcfg hlog (triggersSettled_singleton he)

theorem SettledState.congr {s t : State} (h : SettledState c s) (hcfg : t.cfg = s.cfg) (hlog : t.log = s.log) :
    SettledState c t :=
  ⟨hcfg.trans h.cfg, hlog ▸ h.done⟩

/-- A micro-step that writes no converter adds no trigger. -/
theorem MicroStep.keeps_settled {W : Set Place} {s t : State} (h : MicroStep W s t) (hwf : c.wf = true)
    (hW : ∀ a, .converter a ∉ W) (hs : SettledState c s) : SettledState c t := by
  have hcfg := h.cfg
  cases h with
  | setSeq | freeBus | report | draw | gate | code | wait => exact hs.congr hcfg rfl
  | write f a r bs hp =>
    have ha : a ∉ c.adcAddr := fun ha => hW a (by rwa [Place.ofAddr, hs.cfg, if_neg (ne_dac_of_wf hwf ha)] at hp)
    exact hs.addQuiet hcfg (memWrite_answered f a r bs s).log (readableFrom_of_not_adc ha _ _ _ _)
  | read a r n hp => exact absurd hp (hW a)
  | sleep d => exact hs.addQuiet hcfg rfl fun _ => rfl
  | send bs => exact hs.addQuiet hcfg rfl fun _ => rfl

theorem Runs.keeps_settled {W : Set Place} {s t : State} (h : Runs W s t) (hwf : c.wf = true)
    (hW : ∀ a, .converter a ∉ W) (hs : SettledState c s) : SettledState c t := by
  induction h with
  | refl => exact hs
  | tail _ k ih => exact k.keeps_settled hwf hW ih

/-- The end of an operation adds no event. -/
theorem complete_keeps_settled {α : Type} (op : Op) (k : α → BitVec 24) (r : α → Result) {x : Res α} (hwf : c.wf = true)
    (h : SettledState c x.1) : SettledState c (complete op k r x) :=
  (complete_runs (W := ∅) op k r .refl).keeps_settled hwf (by simp) h

theorem andThen_keeps_settled {α β : Type} {x : Res α} {k : α → State → Res β} (hx : SettledState c x.1)
    (hk : ∀ v, SettledState c (k v x.1).1) : SettledState c (x.andThen k).1 := by
  obtain ⟨t, e | v⟩ := x
  · exact hx
  · exact hk v

/-! ### Channel reads and the operations made of them -/

/-- On a legal channel what stops no channel read is a legal channel configuration (R180, R181). -/
theorem legalConfig_of_channelStop {x : ChannelConfig} (h : channelStop c x = none) (hl : legalChannel x.ch = true) :
    legalConfig c x = true := by
  unfold channelStop at h
  rw [if_pos hl] at h
  split at h
  · next hgr =>
    split at h
    · next hcd => simpa [legalConfig, hl, hcd] using hgr
    · cases h
  · cases h

/-- What is neither acknowledged nor taken for done raises (R66). -/
theorem WriteAnswered.raises {a : Addr} {r : Byte} {bs : List Byte} {s : State} {x : Res Unit}
    (h : WriteAnswered a r bs s x) (hp : ¬ s.passesAt 0 a) : ∃ e, x.2 = .error e := by
  rw [passesAt_zero] at hp
  cases ha : s.answerTo a with
  | ack => exact absurd (.inl ha) hp
  | nack => exact ⟨_, (h.nack ha).1⟩
  | silent =>
    cases ht : s.cfg.ackTimeoutUs with
    | none => exact absurd (.inr ⟨ha, ht⟩) hp
    | some d => exact ⟨_, (h.timeout d ha ht).1⟩

/-- A channel read keeps a settled history settled: it reads what it triggered after the settle delay, and a write that
raised triggered nothing (R145, R171, R179). -/
theorem readChannel_keeps_settled {x : ChannelConfig} {s : State} (hwf : c.wf = true) (hr : c.readable = true)
    (hstop : channelStop c x = none) (h : SettledState c s) : SettledState c (readChannel x s).1 := by
  obtain rfl := h.cfg
  have hruns : Runs (channelPlaces x) s (readChannel x s).1 := readChannel_runs subset_rfl (channelStop_none_dac hstop)
  cases hl : legalChannel x.ch with
  | false => exact hruns.keeps_settled hwf (by simp [hl]) h
  | true =>
    by_cases hp : s.passesAt 0 x.addr
    · obtain ⟨t1, t2, bytes, hread⟩ := readChannel_answered hl hp
      obtain ⟨-, -, -, hrate⟩ := configWordReadsBack s.cfg x hr (legalConfig_of_channelStop hstop hl)
      exact h.addEvents hruns.cfg hread.log (triggersSettled_channelRead hrate hread.slept)
    · obtain ⟨y, hw, hread⟩ := readChannel_raises s hl
      obtain ⟨e, he⟩ := hw.raises hp
      have hlog := (congrArg (fun z => z.1.log) (hread e he)).trans hw.log
      exact h.addQuiet hruns.cfg hlog (readableFrom_of_raised hp _ _ _)

theorem controlStep_keeps_settled {s : State} (hwf : c.wf = true) (hr : c.readable = true)
    (hstop : channelStop c c.refChannel = none) (h : SettledState c s) : SettledState c (controlStep s).1 := by
  rw [controlStep_eq, h.cfg]
  have hread := readChannel_keeps_settled hwf hr hstop h
  exact andThen_keeps_settled hread fun v =>
    (writeCode_runs (W := {.code, .dac}) _ _ (.inl rfl) (.inr rfl)).keeps_settled hwf (by simp) hread

theorem sweep_keeps_settled {xs : List ChannelConfig} {i : Nat} {s : State} (hwf : c.wf = true) (hr : c.readable = true)
    (hstop : ∀ x ∈ xs, channelStop c x = none) (h : SettledState c s) : SettledState c (sweep xs i s).state := by
  induction xs generalizing i s with
  | nil => exact h
  | cons x xs ih =>
    rw [sweep_cons_state]
    obtain ⟨hx, hxs⟩ := List.forall_mem_cons.1 hstop
    exact ih hxs (readChannel_keeps_settled hwf hr hx h)

theorem controlledState_keeps_settled {s : State} (hwf : c.wf = true) (hr : c.readable = true)
    (hstop : cycleStop c = none) (h : SettledState c s) : SettledState c (controlledState s) := by
  obtain ⟨hsched, href⟩ := channelStops_of_cycleStop hstop
  have hswept : SettledState c (sweptState s) :=
    (sweep_keeps_settled hwf hr (h.cfg ▸ hsched) h).congr rfl rfl
  unfold controlledState cycleControl
  split
  · next hctrl => exact controlStep_keeps_settled hwf hr (href (hswept.cfg ▸ hctrl)) hswept
  · exact hswept

theorem cycleBody_keeps_settled {s : State} (hwf : c.wf = true) (hr : c.readable = true)
    (hstop : cycleStop c = none) (h : SettledState c s) : SettledState c (cycleBody s) := by
  have hcontrolled := controlledState_keeps_settled hwf hr hstop h
  obtain ⟨n, k, fs, d, last, he⟩ := cycleBody_eq s
  have hrest : Runs {.serial} (controlledState s) (cycleBody s) := by
    rw [he]
    exact .trans (.tail (.tail (.tail (.single (.setSeq _ .cycle n)) (.send _ _ rfl)) (.setSeq _ .cycle k)) (.sleep _ d))
      (finishCycle_runs last fs _)
  exact hrest.keeps_settled hwf (by simp) hcontrolled

/-! ### The operations -/

/-- An operation keeps the history settled once its body does, from the state `run` hands to it. -/
theorem run_keeps_settled {op : Op} {stop : Option Refusal} {body : State → State} {s t : State}
    {o : Host.Outcome State Fault Refusal} (ho : o = run op stop body s) (h : o = .next t) (hs : SettledState c s)
    (hb : stop = none → SettledState c (s.setSeq op 0) → SettledState c (body (s.setSeq op 0))) : SettledState c t := by
  obtain ⟨-, hstop, rfl⟩ := run_eq_next_iff.1 (ho.symm.trans h)
  exact hb hstop (hs.congr rfl rfl)

/-- Every operation but the raw accesses keeps a settled history settled (R147, R366). -/
theorem exec_keeps_settled {i : Instr} {s t : State} (hr : s.cfg.readable = true) (hwrreg : ∀ a r bs, i ≠ .wrreg a r bs)
    (hrdreg : ∀ a r len, i ≠ .rdreg a r len) (hs : SettledState s.cfg s) (h : exec i s = .next t) :
    SettledState s.cfg t := by
  have hwf := (ready_of_exec h).cfg
  have hruns := exec_runs h
  cases i with
  | wrreg a r bs => exact absurd rfl (hwrreg a r bs)
  | rdreg a r len => exact absurd rfl (hrdreg a r len)
  | rdch a ch g dr cd =>
    exact run_keeps_settled (exec_rdch a ch g dr cd s) h hs fun hstop hs' =>
      complete_keeps_settled _ _ _ hwf (readChannel_keeps_settled hwf hr hstop hs')
  | ctrl =>
    exact run_keeps_settled (exec_ctrl s) h hs fun hstop hs' =>
      complete_keeps_settled _ _ _ hwf (controlStep_keeps_settled hwf hr hstop hs')
  | cycle => exact run_keeps_settled (exec_cycle s) h hs fun hstop hs' => cycleBody_keeps_settled hwf hr hstop hs'
  | settle | setcode | seten | fmtrec | txrec | diagln => exact hruns.keeps_settled hwf (by simp [instrPlaces]) hs

/-- Settles O33: what the hypotheses say of the history is that it is settled, and that is kept. -/
theorem onlyRawAccessesCanBreakTheSettleHazard : Obligations.OnlyRawAccessesCanBreakTheSettleHazard := by
  intro i s t hwrreg hrdreg hr hkept hopen h
  have hs : SettledState s.cfg s := ⟨rfl, triggersSettled_iff.2 ⟨hkept, hopen⟩⟩
  obtain ⟨hcfg, hdone⟩ := exec_keeps_settled hr hwrreg hrdreg hs h
  rw [hcfg]
  exact triggersSettled_iff.1 hdone

end Sys2Proof.Machine
end

section
/-!
PROOFS. Rounding near an integer, and why the voltage of a raw sample is encoded as that sample (R10, R175, R176).
-/

namespace Sys2Proof.Machine

/-- `round` of what is nearer than a half to an integer is that integer, whatever the tie rule (R10). -/
theorem roundQ_of_near (tie : Tie) {q : Rat} {n : Int} (h : |q - n| < 1 / 2) : roundQ tie q = n := by
  obtain ⟨hlo, hhi⟩ := abs_lt.1 h
  obtain hle | hlt := le_or_gt (n : Rat) q
  · have hfloor : q.floor = n := Int.floor_eq_iff.2 ⟨hle, by linarith⟩
    simp only [roundQ, hfloor, if_pos hhi]
  · have hfloor : q.floor = n - 1 := (Int.floor_eq_iff (a := q)).2 ⟨by push_cast; linarith, by push_cast; linarith⟩
    have habove : 1 / 2 < q - ((n - 1 : Int) : Rat) := by push_cast; linarith
    simp only [roundQ, hfloor, if_neg habove.not_gt, if_pos habove, sub_add_cancel]

theorem clampInt_of_mem {x lo hi : Int} (hlo : lo ≤ x) (hhi : x ≤ hi) : clampInt x lo hi = x := by
  rw [clampInt, if_neg hlo.not_gt, if_neg hhi.not_gt]

/-- The reading of a raw sample lies in the clamp of R176. -/
theorem toS16_bounds (w : Half) : -32768 ≤ toS16 w ∧ toS16 w ≤ 32767 := by
  have hw := w.isLt
  unfold toS16
  split <;> omega

theorem toS16_eq_toInt (w : Half) : toS16 w = w.toInt := by
  rw [BitVec.toInt_eq_toNat_cond, toS16]
  simp only [show 2 * w.toNat < 2 ^ 16 ↔ w.toNat < 0x8000 by omega]
  rfl

theorem lsbVolts_pos {c : Cfg} {g : BitVec 3} (hg : (gainRow c g).isSome = true) : 0 < lsbVolts c g := by
  obtain ⟨row, hrow⟩ := Option.isSome_iff_exists.1 hg
  have hfs := gainRow_pos hrow
  simp only [lsbVolts, hrow]
  positivity

/-- In every numerics the voltage of a raw sample is less than half an LSB from its exact value, as a sample of at most 2^15
LSB is rounded by at most 2^-23 of itself (R31; log 22). -/
theorem toVolts_near_raw (c : Cfg) (raw : Half) {g : BitVec 3} (hg : (gainRow c g).isSome = true) :
    |toVolts c raw g / lsbVolts c g - (toS16 raw : Rat)| < 1 / 2 := by
  have hl := lsbVolts_pos hg
  obtain ⟨hlo, hhi⟩ := toS16_bounds raw
  have hraw : |(toS16 raw : Rat)| ≤ 32768 := by exact_mod_cast abs_le.2 ⟨hlo, by omega⟩
  have hoff : |toVolts c raw g - toS16 raw * lsbVolts c g| ≤ |(toS16 raw : Rat)| * lsbVolts c g / 8388608 := by
    simpa only [toVolts, abs_mul, abs_of_pos hl] using num_within c (toS16 raw * lsbVolts c g)
  rw [div_sub' hl.ne', abs_div, abs_of_pos hl, div_lt_iff₀ hl, mul_comm (lsbVolts c g)]
  calc |toVolts c raw g - toS16 raw * lsbVolts c g|
      ≤ |(toS16 raw : Rat)| * lsbVolts c g / 8388608 := hoff
    _ ≤ 32768 * lsbVolts c g / 8388608 := by gcongr
    _ < 1 / 2 * lsbVolts c g := by linarith

/-- Settles O35: the voltage in LSB is too near to the sample to be rounded to another integer, and the clamp holds all
samples. -/
theorem encodeVoltsRecoversRaw : Obligations.EncodeVoltsRecoversRaw := by
  intro c raw g hg
  obtain ⟨hlo, hhi⟩ := toS16_bounds raw
  rw [encodeVolts, roundQ_of_near _ (toVolts_near_raw c raw hg), clampInt_of_mem hlo hhi, toS16_eq_toInt,
    BitVec.ofInt_toInt]

end Sys2Proof.Machine
end

section
/-!
PROOFS. RDCH on a bad channel, and RDCH without a meaning (R177, R180, R181, R328).
-/

namespace Sys2Proof.Machine

/-- On a bad channel a channel read raises before its first transaction (R177). -/
theorem readChannel_badChannel {x : ChannelConfig} (s : State) (h : legalChannel x.ch = false) :
    readChannel x s = (s.setSeq .rdch 0, .error (.invalidChannel x.ch)) := by
  unfold readChannel
  exact if_neg (Bool.not_eq_true _ ▸ h)

/-- A bad channel is no refusal, whatever the other operands are (R328). -/
theorem channelStop_badChannel {c : Cfg} {x : ChannelConfig} (h : legalChannel x.ch = false) : channelStop c x = none :=
  if_neg (Bool.not_eq_true _ ▸ h)

/-- A raise at rest reports its code and leaves all else, as the sequencer is idle and the bus free already (R326). -/
theorem takeError_ready {s : State} (hs : s.Ready) (op : Op) (e : BlockError) :
    takeError op e s = { s with err := e.code, resp := some ⟨responseWord op e.code 0, .empty, some e⟩ } := by
  obtain ⟨hseq, hbus⟩ := hs.rest
  rw [takeError, ← hseq, ← hbus]

/-- Settles O27: nothing stops the read of a bad channel, and it raises where it begins. -/
theorem rdchBadChannelRaisesFirst : Obligations.RdchBadChannelRaisesFirst := by
  intro a ch g dr cd s hs hch
  have hbad : legalChannel ch = false := decide_eq_false hch.not_gt
  have hword : responseWord .rdch .invalidChannel 0 = 0x41000000 := by decide
  calc exec (.rdch a ch g dr cd) s
      = .next (completeReading (readChannel ⟨a, ch, g, dr, cd⟩ s)) :=
        exec_rdch_ready (x := ⟨a, ch, g, dr, cd⟩) hs (channelStop_badChannel hbad)
    _ = .next (takeError .rdch (.invalidChannel ch) s) := by rw [readChannel_badChannel s hbad]; rfl
    _ = _ := by rw [takeError_ready hs, BlockError.code, hword]

/-- Settles O28: each clause is a branch of `channelStop`, which a ready block refuses by its name. -/
theorem rdchRefusals : Obligations.RdchRefusals := by
  intro a ch g dr cd s hs hch
  exact ⟨fun h => rdch_refused (x := ⟨a, ch, g, dr, cd⟩) hs (channelStop_gainOrRate hch h),
    fun hg hr => rdch_refused (x := ⟨a, ch, g, dr, false⟩) hs (channelStop_comparator hch hg hr rfl)⟩

end Sys2Proof.Machine
end

section
/-!
PROOFS. MAPCODE: `round` and the clamp are monotone, so the map is, and it is flat beyond its two ends (R201, R202).
-/

namespace Sys2Proof.Machine

/-! ### round (R201) -/

/-- `round` takes the integer below or the next one, whatever the tie rule. -/
theorem roundQ_bounds (tie : Tie) (q : Rat) : q.floor ≤ roundQ tie q ∧ roundQ tie q ≤ q.floor + 1 := by
  simp only [roundQ]
  split
  · omega
  · split
    · omega
    · cases tie with
      | even => dsimp only; split <;> omega
      | away => dsimp only; split <;> omega

/-- Less than halfway `round` is the integer below. -/
theorem roundQ_of_below_half (tie : Tie) {q : Rat} (h : q - q.floor < 1 / 2) : roundQ tie q = q.floor := if_pos h

/-- More than halfway `round` is the next integer. -/
theorem roundQ_of_above_half (tie : Tie) {q : Rat} (h : 1 / 2 < q - q.floor) : roundQ tie q = q.floor + 1 := by
  simp only [roundQ, if_neg h.not_gt, if_pos h]

/-- `round` is monotone: between two integers it is constant on either side of the tie, and the tie goes one way. -/
theorem roundQ_mono (tie : Tie) {p q : Rat} (h : p ≤ q) : roundQ tie p ≤ roundQ tie q := by
  obtain ⟨-, hp⟩ := roundQ_bounds tie p
  obtain ⟨hq, -⟩ := roundQ_bounds tie q
  have hfloor : p.floor ≤ q.floor := Int.floor_mono h
  obtain hlt | heq := hfloor.lt_or_eq
  · omega
  · obtain hbelow | htie | habove := lt_trichotomy (p - p.floor) (1 / 2)
    · rw [roundQ_of_below_half tie hbelow, heq]
      exact hq
    · obtain rfl | hne := h.eq_or_lt
      · exact le_rfl
      · rw [roundQ_of_above_half tie (q := q) (by rw [← heq]; linarith)]
        omega
    · rw [roundQ_of_above_half tie (q := q) (by rw [← heq]; linarith)]
      omega

theorem roundQ_intCast (tie : Tie) (n : Int) : roundQ tie n = n := roundQ_of_near tie (by simp)

/-! ### MAPCODE (R202) -/

theorem clampInt_mono {x y : Int} (lo hi : Int) (h : x ≤ y) (hr : lo ≤ hi) : clampInt x lo hi ≤ clampInt y lo hi := by
  unfold clampInt
  split_ifs <;> omega

theorem vFullscale_pos_of_wf {c : Cfg} (h : c.wf = true) : 0 < c.vFullscale :=
  (configurationsOutsideTheDomainAreRefused.2 c).1 h |>.1

/-- A higher voltage never has a lower code. -/
theorem mapCode_mono {c : Cfg} (hc : c.wf = true) {u v : Rat} (h : u ≤ v) : (mapCode c u).toNat ≤ (mapCode c v).toNat := by
  have hpos := vFullscale_pos_of_wf hc
  have hround : roundQ c.roundTie (u / c.vFullscale * 4095) ≤ roundQ c.roundTie (v / c.vFullscale * 4095) :=
    roundQ_mono _ (by gcongr)
  have hclamp := clampInt_mono 0 4095 hround (by decide)
  rw [← clampCode_toNat, ← clampCode_toNat] at hclamp
  exact_mod_cast hclamp

theorem mapCode_zero (c : Cfg) : mapCode c 0 = 0 := by
  have hround : roundQ c.roundTie (0 / c.vFullscale * 4095) = 0 := by simpa using roundQ_intCast c.roundTie 0
  rw [mapCode, hround]
  rfl

theorem mapCode_fullscale {c : Cfg} (hc : c.wf = true) : mapCode c c.vFullscale = 4095 := by
  have hround : roundQ c.roundTie (c.vFullscale / c.vFullscale * 4095) = 4095 := by
    rw [div_self (vFullscale_pos_of_wf hc).ne', one_mul]
    exact roundQ_intCast c.roundTie 4095
  rw [mapCode, hround]
  rfl

/-- Settles O37: the map is monotone, and 0 and 4095 are the least and the greatest code. -/
theorem mapcodeEndsAndIsMonotone : Obligations.MapcodeEndsAndIsMonotone := by
  intro c hc
  refine ⟨fun v hv => ?_, fun v hv => ?_, fun u v h => mapCode_mono hc h⟩
  · have hle := mapCode_mono hc hv
    rw [mapCode_zero] at hle
    exact BitVec.eq_of_toNat_eq (Nat.le_zero.1 hle)
  · have hle := mapCode_mono hc hv
    rw [mapCode_fullscale hc] at hle
    exact BitVec.eq_of_toNat_eq (le_antisymm (Nat.le_of_lt_succ (mapCode c v).isLt) hle)

end Sys2Proof.Machine
end

section
/-!
PROOFS. SETEN (R205); CTRL as the read of its reference, the mapping through the gate and SETCODE, where it ends when the read
raises, and what it leaves when every transaction is acknowledged (R206, R209, R210).
-/

namespace Sys2Proof.Machine

/-! ### SETEN (R205) -/

/-- Settles O41: the gate is written and the end of SETEN leaves the sequencer idle, as it was. -/
theorem setenWritesOnlyTheGate : Obligations.SetenWritesOnlyTheGate := by
  intro e s hs
  have hword : responseWord .seten .none 0 = 0x60000000 := by decide
  rw [exec_seten, run_ready hs rfl, finish, hword, ← hs.rest.1]
  rfl

/-! ### CTRL as its members (R206) -/

/-- The report of a control step (R206). -/
def completeControl (x : Res (BitVec 12)) : State := complete .ctrl codeSmall (fun _ => .empty) x

/-- A CTRL that nothing stops is its control step and the report of it (R206). -/
theorem exec_ctrl_ready {s : State} (hs : s.Ready) (hstop : channelStop s.cfg s.cfg.refChannel = none) :
    exec .ctrl s = .next (completeControl (controlStep s)) := by
  rw [exec_ctrl, run_ready hs hstop, controlStep_setSeq]
  rfl

/-- What CTRL reports in place of SETCODE, its last member, which left `w` (R206). -/
def reportingControl (out : BitVec 12) (w : State) : State :=
  w.reporting w.err (some ⟨responseWord .ctrl w.err (if w.raised = none then codeSmall out else 0), .empty, w.raised⟩)

/-- The end of a DAC write is the same in CTRL as in SETCODE, but for the response. -/
theorem completeControl_eq_reporting {out : BitVec 12} {x : Res (BitVec 12)} (hx : ∀ k, x.2 = .ok k → k = out)
    (e : ErrCode) (p : Option Response) :
    completeControl x = reportingControl out (complete .setcode codeSmall (fun _ => .empty) (x.reporting e p)) := by
  obtain ⟨t, err | k⟩ := x
  · rfl
  · obtain rfl := hx k rfl
    rfl

/-- The DAC write of a code returns that code, if it does not raise (R204). -/
theorem writeCode_value {k v : BitVec 12} {s : State} (h : (writeCode k s).2 = .ok v) : v = k := by
  rw [writeCode_eq] at h
  generalize memWrite .untouched s.cfg.dacAddr dacCmd (dacBytes k) (codeStored k s) = x at h
  obtain ⟨t, e | u⟩ := x
  · cases h
  · cases h
    rfl

/-- A code as SETCODE's operand is clamped to itself (R208). -/
theorem clampCode_operand (k : BitVec 12) : clampCode (toS16 (k.setWidth 16)) = k := by
  have hk := k.isLt
  have hval : toS16 (k.setWidth 16) = k.toNat := by
    have hnat : (k.setWidth 16).toNat = k.toNat := by
      rw [BitVec.toNat_setWidth]
      omega
    rw [toS16, hnat, if_pos (by omega)]
  have hclamp := clampCode_toNat (toS16 (k.setWidth 16))
  rw [hval, clampInt_of_mem (by omega) (by omega)] at hclamp
  rw [hval]
  exact BitVec.eq_of_toNat_eq (by exact_mod_cast hclamp)

/-- SETCODE of a code between two members is the DAC write and the report of it (R204). -/
theorem exec_setcode_ended {s : State} (hc : s.cfg.wf = true) (hb : s.bus = .free) (k : BitVec 12) (e : ErrCode)
    (p : Option Response) :
    exec (.setcode (k.setWidth 16)) (s.ended e p) =
      .next (complete .setcode codeSmall (fun _ => .empty) ((writeCode k s).reporting e p)) := by
  rw [exec_setcode_ready (ended_ready hc hb e p), clampCode_operand, State.ended, writeCode_reporting, writeCode_setSeq]

/-- An RDCH that answers a next state is its channel read and the report of it (R171). -/
theorem exec_rdch_next {x : ChannelConfig} {s u : State} (h : exec (rdchOf x) s = .next u) :
    s.Ready ∧ channelStop s.cfg x = none ∧ u = completeReading (readChannel x s) := by
  obtain ⟨hs, hstop, -⟩ := run_eq_next_iff.1 ((exec_rdch _ _ _ _ _ s).symm.trans h)
  exact ⟨hs, hstop, Host.Outcome.next.inj (h.symm.trans (exec_rdch_ready hs hstop))⟩

/-- Settles O60: by how the reference read ended, in which CTRL does what the RDCH does, the control step stops there or goes
on with the DAC write of the gated code. -/
theorem ctrlIsReadMapGateSetcode : Obligations.CtrlIsReadMapGateSetcode := by
  intro s u h
  obtain ⟨hs, hstop, rfl⟩ := exec_rdch_next h
  have haddr := channelStop_none_dac hstop
  have hf := (readChannel_frame s.cfg.refChannel s haddr).frame
  have hbus := (readChannel_runs (W := Set.univ) (Set.subset_univ _) haddr).frame.bus hs.rest.2
  rw [exec_ctrl_ready hs hstop, controlStep_eq]
  generalize readChannel s.cfg.refChannel s = y at hf hbus
  obtain ⟨t, err | reading⟩ := y
  · refine ⟨fun e he => ?_, nofun⟩
    obtain rfl := Option.some.inj he
    rfl
  · refine ⟨nofun, fun v hv => ?_⟩
    obtain rfl := Option.some.inj hv
    have hgate : gatedCode t reading = if s.enabled then mapCode s.cfg reading.volts else 0 := by
      rw [gatedCode, hf.enabled, hf.cfg]
    rw [andThen_ok, completeControl_eq_reporting fun _ => writeCode_value]
    exact ⟨_, _, hgate, exec_setcode_ended (hf.cfg ▸ hs.cfg) hbus _ _ _, rfl⟩

/-! ### CTRL whose reference read raises (R209) -/

/-- CTRL ends where its reference read raises: it leaves what the RDCH left, and the DAC and the stored code with it (R209). -/
theorem ctrl_of_raised_read {s u : State} {e : BlockError} (h : exec (rdchOf s.cfg.refChannel) s = .next u)
    (he : u.raised = some e) :
    ∃ t, exec .ctrl s = .next t ∧ AtRest t ∧ t.dac = s.dac ∧ t.dacCode = s.dacCode ∧ t.err = e.code ∧
      t.resp = some ⟨responseWord .ctrl e.code 0, .empty, some e⟩ ∧ t.log = u.log ∧ t.now = u.now := by
  have hctrl := (ctrlIsReadMapGateSetcode s u h).1 e he
  obtain ⟨-, hcode, -, hdac, -⟩ := rdchFrame _ _ _ _ _ s u h
  exact ⟨_, hctrl, (operationsEndIdleWithAResponse _ _ _ hctrl).1, hdac, hcode, rfl, rfl, rfl, rfl⟩

/-- The same, from the response of the RDCH and with the word of CTRL's written out (R121, R326). -/
theorem ctrl_of_raised_response {s u : State} {e : BlockError} {code : ErrCode} {w w' : Word} {r : Result}
    (h : exec (rdchOf s.cfg.refChannel) s = .next u) (hresp : u.resp = some ⟨w, r, some e⟩) (hcode : e.code = code)
    (hword : responseWord .ctrl code 0 = w') :
    ∃ t, exec .ctrl s = .next t ∧ t.dac = s.dac ∧ t.dacCode = s.dacCode ∧ t.err = code ∧
      t.resp = some ⟨w', .empty, some e⟩ ∧ t.log = u.log ∧ t.now = u.now := by
  obtain ⟨t, ht, -, hdac, hstored, herr, hr, hlog, hnow⟩ :=
    ctrl_of_raised_read (e := e) h (by rw [State.raised, hresp]; rfl)
  rw [hcode] at herr hr
  exact ⟨t, ht, hdac, hstored, herr, hword ▸ hr, hlog, hnow⟩

/-- The response words of a CTRL that raised (R121, R325). -/
theorem ctrl_invalidChannel_word : responseWord .ctrl .invalidChannel 0 = 0x71000000 := by decide

theorem ctrl_busError_word : responseWord .ctrl .busError 0 = 0x72000000 := by decide

theorem ctrl_busTimeout_word : responseWord .ctrl .busTimeout 0 = 0x73000000 := by decide

/-- Settles O43: however the RDCH of the reference raises, CTRL ends there. -/
theorem ctrlKeepsTheDacWhenTheReferenceFails : Obligations.CtrlKeepsTheDacWhenTheReferenceFails := by
  intro s hs hstop
  refine ⟨fun u e h he => ctrl_of_raised_read h he, fun hch => ?_, fun hch => ?_⟩
  · obtain ⟨t, ht, hdac, hstored, herr, hresp, hlog, -⟩ := ctrl_of_raised_response
      (rdchBadChannelRaisesFirst _ _ _ _ _ s hs hch) rfl rfl ctrl_invalidChannel_word
    exact ⟨t, ht, herr, hlog, hdac, hstored, hresp⟩
  · have hl := legalChannel_iff.2 hch
    have hx := legalConfig_of_channelStop hstop hl
    have haddr := channelStop_none_dac hstop hl
    obtain ⟨hnack, htimeout⟩ := rdchEndsAtAFailedWrite _ s hs hx haddr
    refine ⟨fun h => ?_, fun d h hto => ?_, fun h => ?_⟩
    · obtain ⟨u, hu, -, -, hread, hevents⟩ := hnack h
      obtain ⟨t, ht, hdac, hstored, herr, hresp, hlog, hnow⟩ := ctrl_of_raised_response hu hread rfl ctrl_busError_word
      exact ⟨t, ht, herr, hdac, hstored, hresp, by rw [hlog, hnow, hevents]⟩
    · obtain ⟨u, t1, hu, -, -, hlate, hread, hevents⟩ := htimeout d h hto
      obtain ⟨t, ht, hdac, hstored, herr, hresp, hlog, hnow⟩ := ctrl_of_raised_response hu hread rfl ctrl_busTimeout_word
      exact ⟨t, t1, ht, herr, hdac, hstored, hnow ▸ hlate, hresp, hlog.trans hevents⟩
    · obtain ⟨u, t1, t2, bytes, hu, -, -, -, hnack, htimeout, -⟩ := rdchOutcomesOfTheRead _ s hs hx haddr h
      refine ⟨fun h2 => ?_, fun h2 hto => ?_⟩
      · obtain ⟨-, -, hread⟩ := hnack h2
        obtain ⟨t, ht, hdac, hstored, herr, hresp, -⟩ := ctrl_of_raised_response hu hread rfl ctrl_busError_word
        exact ⟨t, ht, hdac, hstored, herr, hresp⟩
      · obtain ⟨d, hsome⟩ := Option.ne_none_iff_exists'.1 hto
        obtain ⟨-, -, -, hread⟩ := htimeout d h2 hsome
        obtain ⟨t, ht, hdac, hstored, herr, hresp, -⟩ := ctrl_of_raised_response hu hread rfl ctrl_busTimeout_word
        exact ⟨t, ht, hdac, hstored, herr, hresp⟩

/-! ### CTRL with every transaction acknowledged (R206, R210) -/

/-- Settles O42: the channel read is of the conversion it started and uses three draws, and the gated code is written with the
fourth. -/
theorem ctrlDrivesTheGatedCode : Obligations.CtrlDrivesTheGatedCode := by
  intro s d hs hreadable hx hadc hfresh hwrite hread hdac
  obtain ⟨hstart, -, hgain, hrate⟩ := configWordReadsBack s.cfg s.cfg.refChannel hreadable hx
  obtain ⟨u, hu, hr⟩ := readChannel_acknowledged hs.cfg hadc (legalChannel_of_legalConfig hx) hfresh hwrite hread hstart
    hgain hrate
  obtain ⟨t1, t2, -, -, hlog⟩ := hr.log
  have hcfg := hr.frame.cfg
  have hack : u.ackAt 0 u.cfg.dacAddr = .ack := by rw [ackAt_of_drawn hcfg hr.draws, hcfg]; exact hdac
  have hexec := exec_ctrl_ready hs (channelStop_legal hx (ne_dac_of_wf hs.cfg hadc))
  rw [controlStep_eq, hu, andThen_ok, gatedCode, hr.frame.enabled, hcfg] at hexec
  generalize hout : (if s.enabled then mapCode s.cfg _ else 0) = out at hexec
  have hw := writeCode_passes out (.inl hack)
  rw [completeControl, complete_of_ok hw.ok] at hexec
  refine ⟨_, t1, t2, u.now, _, out, hexec, ⟨rfl, hw.bus⟩, rfl, hout.symm, hw.acked hack, hw.dacCode, rfl, rfl, ?_⟩
  rw [finish_log, finish_now, hw.log, hlog, hack, hcfg, List.append_assoc]
  rfl

end Sys2Proof.Machine
end

section
/-!
PROOFS. The text of a number reads back as the rounded thousandths, its first digit zero only where it stands alone; FMTREC, and
the records FMTREC and TXREC refuse (R231, R232, R236, R238).
-/

namespace Sys2Proof.Machine

/-! ### Reading digits back (R231) -/

/-- A number with one more base-ten digit behind it, as the text's bytes are read from the left. -/
def appendDigit (n : Int) (b : Byte) : Int := n * 10 + ((b.toNat : Int) - 0x30)

theorem appendDigit_digitByte (n : Int) (d : Nat) : appendDigit n (digitByte d) = n * 10 + (d % 10 : Nat) := by
  rw [appendDigit, digitByte_toNat]
  omega

/-- The digits that are put before a text are read as the number they are of. -/
theorem decimalAux_foldl {fuel n : Nat} (h : n < fuel) (acc : List Byte) :
    (decimalAux fuel n acc).foldl appendDigit 0 = acc.foldl appendDigit n := by
  induction fuel generalizing n acc with
  | zero => omega
  | succ fuel ih =>
    rw [decimalAux]
    split
    next hlt => rw [List.foldl_cons, appendDigit_digitByte, Nat.mod_eq_of_lt hlt, zero_mul, zero_add]
    next hge =>
      have hshift : ((n / 10 : Nat) : Int) * 10 + (n % 10 : Nat) = n := by omega
      rw [ih (by omega), List.foldl_cons, appendDigit_digitByte, hshift]

theorem decimal_foldl (n : Nat) : (decimal n).foldl appendDigit 0 = n := decimalAux_foldl n.lt_succ_self []

theorem pad3_foldl (n : Int) {k : Nat} (h : k < 1000) : (pad3 k).foldl appendDigit n = n * 1000 + k := by
  simp only [pad3, List.foldl_cons, List.foldl_nil, appendDigit_digitByte]
  omega

/-- Thousands and rest, each written out, read back as the number. -/
theorem thousandths_foldl (m : Nat) : (decimal (m / 1000) ++ pad3 (m % 1000)).foldl appendDigit 0 = m := by
  rw [List.foldl_append, decimal_foldl, pad3_foldl _ (Nat.mod_lt _ (by decide))]
  omega

/-! ### The first digit (R231) -/

/-- The first digit is zero of the number 0 alone. -/
theorem decimalAux_cons {fuel n : Nat} (h : n < fuel) (acc : List Byte) :
    ∃ d rest, decimalAux fuel n acc = digitByte d :: rest ∧ d < 10 ∧ (n ≠ 0 → d ≠ 0) := by
  induction fuel generalizing n acc with
  | zero => omega
  | succ fuel ih =>
    rw [decimalAux]
    split
    next hlt => exact ⟨n, acc, rfl, hlt, id⟩
    next hge =>
      obtain ⟨d, rest, heq, hd, hpos⟩ := ih (n := n / 10) (by omega) (digitByte n :: acc)
      exact ⟨d, rest, heq, hd, fun _ => hpos (by omega)⟩

theorem decimal_ne_nil (n : Nat) : decimal n ≠ [] := by
  obtain ⟨d, rest, heq, -⟩ := decimalAux_cons n.lt_succ_self []
  rw [decimal, heq]
  exact List.cons_ne_nil _ _

theorem decimal_head?_ne_zero {n : Nat} (h : 1 < (decimal n).length) : (decimal n).head? ≠ some 0x30 := by
  have hn : n ≠ 0 := by
    rintro rfl
    exact absurd h (by decide)
  obtain ⟨d, rest, heq, hd, hpos⟩ := decimalAux_cons n.lt_succ_self []
  rw [decimal, heq, List.head?_cons, Ne, Option.some_inj]
  intro hzero
  have hval : 0x30 + d % 10 = 0x30 := (digitByte_toNat d).symm.trans (congrArg BitVec.toNat hzero)
  exact hpos hn (by omega)

/-! ### fmt3 (R231, R236) -/

theorem roundQ_nonneg (tie : Tie) {q : Rat} (h : 0 ≤ q) : 0 ≤ roundQ tie q :=
  (Int.floor_nonneg.2 h).trans (roundQ_bounds tie q).1

/-- Settles O46: the digits are those of the rounded thousandths, which are not negative. -/
theorem fmtThreeDecimals : Obligations.FmtThreeDecimals := by
  refine ⟨fun c => rfl, fun c q => ?_⟩
  have hround : 0 ≤ roundQ c.roundTie (|q| * 1000) := roundQ_nonneg _ (by positivity)
  refine ⟨_, _, rfl, rfl, decimal_ne_nil _, fun b hb => ?_, decimal_head?_ne_zero,
    (thousandths_foldl _).trans (Int.toNat_of_nonneg hround)⟩
  exact (List.mem_append.1 hb).elim (decimal_digits _ b) (pad3_digits _ b)

/-! ### FMTREC, and records of another length (R232, R238) -/

/-- Settles O48: a record of the right length runs, and the end of FMTREC leaves the sequencer idle, as it was. -/
theorem fmtrecReturnsTheLine : Obligations.FmtrecReturnsTheLine := by
  intro fs s hs hlen
  have hword : responseWord .fmtrec .none 0 = 0x80000000 := by decide
  rw [exec_fmtrec, run_ready hs (recordStop_none hlen), finish, hword, ← hs.rest.1]
  rfl

theorem recordStop_fieldCount {c : Cfg} {fs : List Field} (h : fs.length ≠ c.nFields) :
    recordStop c fs = some .fieldCount := if_neg h

/-- Settles O50: the length is the one thing that stops a record, in both operations. -/
theorem wrongFieldCountIsRefused : Obligations.WrongFieldCountIsRefused := by
  intro fs s hs hlen
  rw [exec_fmtrec, exec_txrec, recordStop_fieldCount hlen]
  exact ⟨run_stop hs, run_stop hs⟩

end Sys2Proof.Machine
end

section
/-!
PROOFS. CONVERT: a field is out of range where a value it names is absent, and it looks at nothing but the values it names
(R263, R292).
-/

namespace Sys2Proof.Machine

/-! ### Values that may be absent (R263) -/

@[simp] theorem fieldOf_none {α : Type} (k : α → Field) : fieldOf none k = .outOfRange := rfl

theorem fieldOf_outOfRange {α : Type} (x : Option α) {k : α → Field} (h : ∀ v, k v = .outOfRange) :
    fieldOf x k = .outOfRange := by
  cases x with
  | none => rfl
  | some v => exact h v

/-- One absent value among those gathered leaves none. -/
theorem gather_eq_none {α : Type} {f : Nat → Option α} {i : Nat} {is : List Nat} (hi : i ∈ is) (hf : f i = none) :
    gather f is = none := by
  induction is with
  | nil => cases hi
  | cons j js ih =>
    rw [gather]
    obtain rfl | hj := List.mem_cons.1 hi
    · rw [hf]
    · rw [ih hj]
      cases f j <;> rfl

theorem gather_congr {α : Type} {f g : Nat → Option α} {is : List Nat} (h : ∀ i ∈ is, f i = g i) :
    gather f is = gather g is := by
  induction is with
  | nil => rfl
  | cons j js ih =>
    obtain ⟨hj, hjs⟩ := List.forall_mem_cons.1 h
    rw [gather, gather, hj, ih hjs]

theorem voltsAt_congr {ins ins' : List Input} {i : Nat} (h : ins[i]? = ins'[i]?) : voltsAt ins i = voltsAt ins' i := by
  rw [voltsAt, voltsAt, h]

theorem gainedAt_congr {ins ins' : List Input} {i : Nat} (h : ins[i]? = ins'[i]?) : gainedAt ins i = gainedAt ins' i := by
  rw [gainedAt, gainedAt, h]

/-- The gain code of an absent input is not read either. -/
theorem gainedAt_eq_none {ins : List Input} {i : Nat} (h : voltsAt ins i = none) : gainedAt ins i = none := by
  rw [voltsAt] at h
  rw [gainedAt]
  cases hx : ins[i]? with
  | none => rfl
  | some x =>
    rw [hx, Option.bind_some] at h
    rw [Option.bind_some, h, Option.map_none]

/-! ### The fields (R282 to R285, R292) -/

theorem fieldValue_of_absent_input {c : Cfg} {ins : List Input} {offsets : List (Option Rat)} {src : FieldSource} {i : Nat}
    (hi : i ∈ placesOf src) (hv : voltsAt ins i = none) : fieldValue c ins offsets src = .outOfRange := by
  cases src with
  | const q => cases hi
  | volts j | thermistor j t | hall j cal k inverted | shunt j cal r =>
    obtain rfl := List.mem_singleton.1 hi
    rw [fieldValue, hv, fieldOf_none]
  | percent j ref =>
    rw [fieldValue]
    obtain rfl | rfl := List.mem_pair.1 hi
    · rw [hv, fieldOf_none]
    · rw [hv]
      exact fieldOf_outOfRange _ fun _ => rfl
  | other id is cals => rw [fieldValue, gather_eq_none (is := is) hi (gainedAt_eq_none hv), fieldOf_none]

theorem fieldValue_of_absent_offset {c : Cfg} {ins : List Input} {offsets : List (Option Rat)} {src : FieldSource} {k : Nat}
    (hk : k ∈ offsetsOf src) (hz : offsetAt offsets k = none) : fieldValue c ins offsets src = .outOfRange := by
  cases src with
  | const q | volts j | thermistor j t | percent j ref => cases hk
  | hall j cal q inverted | shunt j cal r =>
    obtain rfl := List.mem_singleton.1 hk
    rw [fieldValue, hz]
    exact fieldOf_outOfRange _ fun _ => rfl
  | other id is cals =>
    rw [fieldValue, gather_eq_none (is := cals) hk hz]
    exact fieldOf_outOfRange _ fun _ => rfl

/-- A field is the same from inputs and offsets that agree where its source looks. -/
theorem fieldValue_congr (c : Cfg) {ins ins' : List Input} {offsets offsets' : List (Option Rat)} {src : FieldSource}
    (hi : ∀ i ∈ placesOf src, ins[i]? = ins'[i]?) (hk : ∀ k ∈ offsetsOf src, offsetAt offsets k = offsetAt offsets' k) :
    fieldValue c ins offsets src = fieldValue c ins' offsets' src := by
  have hvolts : ∀ i ∈ placesOf src, voltsAt ins i = voltsAt ins' i := fun i h => voltsAt_congr (hi i h)
  cases src with
  | const q => rfl
  | volts j | thermistor j t => rw [fieldValue, fieldValue, hvolts j (.head _)]
  | hall j cal q inverted | shunt j cal r =>
    rw [fieldValue, fieldValue, hvolts j (.head _), hk cal (.head _)]
  | percent j ref => rw [fieldValue, fieldValue, hvolts j (.head _), hvolts ref (.tail _ (.head _))]
  | other id is cals =>
    have hxs : gather (gainedAt ins) is = gather (gainedAt ins') is := gather_congr fun i h => gainedAt_congr (hi i h)
    have hzs : gather (offsetAt offsets) cals = gather (offsetAt offsets') cals := gather_congr hk
    rw [fieldValue, fieldValue, hxs, hzs]

/-- Settles O54: field by field, and the record is the list of its fields in order. -/
theorem absentInputsAreOutOfRange : Obligations.AbsentInputsAreOutOfRange := by
  refine ⟨fun c ins offsets src h => ?_, fun c _ _ _ _ _ hi hk => fieldValue_congr c hi hk,
    fun c ins ins' offsets offsets' => ⟨List.length_map _, fun k f hf => ?_, fun h => ?_⟩⟩
  · obtain ⟨i, hi, hv⟩ | ⟨k, hk, hz⟩ := h
    · exact fieldValue_of_absent_input hi hv
    · exact fieldValue_of_absent_offset hk hz
  · rw [convert, List.getElem?_map, hf, Option.map_some]
  · exact List.map_congr_left fun f hf => fieldValue_congr c (h f hf).1 (h f hf).2

end Sys2Proof.Machine
end

section
/-!
PROOFS. A turn of the main loop: CYCLE, or a wait that issues nothing (R265, R281, R364; log 26).
-/

namespace Sys2Proof.Machine

theorem step_poll {s : State} {rest : List HostInput} (h : s.inputs = .poll :: rest) : step s = poll (s.setInputs rest) := by
  rw [step, h]
  rfl

/-- The boot is over when it has not failed and no offset is missing (R281, R363, R364). -/
theorem booted_iff (h : HostSide) : h.booted = true ↔ h.bootFailed = false ∧ none ∉ h.offsets := by
  rw [HostSide.booted, Bool.and_eq_true, Bool.not_eq_true', List.all_eq_true]
  refine and_congr_right fun _ => ⟨fun hall hmem => Bool.false_ne_true (hall none hmem), fun hnone o ho => ?_⟩
  exact Option.isSome_iff_ne_none.2 fun he => hnone (he ▸ ho)

theorem poll_of_logging {s : State} (hm : s.host.mode = .logging) (hb : s.host.booted = true) :
    poll s = exec .cycle s := by
  rw [poll, hm, hb]
  rfl

/-- A turn that is not both in Logging and after the boot only lets time pass. -/
theorem poll_of_gated {s : State} (h : s.host.mode = .idle ∨ ¬ s.host.booted = true) : poll s = .next (waitFor 0 s) := by
  rw [poll, if_neg]
  intro hgate
  obtain ⟨hm, hb⟩ := Bool.and_eq_true_iff.1 hgate
  obtain hidle | hboot := h
  · rw [hidle] at hm
    cases hm
  · exact hboot hb

/-- Settles O57: the gate decides between CYCLE and a wait, and a wait writes none of these places. -/
theorem mainLoopIsGatedByTheMode : Obligations.MainLoopIsGatedByTheMode := by
  intro s rest hin
  rw [step_poll hin]
  refine ⟨fun hclosed => ?_, fun hm hf ho => poll_of_logging hm ((booted_iff _).2 ⟨hf, ho⟩)⟩
  have hgate : s.host.mode = .idle ∨ ¬ s.host.booted = true := by
    refine hclosed.imp_right fun hboot hb => ?_
    obtain ⟨hf, ho⟩ := (booted_iff _).1 hb
    exact hboot.elim (ne_true_of_eq_false hf) ho
  have hw := waitFor_busFrame 0 (s.setInputs rest)
  exact ⟨_, poll_of_gated hgate, rfl, hw.tx, rfl, hw.dacCode, hw.enabled, hw.err, hw.resp⟩

end Sys2Proof.Machine
end

section
/-!
PROOFS. The button: one poll that is accepted, and the polls that change no mode (R287; log 26).
-/

namespace Sys2Proof.Machine

/-- A falling edge once the hold is over toggles the mode and starts the next hold (R287). -/
theorem pressed_accepted {h : HostSide} {now : Nat} (c : Cfg) (hlow : h.buttonLow = false) (harm : h.rearmAt ≤ now) :
    h.pressed c now true = { h with mode := h.mode.toggle, buttonLow := true, rearmAt := now + c.debounceUs } := by
  simp [HostSide.pressed, hlow, harm]

/-- Any other poll of the button only notes its level (R287). -/
theorem pressed_ignored {h : HostSide} {now : Nat} {low : Bool} (c : Cfg)
    (hno : h.buttonLow = true ∨ now < h.rearmAt ∨ low = false) : h.pressed c now low = { h with buttonLow := low } := by
  refine if_neg fun hedge => ?_
  simp only [Bool.and_eq_true, Bool.not_eq_true', decide_eq_true_eq] at hedge
  obtain ⟨⟨hup, hlow⟩, harm⟩ := hedge
  obtain hheld | hhold | hrelease := hno
  · exact Bool.false_ne_true (hup.symm.trans hheld)
  · exact absurd harm (Nat.not_le.2 hhold)
  · exact Bool.false_ne_true (hrelease.symm.trans hlow)

/-- Settles O56: one poll is accepted, and the others keep the mode. -/
theorem buttonTogglesOncePerHold : Obligations.ButtonTogglesOncePerHold := by
  intro h c now
  refine ⟨fun hlow harm => ?_, fun hhold => ?_, fun hheld => ?_, ?_⟩
  · rw [pressed_accepted c hlow harm]
    exact ⟨rfl, rfl⟩
  · rw [pressed_ignored c (.inr (.inl hhold))]
  · rw [pressed_ignored c (.inl hheld)]
  · rw [pressed_ignored c (.inr (.inr rfl))]

end Sys2Proof.Machine
end

section
/-!
PROOFS. The boot calibration: its samples are the RDCHs and the waits of the host, and what comes of them is their mean or the
mark of their error (R286, R363, R364; log 26).
-/

namespace Sys2Proof.Machine

/-! ### The samples of a calibration -/

/-- A sample that raises is the last (R286, R364). -/
theorem takeSamples_of_error {k : Calibration} {s : State} {e : BlockError} (n : Nat)
    (h : (readChannel k.channel s).2 = .error e) :
    takeSamples k (n + 1) s = (completeReading (readChannel k.channel s), .error e) := by
  simp only [takeSamples, h]

/-- The state after one RDCH of a calibration and the inter-sample wait (R363). -/
def sampledState (k : Calibration) (s : State) : State := waitFor k.gapUs (completeReading (readChannel k.channel s))

/-- A sample that returns a voltage is followed by the wait and the other samples (R286, R363). -/
theorem takeSamples_of_ok {k : Calibration} {s : State} {v : Reading} (n : Nat) (h : (readChannel k.channel s).2 = .ok v) :
    takeSamples k (n + 1) s =
      ((takeSamples k n (sampledState k s)).1, (takeSamples k n (sampledState k s)).2.map (v.volts :: ·)) := by
  simp only [takeSamples, h, sampledState]

/-- The code of the error an operation raised is what it reports (R326). -/
theorem complete_err {α : Type} (op : Op) (k : α → BitVec 24) (r : α → Result) {x : Res α} {e : BlockError}
    (h : x.2 = .error e) : (complete op k r x).err = e.code := by
  rw [complete, h]
  rfl

/-- A calibration whose sample raised ends with the code of that error (R326, R364). -/
theorem takeSamples_err {k : Calibration} {n : Nat} {s : State} {e : BlockError} (h : (takeSamples k n s).2 = .error e) :
    (takeSamples k n s).1.err = e.code := by
  induction n generalizing s with
  | zero => cases h
  | succ n ih =>
    cases hr : (readChannel k.channel s).2 with
    | error e' =>
      rw [takeSamples_of_error n hr] at h ⊢
      cases h
      exact complete_err _ _ _ hr
    | ok v =>
      rw [takeSamples_of_ok n hr] at h ⊢
      generalize hrest : takeSamples k n (sampledState k s) = rest at h ⊢
      obtain ⟨t, e' | xs⟩ := rest
      · cases h
        have hih := ih (congrArg Prod.snd hrest)
        rwa [hrest] at hih
      · cases h

/-- Between two samples the block takes the next RDCH (R363, R374). -/
theorem sampledState_ready {k : Calibration} {s : State} (hs : s.Ready) (hx : channelStop s.cfg k.channel = none) :
    (sampledState k s).Ready ∧ (sampledState k s).cfg = s.cfg := by
  have hexec := exec_rdch_ready hs hx
  obtain ⟨hrest, hhost, -⟩ := operationsEndIdleWithAResponse _ s _ hexec
  have hcfg : (sampledState k s).cfg = s.cfg := hhost.cfg
  refine ⟨⟨hcfg.symm ▸ hs.cfg, ?_⟩, hcfg⟩
  change (completeReading (readChannel k.channel s)).isIdle = true
  rw [State.isIdle, hrest.seq, hrest.bus]
  rfl

/-- The samples of a calibration are the RDCHs and the waits of the host, and their voltages those of the responses (R286). -/
theorem issueSamples_eq {k : Calibration} {s : State} (n : Nat) (hs : s.Ready) (hx : channelStop s.cfg k.channel = none) :
    issueSamples k n s = some ((takeSamples k n s).1, (takeSamples k n s).2.toOption) := by
  induction n generalizing s with
  | zero => rfl
  | succ n ih =>
    rw [issueSamples, exec_rdch_ready hs hx]
    dsimp only
    rw [completeReading_volts]
    cases hr : (readChannel k.channel s).2 with
    | error e =>
      rw [takeSamples_of_error n hr]
      rfl
    | ok v =>
      obtain ⟨hready, hcfg⟩ := sampledState_ready hs hx
      rw [takeSamples_of_ok n hr, Except.toOption, Option.map_some]
      dsimp only
      rw [← sampledState, ih hready (hcfg.symm ▸ hx)]
      generalize takeSamples k n (sampledState k s) = rest
      obtain ⟨t, e | xs⟩ := rest <;> rfl

/-! ### The boot calibration -/

theorem step_calibrate {s : State} {k : Nat} {rest : List HostInput} (h : s.inputs = .calibrate k :: rest) :
    step s = calibrate k (s.setInputs rest) := by
  rw [step, h]
  rfl

/-- After a failed boot, or with its offset there, a sensor is not calibrated (R36, R364). -/
theorem calibrate_nothing {s : State} {k : Nat} {cal : Calibration} (hcal : s.cfg.calibrations[k]? = some cal)
    (h : s.host.bootFailed = true ∨ offsetAt s.host.offsets k ≠ none) : calibrate k s = .next s := by
  simp only [calibrate, hcal]
  exact if_pos (by rwa [Bool.or_eq_true, Option.isSome_iff_ne_none])

/-- Any other calibration of a ready block takes its samples, and the host keeps what comes of them (R286). -/
theorem calibrate_samples {s : State} {k : Nat} {cal : Calibration} (hcal : s.cfg.calibrations[k]? = some cal) (hs : s.Ready)
    (hx : channelStop s.cfg cal.channel = none) (hboot : s.host.bootFailed = false)
    (hoff : offsetAt s.host.offsets k = none) :
    calibrate k s = .next ((takeSamples cal cal.count s).1.setHost
      (s.host.calibrated s.cfg k cal (takeSamples cal cal.count s).2)) := by
  have hself : s.setSeq .idle 0 = s := by
    rw [State.setSeq, ← hs.rest.1]
  have hhost : (takeSamples cal cal.count s).1.host = s.host :=
    (takeSamples_runs (W := Set.univ) (Set.subset_univ _) hx).frame.host.host
  simp only [calibrate, hcal, hboot, hoff]
  refine (if_neg nofun).trans ((run_ready hs hx).trans ?_)
  rw [hself, hhost]

/-- Of the errors of a sample all but an InvalidChannel fail the boot (R364). -/
theorem calibrated_of_error {h : HostSide} (c : Cfg) (k : Nat) (cal : Calibration) (e : BlockError)
    (hboot : h.bootFailed = false) :
    h.calibrated c k cal (.error e) = { h with bootFailed := decide (e.code ≠ .invalidChannel) } := by
  cases e with
  | invalidChannel ch => exact congrArg (fun b => { h with bootFailed := b }) hboot
  | busError a => rfl
  | busTimeout a => rfl

/-- An error has a code of its own, not that of success (R121). -/
theorem code_ne_none (e : BlockError) : e.code ≠ .none := by
  cases e <;> nofun

/-- Settles O58: the samples are the host's RDCHs, and the host keeps their mean or the mark of their error. -/
theorem calibrationKeepsTheMeanOrFails : Obligations.CalibrationKeepsTheMeanOrFails := by
  intro s k cal rest hin hcal
  rw [step_calibrate hin]
  refine ⟨calibrate_nothing (s := s.setInputs rest) hcal, fun hs hx hboot hoff => ?_⟩
  have hready : (s.setInputs rest).Ready := ⟨hs.cfg, hs.idle⟩
  refine ⟨_, _, issueSamples_eq cal.count hready hx, ?_⟩
  rw [calibrate_samples (s := s.setInputs rest) hcal hready hx hboot hoff]
  cases hr : (takeSamples cal cal.count (s.setInputs rest)).2 with
  | error e =>
    refine ⟨nofun, fun _ => ?_⟩
    rw [takeSamples_err hr, calibrated_of_error (h := (s.setInputs rest).host) _ k cal e hboot]
    exact ⟨code_ne_none e, rfl⟩
  | ok xs =>
    refine ⟨fun vs hvs => ?_, nofun⟩
    obtain rfl := Option.some.inj hvs
    exact ⟨takeSamples_length _ _ _ hr, keptSamples cal xs, keptSamples_sublist cal xs,
      fun hrej => keptSamples_default hrej xs, rfl⟩

end Sys2Proof.Machine
end

section
/-!
PROOFS. The thermistor: its range, and its order by the resistance of the divider and the host's logarithm (R282, C10; log 25).
-/

namespace Sys2Proof.Machine

/-- The thermistor has no value exactly outside the divider's range and where its resistance is not positive (R282). -/
theorem thermistor_outOfRange_iff (c : Cfg) (th : Thermistor) (v : Rat) :
    Thermistor.field c th v = .outOfRange ↔ v ≤ 0 ∨ th.vSupply ≤ v ∨ Thermistor.resistance th v ≤ 0 := by
  rw [← or_assoc, Thermistor.field]
  split
  · next hout => exact iff_of_true rfl (.inl hout)
  · next hin =>
    split
    · next hr => exact iff_of_true rfl (.inr hr)
    · next hr => exact iff_of_false nofun (not_or.2 ⟨hin, hr⟩)

/-- Between its boundaries the thermistor's resistance is positive in both orientations (R282). -/
theorem resistance_pos {th : Thermistor} {v : Rat} (hf : 0 < th.rFixed) (hv : 0 < v) (hvs : v < th.vSupply) :
    0 < Thermistor.resistance th v := by
  have hrest : 0 < th.vSupply - v := sub_pos.2 hvs
  unfold Thermistor.resistance
  split
  · exact div_pos (mul_pos hf hrest) hv
  · exact div_pos (mul_pos hf hv) hrest

/-- In the first orientation the resistance falls with the voltage (R282, C10). -/
theorem resistance_first_anti {th : Thermistor} {v w : Rat} (ho : th.orientation = .first) (hf : 0 < th.rFixed) (hv : 0 < v)
    (hvw : v < w) (hw : w < th.vSupply) : Thermistor.resistance th w < Thermistor.resistance th v := by
  simp only [Thermistor.resistance, ho]
  have hrest : 0 < th.vSupply - v := sub_pos.2 (hvw.trans hw)
  exact div_lt_div₀ (mul_lt_mul_of_pos_left (sub_lt_sub_left hvw _) hf) hvw.le (mul_pos hf hrest).le hv

/-- In the dual orientation the resistance rises with the voltage (R282, C10). -/
theorem resistance_dual_mono {th : Thermistor} {v w : Rat} (ho : th.orientation = .dual) (hf : 0 < th.rFixed) (hv : 0 < v)
    (hvw : v < w) (hw : w < th.vSupply) : Thermistor.resistance th v < Thermistor.resistance th w := by
  simp only [Thermistor.resistance, ho]
  exact div_lt_div₀ (mul_lt_mul_of_pos_left hvw hf) (sub_le_sub_left hvw.le _) (mul_pos hf (hv.trans hvw)).le (sub_pos.2 hw)

/-- `1/T` of the Beta equation rises with the resistance, as the host's logarithm does (R282; log 25). -/
theorem inverseKelvin_strictMono {th : Thermistor} {r q : Rat} (h0 : 0 < th.r0) (hb : 0 < th.beta) (hr : 0 < r) (hrq : r < q) :
    Thermistor.inverseKelvin th r < Thermistor.inverseKelvin th q :=
  add_lt_add_right (div_lt_div_of_pos_right (hostLn_strictMono (div_pos hr h0) (div_lt_div_of_pos_right hrq h0)) hb) _

/-- With positive constants and a positive absolute temperature the Beta equation is stated (R282). -/
theorem celsius_of_pos {th : Thermistor} {r : Rat} (h0 : 0 < th.r0) (ht : 0 < th.t0) (hb : 0 < th.beta) (hr : 0 < r)
    (hi : 0 < Thermistor.inverseKelvin th r) :
    Thermistor.celsius th r = 1 / Thermistor.inverseKelvin th r - 27315 / 100 := by
  have hq : posQ (r / th.r0) = true := posQ_iff.2 (div_pos hr h0)
  exact if_pos (by simp [Thermistor.stated, h0.ne', ht.ne', hb.ne', hi.ne', hq])

/-- Where the Beta equation gives positive absolute temperatures, the temperature falls as the resistance rises (R282, C10). -/
theorem celsius_strictAnti {th : Thermistor} {r q : Rat} (h0 : 0 < th.r0) (ht : 0 < th.t0) (hb : 0 < th.beta) (hr : 0 < r)
    (hrq : r < q) (hir : 0 < Thermistor.inverseKelvin th r) (hiq : 0 < Thermistor.inverseKelvin th q) :
    Thermistor.celsius th q < Thermistor.celsius th r := by
  rw [celsius_of_pos h0 ht hb hr hir, celsius_of_pos h0 ht hb (hr.trans hrq) hiq]
  exact sub_lt_sub_right (one_div_lt_one_div_of_lt hir (inverseKelvin_strictMono h0 hb hr hrq)) _

/-- Between its boundaries the thermistor's field is the temperature of its resistance, in exact numerics (R31, R282). -/
theorem thermistor_between {c : Cfg} {th : Thermistor} {v : Rat} (hc : c.numerics = .exact) (hf : 0 < th.rFixed) (hv : 0 < v)
    (hvs : v < th.vSupply) : Thermistor.field c th v = .num (Thermistor.celsius th (Thermistor.resistance th v)) := by
  rw [Thermistor.field, if_neg (not_or.2 ⟨hv.not_ge, hvs.not_ge⟩), if_neg (resistance_pos hf hv hvs).not_ge, numField,
    num_exact hc]

/-- Settles O55: the range by its three tests, and the order by the resistance and the host's logarithm. -/
theorem thermistorBoundaries : Obligations.ThermistorBoundaries := by
  refine ⟨thermistor_outOfRange_iff, fun c th v w hc hf h0 ht hb hv hvw hw hiv hiw => ?_⟩
  have hvs := hvw.trans hw
  have hv0 := hv.trans hvw
  refine ⟨_, _, thermistor_between hc hf hv hvs, thermistor_between hc hf hv0 hw, ?_⟩
  cases ho : th.orientation with
  | first =>
    exact celsius_strictAnti h0 ht hb (resistance_pos hf hv0 hw) (resistance_first_anti ho hf hv hvw hw) hiw hiv
  | dual =>
    exact celsius_strictAnti h0 ht hb (resistance_pos hf hv hvs) (resistance_dual_mono ho hf hv hvw hw) hiv hiw

end Sys2Proof.Machine
end

section
/-!
PROOFS. A busy block takes no step (R374; log 19).
-/

namespace Sys2Proof.Machine

/-- Settles O12: every operation is a run, and a run of a busy block has no step. -/
theorem busyBlockTakesNoStep : Obligations.BusyBlockTakesNoStep := by
  intro i s hc hi
  obtain ⟨op, stop, body, hr⟩ := exec_eq_run i s
  rw [hr, run_busy hc hi]

end Sys2Proof.Machine
end
